-- ==== Sys2Proof/Word.lean ====
section
/-! DEFINITION. The word types of KANZI-CORE: bytes, host words, the 56-bit coder registers, the 41-bit counters
(00_scope.md R4, R7; 20_memory.md R62). -/

namespace Sys2Proof

/-- One byte of `BUF` or of a stream (20_memory.md R62). -/
abbrev Byte := BitVec 8

/-- A host register or a command word (10_state.md R40, 30_encoding.md R91). -/
abbrev Word := BitVec 32

/-- A datapath register of the coders, `W = 56` bits (10_state.md R21). -/
abbrev CoderReg := BitVec 56

/-- A frequency counter, `CW = 41` bits (10_state.md R31, R32). -/
abbrev Counter := BitVec 41

end Sys2Proof
end

