-- ==== Sys2Proof/Config.lean ====
section
/-! DEFINITION. What is fixed for the block (00_scope.md R4), the parameters of a run (R5, R6) and the two free
values the spec leaves open (logs 5 and 6). -/

namespace Sys2Proof

/-- The parameters of a run, which no step changes (00_scope.md R5, R6; 10_state.md R52): the address width of
`BUF` and the bytes the input stream delivers. Log 1 and log 2 say what `State.reset` holds here. -/
structure Params where
  aw       : Nat
  inStream : List Byte
  deriving DecidableEq, Repr

/-- `BUF` holds `2^AW` bytes (00_scope.md R5). -/
def Params.bufSize (p : Params) : Nat := 2 ^ p.aw

namespace Config

/-- Index of the terminal symbol (00_scope.md R4, `TERM`). -/
def term : Nat := 256

/-- The smallest `range` the coder keeps, and the bound of the total frequency (R4, `MAX_RANGE`). -/
def maxRange : Nat := 2 ^ 40

/-- The mask of the forced narrowing (R4, `BOTTOM = 2^40 - 1`). UNVERIFIED: the spec took it from general knowledge
(93_implementation_defined.md G2); unsafe about the original software, log 11. -/
def bottom : CoderReg := 0xFFFFFFFFFF#56

/-- The value `low` resets to (10_state.md R22, R24). UNVERIFIED: G1, unsafe about the original software, log 10. -/
def initialLow : CoderReg := 0#56

/-- The value `range` resets to (10_state.md R23, R24). UNVERIFIED: G1, unsafe about the original software, log 10. -/
def initialRange : CoderReg := 0xFFFFFFFFFFFFFF#56

/-- The largest value of the ZLT run counter (R4, `ZLT_MAX_RUN`). -/
def zltMaxRun : Nat := 2 ^ 31 - 1

/-- The identity register (10_state.md R41). -/
def identity : Word := 0x4B5A0001#32

/-- Iterations the model allows one renormalisation. DEDUCED, safe: a loop that has not ended after 16 iterations
never ends, and in every reachable state it ends after at most 9 (41_range_encoder.md R146, log 7). -/
def renormFuel : Nat := 17

/-- Free value: what the byte of `BUF` at an address nothing has written since the last reset event reads as
(10_state.md R51, 93_implementation_defined.md U1); the first argument counts the reset events. Nothing can be
proved about its value. DESIGN CHOICE, safe, log 5. -/
opaque unwrittenByte : Nat → Nat → Byte

/-- Free value: what the 32-bit `PRODUCED` holds after an ENCBLK that appended `n ≥ 2^32` bytes; the spec gives the
count no register value (41_range_encoder.md R150, 10_state.md R46). DESIGN CHOICE, safe, log 6. -/
opaque wideCount : Nat → Word

end Config
end Sys2Proof
end

