-- ==== Sys2Proof/Syntax.lean ====
section
/-! DEFINITION. The ten commands of the block, one constructor per row of spec/opcode_table.json
(30_encoding.md R94). Only ENCB has an operand (R93); every other operand is implicit. -/

namespace Sys2Proof

/-- A command of KANZI-CORE. -/
inductive Instr where
  /-- NOP, OPC 0x00 (44_system.md R200). -/
  | nop
  /-- ENCB, OPC 0x01: encode the byte `ARG` (41_range_encoder.md R148). -/
  | encb (b : Byte)
  /-- ENCF, OPC 0x02: flush the encoder (R149). -/
  | encf
  /-- ENCBLK, OPC 0x03: encode a region of `BUF` (R150). -/
  | encblk
  /-- ERST, OPC 0x04: reset the encoder unit (R151). -/
  | erst
  /-- DECB, OPC 0x10: decode one byte (42_range_decoder.md R165). -/
  | decb
  /-- DECBLK, OPC 0x11: decode into a region of `BUF` (R166). -/
  | decblk
  /-- DRST, OPC 0x12: reset the decoder unit (R167). -/
  | drst
  /-- ZFWD, OPC 0x20: ZLT forward (43_zlt.md R186). -/
  | zfwd
  /-- ZINV, OPC 0x21: ZLT inverse (R190). -/
  | zinv
  deriving DecidableEq, Repr

end Sys2Proof
end

