-- ==== Sys2Proof/Machine/State.lean ====
section
/-! DEFINITION. The state of KANZI-CORE as plain data (10_state.md R20), the outcomes a step can stop with, and the
state after reset (10_state.md R53, 70_reset_and_hazards.md R245). -/

namespace Sys2Proof.Machine

/-- The two counter files of one coder unit (10_state.md R31, R32). -/
structure FreqModel where
  deltaFreq : Vector Counter 258
  baseFreq  : Vector Counter 17
  deriving DecidableEq, Repr

/-- The encoder unit (10_state.md R20, R22, R23, R27). -/
structure Encoder where
  low     : CoderReg
  range   : CoderReg
  written : Bool
  flushed : Bool
  freq    : FreqModel
  deriving DecidableEq, Repr

/-- The decoder unit (10_state.md R20, R24, R25, R28). -/
structure Decoder where
  low         : CoderReg
  range       : CoderReg
  code        : CoderReg
  initialized : Bool
  err         : Bool
  errcode     : BitVec 4
  freq        : FreqModel
  deriving DecidableEq, Repr

/-- The stored host registers (10_state.md R20, R40). `ID`, `CMD` and `USTAT` hold nothing of their own (R41, R42, R47). -/
structure Regs where
  status   : Word
  result   : Word
  srcBase  : Word
  srcLen   : Word
  dstBase  : Word
  dstLen   : Word
  size     : Word
  consumed : Word
  produced : Word
  deriving DecidableEq, Repr

/-- An event of the output stream (10_state.md R50, 20_memory.md R66). -/
inductive OutEvent where
  | byte (b : Byte)
  | flush
  deriving DecidableEq, Repr

/-- An operation of the host; nothing else reaches the block (30_encoding.md R90). A command is `regWrite 0x04 w`. -/
inductive HostOp where
  | regRead (off : BitVec 8)
  | regWrite (off : BitVec 8) (v : Word)
  | bufRead (addr : Nat)
  | bufWrite (addr : Nat) (b : Byte)
  | reset
  deriving DecidableEq, Repr

/-- A value a read of the host returned (70_reset_and_hazards.md R260). -/
inductive Reply where
  | reg (v : Word)
  | byte (b : Byte)
  deriving DecidableEq, Repr

/-- `BUF`: the bytes written since the last reset event, by address (10_state.md R51). -/
abbrev Memory := List Host.Cell

/-- The canonical form of `BUF`: addresses strictly rising. An unlisted address holds no listed value, so no entry equals
what an unlisted address reads as (log 5). -/
abbrev Memory.wf (m : Memory) : Prop := m.Pairwise fun x y => x.1 < y.1

/-- The whole state. `enc` to `inPos` are the spec's (10_state.md R20); `params` are the parameters of the run;
`bufEpoch`, `hostOps` and `replies` are the model's own (logs 3 and 5). -/
structure State where
  enc       : Encoder
  dec       : Decoder
  regs      : Regs
  buf       : Memory
  outStream : List OutEvent
  inPos     : Nat
  params    : Params
  bufEpoch  : Nat
  hostOps   : List HostOp
  replies   : List Reply
  deriving DecidableEq, Repr

/-- The status codes (60_exceptions.md R215). Every one of them is a next state, none stops the machine (R216, R229). -/
inductive StatusCode where
  | ok | inval | eos | corrupt | space | io | seq | freq | illcmd
  deriving DecidableEq, Repr

/-- Why the model's machine stops. None is a fault of the spec, whose faults are status codes. -/
inductive Fault where
  /-- Raised by the step on a host `BufRead` or `BufWrite` at an address of `2^AW` or more, which 20_memory.md R60 says
  cannot be formed. Safe: such an operation does not exist (log 9). -/
  | bufAddress
  /-- Raised by ENCB, ENCBLK, DECB, DECBLK when `total` or the decoder's unit width is 0, which 41_range_encoder.md R143
  says never happens: only from states no run reaches. Safe (log 8). -/
  | zeroDivisor
  /-- Raised by ENCB, ENCBLK when the renormalisation loop would not end, which 41_range_encoder.md R146 says never
  happens: only from states no run reaches. Safe: a stuck state (log 7). -/
  | renormDiverges
  deriving DecidableEq, Repr

/-- Why the model gives no meaning. -/
inductive Refusal where
  /-- Raised by an arm of `exec` for a command the model has no meaning for; no arm raises it now. Safe. -/
  | notModelled (mnemonic : String)
  deriving DecidableEq, Repr

/-- The counter file with entry `i` equal to `f i`. -/
def counterFile (n : Nat) (f : Nat → Nat) : Vector Counter n :=
  ⟨⟨(List.range n).map fun i => BitVec.ofNat 41 (f i)⟩, by simp⟩

/-- The model after reset: every symbol has frequency 1 (10_state.md R34). -/
def FreqModel.initial : FreqModel where
  deltaFreq := counterFile 258 fun i => i % 16
  baseFreq  := counterFile 17 fun i => i * 16

/-- The encoder after reset or ERST (10_state.md R53, 41_range_encoder.md R151). -/
def Encoder.initial : Encoder where
  low     := Config.initialLow
  range   := Config.initialRange
  written := false
  flushed := false
  freq    := FreqModel.initial

/-- The decoder after reset or DRST (10_state.md R53, 42_range_decoder.md R167). -/
def Decoder.initial : Decoder where
  low         := Config.initialLow
  range       := Config.initialRange
  code        := 0#56
  initialized := false
  err         := false
  errcode     := 0#4
  freq        := FreqModel.initial

/-- The stored host registers after reset: all 0 (10_state.md R53). -/
def Regs.initial : Regs where
  status   := 0#32
  result   := 0#32
  srcBase  := 0#32
  srcLen   := 0#32
  dstBase  := 0#32
  dstLen   := 0#32
  size     := 0#32
  consumed := 0#32
  produced := 0#32

/-- The machine right after reset (10_state.md R53), with no host operation pending. DESIGN CHOICE for the parameters of
the run and the model's own fields: `AW = 16` (the spec's suggested default), an empty input stream, `bufEpoch = 0`
(logs 1, 2, 3, 5); unsafe for a claim that rests on them, and no statement does. -/
def State.reset : State where
  enc       := Encoder.initial
  dec       := Decoder.initial
  regs      := Regs.initial
  buf       := []
  outStream := []
  inPos     := 0
  params    := ⟨16, []⟩
  bufEpoch  := 0
  hostOps   := []
  replies   := []

end Sys2Proof.Machine
end

