-- ==== Sys2Proof/WellFormed.lean ====
section
/-! DEFINITION. What a well-formed command, host operation and run parameter is (30_encoding.md R90, R93;
00_scope.md R5). Each is a `Bool`, so that an ill-formed term can be shown to be refused. -/

namespace Sys2Proof

/-- A well-formed command. ENCB accepts any byte value (41_range_encoder.md R148) and no other command has an operand,
so the operand's type already says everything. -/
def Instr.wellFormed : Instr → Bool
  | .nop => true
  | .encb _ => true
  | .encf => true
  | .encblk => true
  | .erst => true
  | .decb => true
  | .decblk => true
  | .drst => true
  | .zfwd => true
  | .zinv => true

/-- The constraint on the run's parameters: `1 <= AW <= 32`; any finite input stream (00_scope.md R5, R6). -/
def Params.wellFormed (p : Params) : Bool := 1 ≤ p.aw && p.aw ≤ 32

/-- A host operation that can be formed: a buffer address has `AW` bits (30_encoding.md R90, 20_memory.md R60); a register
offset has 8 bits and a value 32, by their types. -/
def Machine.HostOp.wellFormed (p : Params) : Machine.HostOp → Bool
  | .regRead _ => true
  | .regWrite _ _ => true
  | .bufRead addr => addr < p.bufSize
  | .bufWrite addr _ => addr < p.bufSize
  | .reset => true

end Sys2Proof
end

