-- ==== Sys2Proof/Decode.lean ====
section
/-! DEFINITION. The command decoder and encoder (30_encoding.md R91 to R96, 44_system.md R204). Decoding is a total
function of the 32-bit word alone: exactly one of the ten commands, or none (illegal). -/

namespace Sys2Proof

/-- A row of the opcode map: a word `w` selects it when `(w & mask) = value` (30_encoding.md R94; `value` is the
column `match`). `build` makes the command from `ARG = w[7:0]` (R93). -/
structure OpRow where
  value : Word
  mask  : Word
  build : Byte → Instr

/-- The opcode map of 30_encoding.md R94, in its order. -/
def opTable : List OpRow :=
  [ ⟨0x00000000#32, 0xFFFFFFFF#32, fun _ => .nop⟩,
    ⟨0x01000000#32, 0xFFFFFF00#32, fun b => .encb b⟩,
    ⟨0x02000000#32, 0xFFFFFFFF#32, fun _ => .encf⟩,
    ⟨0x03000000#32, 0xFFFFFFFF#32, fun _ => .encblk⟩,
    ⟨0x04000000#32, 0xFFFFFFFF#32, fun _ => .erst⟩,
    ⟨0x10000000#32, 0xFFFFFFFF#32, fun _ => .decb⟩,
    ⟨0x11000000#32, 0xFFFFFFFF#32, fun _ => .decblk⟩,
    ⟨0x12000000#32, 0xFFFFFFFF#32, fun _ => .drst⟩,
    ⟨0x20000000#32, 0xFFFFFFFF#32, fun _ => .zfwd⟩,
    ⟨0x21000000#32, 0xFFFFFFFF#32, fun _ => .zinv⟩ ]

/-- `ARG`, bits 7:0 of a command word (30_encoding.md R92). -/
def argField (w : Word) : Byte := w.extractLsb' 0 8

/-- `ZERO`, bits 23:8 of a command word (30_encoding.md R92). -/
def zeroField (w : Word) : BitVec 16 := w.extractLsb' 8 16

/-- `OPC`, bits 31:24 of a command word (30_encoding.md R92). -/
def opcField (w : Word) : BitVec 8 := w.extractLsb' 24 8

/-- The command a word encodes: the first row it matches, or none, which is an illegal word
(30_encoding.md R95, 44_system.md R204). -/
def decode (w : Word) : Option Instr :=
  (opTable.find? fun r => w &&& r.mask == r.value).map fun r => r.build (argField w)

/-- The word of format `C` with the given `OPC` and `ARG` and `ZERO = 0` (30_encoding.md R92). -/
def commandWord (opc : BitVec 8) (arg : Byte) : Word := opc ++ 0#16 ++ arg

/-- The word that encodes a command, by the opcode column of 30_encoding.md R94 and the listing syntax of R97. -/
def encode : Instr → Word
  | .nop    => commandWord 0x00#8 0#8
  | .encb b => commandWord 0x01#8 b
  | .encf   => commandWord 0x02#8 0#8
  | .encblk => commandWord 0x03#8 0#8
  | .erst   => commandWord 0x04#8 0#8
  | .decb   => commandWord 0x10#8 0#8
  | .decblk => commandWord 0x11#8 0#8
  | .drst   => commandWord 0x12#8 0#8
  | .zfwd   => commandWord 0x20#8 0#8
  | .zinv   => commandWord 0x21#8 0#8

/-- The 32-bit command word made of an instruction's first `nbits` bits, the bits above them 0. Every command is one
32-bit word (30_encoding.md R91, R96). -/
def tableWord (nbits w : Nat) : Word := BitVec.ofNat 32 (w % 2 ^ nbits)

/-- What the decoder reads from an opcode-table word: every command is one 32-bit word, so the bits above `nbits` are 0
and the word goes to the decoder as it is (30_encoding.md R91, R96). -/
def decodeTableWord (nbits w : Nat) : Option Instr := decode (tableWord nbits w)

end Sys2Proof
end

