-- ==== Sys2Proof/Machine/Ops.lean ====
section
/-! DEFINITION. The named operations over `BUF`, the streams and the status register that every command is written in
(00_scope.md R10, R11), and raising a fault (60_exceptions.md R216, R226). -/

namespace Sys2Proof.Machine

/-! ### BUF -/

/-- The byte written at an address since the last reset event, if any (20_memory.md R74). -/
def Memory.read : Memory → Nat → Option Byte
  | [], _ => none
  | (k, b) :: rest, a => if a = k then some b else Memory.read rest a

/-- `MemWrite(addr, 1, b)` (00_scope.md R10), keeping the addresses strictly rising. -/
def Memory.write : Memory → Nat → Byte → Memory
  | [], a, b => [(a, b)]
  | (k, v) :: rest, a, b =>
    if a < k then (a, b) :: (k, v) :: rest
    else if a = k then (a, b) :: rest
    else (k, v) :: Memory.write rest a b

/-- Bytes written one after the other at rising addresses (20_memory.md R63). -/
def Memory.writeList : Memory → Nat → List Byte → Memory
  | m, _, [] => m
  | m, a, b :: bs => Memory.writeList (Memory.write m a b) (a + 1) bs

/-- `MemRead(addr, 1)` (00_scope.md R10): the latest byte written there; a byte nothing has written since the last reset
event is a free value (10_state.md R51, log 5). -/
def State.bufByte (s : State) (a : Nat) : Byte :=
  match s.buf.read a with
  | some b => b
  | none => Config.unwrittenByte s.bufEpoch a

/-- The `n` bytes of `BUF` from address `a` on (20_memory.md R63). -/
def State.bufSlice (s : State) (a : Nat) : Nat → List Byte
  | 0 => []
  | n + 1 => s.bufByte a :: s.bufSlice (a + 1) n

/-! ### Streams -/

/-- `InMore()`: the input stream has a byte at the cursor (20_memory.md R69). -/
def inMore (stream : List Byte) (pos : Nat) : Bool := pos < stream.length

/-- `InByte()`: the byte at the cursor and the cursor after it; none when the stream is exhausted, with nothing taken
(00_scope.md R10, 20_memory.md R69, R71). -/
def inByte (stream : List Byte) (pos : Nat) : Option (Byte × Nat) :=
  match stream[pos]? with
  | some b => some (b, pos + 1)
  | none => none

/-- `OutByte(b)` for each byte in order (20_memory.md R66). -/
def outBytes (out : List OutEvent) (bs : List Byte) : List OutEvent := out ++ bs.map .byte

/-- `OutFlush()` (20_memory.md R66, R68). -/
def outFlush (out : List OutEvent) : List OutEvent := out ++ [.flush]

/-! ### Bytes of a coder register -/

/-- `r[55:48]`, the top byte (00_scope.md R7). -/
def topByte (r : CoderReg) : Byte := r.extractLsb' 48 8

/-- `((r << 8) | b) mod 2^56` (42_range_decoder.md R161, R163). -/
def shiftIn (r : CoderReg) (b : Byte) : CoderReg := (r <<< 8) ||| b.zeroExtend 56

/-- The seven bytes of a register, top byte first (41_range_encoder.md R149). -/
def drainBytes : Nat → CoderReg → List Byte
  | 0, _ => []
  | n + 1, r => topByte r :: drainBytes n (r <<< 8)

/-! ### Status and faults -/

/-- The encoding of a status code (60_exceptions.md R215). -/
def StatusCode.bits : StatusCode → BitVec 4
  | .ok => 0
  | .inval => 1
  | .eos => 2
  | .corrupt => 3
  | .space => 4
  | .io => 5
  | .seq => 6
  | .freq => 7
  | .illcmd => 8

/-- `STATUS.CODE <- c`, bits 31:4 zero (10_state.md R43). -/
def State.setCode (s : State) (c : BitVec 4) : State :=
  { s with regs := { s.regs with status := c.zeroExtend 32 } }

/-- Ending a command with a status code: on success with `ok`, and raising a fault is this and nothing else; no state is
saved and no control is transferred (60_exceptions.md R216, R229). -/
def State.finish (s : State) (c : StatusCode) : State := s.setCode c.bits

/-- A block command's result registers (10_state.md R46). -/
def State.setCounts (s : State) (consumed produced : Word) : State :=
  { s with regs := { s.regs with consumed := consumed, produced := produced } }

/-- A block command refused for its arguments: `CONSUMED <- 0; PRODUCED <- 0; STATUS.CODE <- 1` and nothing else
(60_exceptions.md R217). -/
def State.refuseArgs (s : State) : State := (s.setCounts 0 0).finish .inval

/-- A decode fault sets the decoder's latch (60_exceptions.md R226). -/
def Decoder.latch (d : Decoder) (c : StatusCode) : Decoder := { d with err := true, errcode := c.bits }

/-- A count in a 32-bit result register: the count itself below `2^32`, and a free value from there on (log 6). -/
def countWord (n : Nat) : Word := if n < 2 ^ 32 then BitVec.ofNat 32 n else Config.wideCount n

end Sys2Proof.Machine
end

