-- ==== Sys2Proof/Machine/Flags.lean ====
section
/-! DEFINITION. The flag view the host reads (10_state.md R47). The block has no arithmetic condition codes (R29). -/

namespace Sys2Proof.Machine

/-- `USTAT`, computed from the live flags and the input cursor (10_state.md R47). -/
def State.ustat (s : State) : Word :=
  0#23 ++ BitVec.ofBool (inMore s.params.inStream s.inPos) ++ s.dec.errcode ++ BitVec.ofBool s.dec.err
    ++ BitVec.ofBool s.dec.initialized ++ BitVec.ofBool s.enc.flushed ++ BitVec.ofBool s.enc.written

end Sys2Proof.Machine
end

