-- ==== Sys2Proof/Machine/Operands.lean ====
section
/-! DEFINITION. The implicit operands of the block commands: region checks made before any access, over exact integer
sums (43_zlt.md R181, 44_system.md R207). -/

namespace Sys2Proof.Machine

/-- `SourceCount()`: the number of source bytes to process, or none for `InvalidArg` (43_zlt.md R181). -/
def State.sourceCount (s : State) : Option Nat :=
  if s.params.bufSize < s.regs.srcBase.toNat + s.regs.srcLen.toNat then none
  else if s.regs.srcLen.toNat < s.regs.size.toNat then none
  else some (if s.regs.size.toNat = 0 then s.regs.srcLen.toNat else s.regs.size.toNat)

/-- `DestCheck()` passes (43_zlt.md R181). -/
def State.destFits (s : State) : Bool :=
  s.regs.dstBase.toNat + s.regs.dstLen.toNat ≤ s.params.bufSize

/-- `OverlapCheck()` raises: both regions are non-empty and share an address (43_zlt.md R181, 20_memory.md R81). -/
def State.overlaps (s : State) : Bool :=
  0 < s.regs.srcLen.toNat && 0 < s.regs.dstLen.toNat
    && s.regs.srcBase.toNat < s.regs.dstBase.toNat + s.regs.dstLen.toNat
    && s.regs.dstBase.toNat < s.regs.srcBase.toNat + s.regs.srcLen.toNat

/-- The checks of ZFWD and ZINV in their order (43_zlt.md R186, R190): the source count, or none for `InvalidArg`. -/
def State.zltCount (s : State) : Option Nat :=
  match s.sourceCount with
  | none => none
  | some n => if s.destFits && !s.overlaps then some n else none

end Sys2Proof.Machine
end

