-- ==== Sys2Proof/Machine/FreqModel.lean ====
section
/-! DEFINITION. The adaptive frequency model: `F`, `total`, `cumulativeRange`, `locate`, `update`
(40_frequency_model.md). -/

namespace Sys2Proof.Machine

/-- The counters `lo <= j < hi` of a list whose first index is `i`, each plus one (40_frequency_model.md R126). -/
def bumpFrom (lo hi : Nat) : Nat → List Counter → List Counter
  | _, [] => []
  | i, c :: cs => (if lo ≤ i ∧ i < hi then c + 1#41 else c) :: bumpFrom lo hi (i + 1) cs

theorem bumpFrom_length (lo hi i : Nat) (cs : List Counter) : (bumpFrom lo hi i cs).length = cs.length := by
  induction cs generalizing i with
  | nil => rfl
  | cons c cs ih => simp [bumpFrom, ih]

/-- A counter file with the counters `lo <= j < hi` incremented. -/
def bump {n : Nat} (lo hi : Nat) (v : Vector Counter n) : Vector Counter n :=
  ⟨⟨bumpFrom lo hi 0 v.toArray.toList⟩, by simp [bumpFrom_length]⟩

/-- The value of counter `i` of a file. -/
def counterAt {n : Nat} (v : Vector Counter n) (i : Nat) : Nat := (v.toArray.toList.getD i 0#41).toNat

/-- `F(s) = baseFreq[s >> 4] + deltaFreq[s]` (40_frequency_model.md R121). -/
def FreqModel.F (m : FreqModel) (s : Nat) : Nat := counterAt m.baseFreq (s / 16) + counterAt m.deltaFreq s

/-- `total = F(257)` (40_frequency_model.md R122). -/
def FreqModel.total (m : FreqModel) : Nat := m.F 257

/-- `cumulativeRange(symbol) = (F(symbol), F(symbol + 1))` (40_frequency_model.md R123). -/
def FreqModel.cumulativeRange (m : FreqModel) (sym : Nat) : Nat × Nat := (m.F sym, m.F (sym + 1))

/-- The largest `s` in `[0, n]` with `F(s) <= t`, and 0 when there is none. -/
def FreqModel.locateFrom (m : FreqModel) (t : Nat) : Nat → Nat
  | 0 => 0
  | n + 1 => if m.F (n + 1) ≤ t then n + 1 else m.locateFrom t n

/-- `locate(t)`: the largest `s` in `[0, 256]` with `F(s) <= t` (40_frequency_model.md R124). -/
def FreqModel.locate (m : FreqModel) (t : Nat) : Nat := m.locateFrom t Config.term

/-- `update(bound)` (40_frequency_model.md R126). -/
def FreqModel.update (m : FreqModel) (bound : Nat) : FreqModel :=
  let start := (bound + 15) / 16
  { deltaFreq := bump bound (16 * start) m.deltaFreq
    baseFreq  := bump start 17 m.baseFreq }

end Sys2Proof.Machine
end

