-- ==== Sys2Proof/Machine/Coder.lean ====
section
/-! DEFINITION. The two steps the encoder and the decoder share: narrowing the interval and renormalising it
(41_range_encoder.md R140 to R146). -/

namespace Sys2Proof.Machine

/-- The interval registers of one coder unit. -/
structure Interval where
  low   : CoderReg
  range : CoderReg
  deriving DecidableEq, Repr

/-- `unit = range / tot`, floor division (41_range_encoder.md R141). The callers stop on `tot = 0` (log 8). -/
def unitWidth (m : FreqModel) (range : CoderReg) : Nat := range.toNat / m.total

/-- `Narrow(sym)`: products exact, register writes mod `2^56` (41_range_encoder.md R141, R142). -/
def narrow (m : FreqModel) (iv : Interval) (sym : Nat) : Interval :=
  let unit := unitWidth m iv.range
  { low   := BitVec.ofNat 56 (iv.low.toNat + (m.cumulativeRange sym).1 * unit)
    range := BitVec.ofNat 56 (unit * ((m.cumulativeRange sym).2 - (m.cumulativeRange sym).1)) }

/-- `settled`: `low` and `(low + range) mod 2^56` have the same top byte (41_range_encoder.md R144). -/
def settled (iv : Interval) : Bool := topByte iv.low == topByte (iv.low + iv.range)

/-- The exit test of the renormalisation loop (41_range_encoder.md R145). -/
def renormStops (iv : Interval) : Bool := !settled iv && Config.maxRange ≤ iv.range.toNat

/-- The range an iteration shifts: unchanged when settled (case A), else forced to `(-low) & BOTTOM` (case B)
(41_range_encoder.md R145, 00_scope.md R8). -/
def renormRange (iv : Interval) : CoderReg :=
  if settled iv then iv.range else (-iv.low) &&& Config.bottom

/-- Both registers shifted left by 8, mod `2^56` (41_range_encoder.md R145). -/
def renormShift (iv : Interval) : Interval :=
  { low := iv.low <<< 8, range := renormRange iv <<< 8 }

/-- How a renormalisation ends: at the exit test; at a transfer that found no byte, with the port as it then was; or, where
the loop would not end, never. -/
inductive RenormEnd (σ : Type) where
  | done (iv : Interval) (port : σ)
  | starved (port : σ)
  | diverged

/-- `Renorm(Transfer)` (41_range_encoder.md R145): one transfer of the top byte an iteration, then the shift. The number of
iterations is bounded by fuel (log 7). -/
def renorm {σ : Type} (transfer : Byte → σ → Option σ) : Nat → Interval → σ → RenormEnd σ
  | 0, _, _ => .diverged
  | fuel + 1, iv, port =>
    if renormStops iv then .done iv port
    else
      match transfer (topByte iv.low) port with
      | none => .starved port
      | some port' => renorm transfer fuel (renormShift iv) port'

end Sys2Proof.Machine
end

