-- ==== Sys2Proof/Machine/DecoderUnit.lean ====
section
/-! DEFINITION. The decoder's commands: DECB, DECBLK, DRST (42_range_decoder.md R160 to R167). -/

namespace Sys2Proof.Machine

/-- The decoder's side of a transfer: the code window and the input cursor. -/
structure InPort where
  code : CoderReg
  pos  : Nat
  deriving DecidableEq, Repr

/-- The decoder's `Transfer(b)`: the byte shifted out of `low` is ignored, an input byte enters `code`; none when the input
is exhausted (42_range_decoder.md R163). -/
def transferIn (stream : List Byte) (_ : Byte) (p : InPort) : Option InPort :=
  match inByte stream p.pos with
  | some (x, pos) => some ⟨shiftIn p.code x, pos⟩
  | none => none

/-- `k` bytes of the prefix shifted into `c`; the code is none when the input ends first, and the cursor keeps every
byte taken (42_range_decoder.md R161, 20_memory.md R70, R71). -/
def loadPrefix (stream : List Byte) : Nat → CoderReg → Nat → Option CoderReg × Nat
  | 0, c, pos => (some c, pos)
  | k + 1, c, pos =>
    match inByte stream pos with
    | some (x, pos') => loadPrefix stream k (shiftIn c x) pos'
    | none => (none, pos)

/-- `InitCode`: the code window to decode with, loaded on first use (42_range_decoder.md R161). -/
def initCode (stream : List Byte) (d : Decoder) (pos : Nat) : Option CoderReg × Nat :=
  if d.initialized then (some d.code, pos) else loadPrefix stream 7 0#56 pos

/-- `count = ((code - low) mod 2^56) / unit` (42_range_decoder.md R162). The caller stops on `unit = 0` (log 8). -/
def searchCount (code low : CoderReg) (unit : Nat) : Nat := (code - low).toNat / unit

/-- How decoding one symbol ends: a byte, with the unit and the cursor after it; a fault of the spec, with the cursor where
it was left; or a stop of the model. -/
inductive DecodeEnd where
  | byte (d : Decoder) (pos : Nat) (b : Byte)
  | raised (c : StatusCode) (pos : Nat)
  | crashed (f : Fault)

/-- The body of DECB from its `FreqLimit` check on, without its `RESULT`, `STATUS` and latch writes
(42_range_decoder.md R160, R165). A fault discards every register write, so only the cursor is answered. The decoder's
loop cannot outlast the input, so its fuel is never used up (log 7). -/
def decodeSymbol (stream : List Byte) (d : Decoder) (pos : Nat) : DecodeEnd :=
  if Config.maxRange ≤ d.freq.total then .raised .freq pos
  else
    match initCode stream d pos with
    | (none, pos₁) => .raised .io pos₁
    | (some code, pos₁) =>
      if d.freq.total = 0 ∨ unitWidth d.freq d.range = 0 then .crashed .zeroDivisor
      else
        let sym := d.freq.locate (searchCount code d.low (unitWidth d.freq d.range))
        if sym = Config.term then .raised (if inMore stream pos₁ then .corrupt else .eos) pos₁
        else
          match renorm (transferIn stream) (Config.renormFuel + stream.length)
              (narrow d.freq ⟨d.low, d.range⟩ sym) ⟨code, pos₁⟩ with
          | .done iv port =>
            .byte { d with low := iv.low, range := iv.range, code := port.code, initialized := true,
                           freq := d.freq.update (sym + 1) } port.pos (BitVec.ofNat 8 sym)
          | .starved port => .raised .io port.pos
          | .diverged => .crashed .renormDiverges

/-- DECB (42_range_decoder.md R165, 60_exceptions.md R226). -/
def execDecb (s : State) : Host.Outcome State Fault Refusal :=
  if s.dec.err then .next (s.setCode s.dec.errcode)
  else
    match decodeSymbol s.params.inStream s.dec s.inPos with
    | .byte d pos b =>
      .next ({ s with dec := d, inPos := pos, regs := { s.regs with result := b.zeroExtend 32 } }.finish .ok)
    | .raised c pos => .next ({ s with dec := s.dec.latch c, inPos := pos }.finish c)
    | .crashed f => .fault f

/-- How a run of DECB bodies ends: the unit (latched after a fault), the cursor, the bytes decoded in order, and the code or
the stop it ended with. -/
structure DecodeRun where
  dec   : Decoder
  pos   : Nat
  bytes : List Byte
  code  : Except Fault StatusCode

/-- DECB's body `n` times, stopping at the first fault, which is latched (42_range_decoder.md R166). -/
def decodeRun (stream : List Byte) : Nat → Decoder → Nat → DecodeRun
  | 0, d, pos => ⟨d, pos, [], .ok .ok⟩
  | n + 1, d, pos =>
    match decodeSymbol stream d pos with
    | .byte d' pos' b =>
      let r := decodeRun stream n d' pos'
      { r with bytes := b :: r.bytes }
    | .raised c pos' => ⟨d.latch c, pos', [], .ok c⟩
    | .crashed f => ⟨d, pos, [], .error f⟩

/-- DECBLK (42_range_decoder.md R166). The bytes are stored together: the decoder reads no `BUF` byte (log 12). -/
def execDecblk (s : State) : Host.Outcome State Fault Refusal :=
  if s.dec.err then .next ((s.setCounts 0 0).setCode s.dec.errcode)
  else if s.destFits then
    let r := decodeRun s.params.inStream s.regs.dstLen.toNat s.dec s.inPos
    match r.code with
    | .error f => .fault f
    | .ok c =>
      .next (({ s with dec := r.dec, inPos := r.pos, buf := s.buf.writeList s.regs.dstBase.toNat r.bytes }.setCounts
        (BitVec.ofNat 32 (r.pos - s.inPos)) (BitVec.ofNat 32 r.bytes.length)).finish c)
  else .next s.refuseArgs

/-- DRST (42_range_decoder.md R167). -/
def execDrst (s : State) : Host.Outcome State Fault Refusal :=
  .next ({ s with dec := Decoder.initial }.finish .ok)

end Sys2Proof.Machine
end

