-- ==== Sys2Proof/Machine/EncoderUnit.lean ====
section
/-! DEFINITION. The encoder's commands: ENCB, ENCF, ENCBLK, ERST (41_range_encoder.md R148 to R151). -/

namespace Sys2Proof.Machine

/-- How coding one byte ends: coded, with the unit after it and the bytes it appends to the output; a fault of the spec; or
a stop of the model. -/
inductive EncodeEnd where
  | coded (e : Encoder) (out : List Byte)
  | raised (c : StatusCode)
  | crashed (f : Fault)

/-- The encoder's `Transfer(b) = OutByte(b)`, which cannot fail (41_range_encoder.md R145, 20_memory.md R67). -/
def emit (b : Byte) (out : List Byte) : Option (List Byte) := some (out ++ [b])

/-- The body of ENCB without its `STATUS` write (41_range_encoder.md R148). -/
def encodeByte (b : Byte) (e : Encoder) : EncodeEnd :=
  if e.flushed then .raised .seq
  else if Config.maxRange ≤ e.freq.total then .raised .freq
  else if e.freq.total = 0 then .crashed .zeroDivisor
  else
    match renorm emit Config.renormFuel (narrow e.freq ⟨e.low, e.range⟩ b.toNat) [] with
    | .done iv out =>
      .coded { low := iv.low, range := iv.range, written := true, flushed := e.flushed,
               freq := e.freq.update (b.toNat + 1) } out
    | .starved _ => .crashed .renormDiverges
    | .diverged => .crashed .renormDiverges

/-- ENCB `b` (41_range_encoder.md R148). -/
def execEncb (b : Byte) (s : State) : Host.Outcome State Fault Refusal :=
  match encodeByte b s.enc with
  | .coded e out => .next ({ s with enc := e, outStream := outBytes s.outStream out }.finish .ok)
  | .raised c => .next (s.finish c)
  | .crashed f => .fault f

/-- ENCF (41_range_encoder.md R149): drains the seven bytes of `low` and flushes, once, and only when a byte was encoded. -/
def execEncf (s : State) : Host.Outcome State Fault Refusal :=
  if s.enc.written && !s.enc.flushed then
    .next ({ s with enc := { s.enc with flushed := true, low := 0#56 },
                    outStream := outFlush (outBytes s.outStream (drainBytes 7 s.enc.low)) }.finish .ok)
  else .next (s.finish .ok)

/-- How a run of ENCB bodies ends: the unit after the last good byte, all bytes appended, how many bytes were encoded, and
the code or the stop it ended with. -/
structure EncodeRun where
  enc   : Encoder
  out   : List Byte
  count : Nat
  code  : Except Fault StatusCode

/-- ENCB's body over a list of bytes, stopping at the first fault (41_range_encoder.md R150). -/
def encodeRun : List Byte → Encoder → EncodeRun
  | [], e => ⟨e, [], 0, .ok .ok⟩
  | b :: bs, e =>
    match encodeByte b e with
    | .coded e' out =>
      let r := encodeRun bs e'
      { r with out := out ++ r.out, count := r.count + 1 }
    | .raised c => ⟨e, [], 0, .ok c⟩
    | .crashed f => ⟨e, [], 0, .error f⟩

/-- ENCBLK (41_range_encoder.md R150). The source bytes are read first: the encoder writes no `BUF` byte (log 12). -/
def execEncblk (s : State) : Host.Outcome State Fault Refusal :=
  match s.sourceCount with
  | none => .next s.refuseArgs
  | some n =>
    let r := encodeRun (s.bufSlice s.regs.srcBase.toNat n) s.enc
    match r.code with
    | .error f => .fault f
    | .ok c =>
      .next (({ s with enc := r.enc, outStream := outBytes s.outStream r.out }.setCounts
        (countWord r.count) (countWord r.out.length)).finish c)

/-- ERST (41_range_encoder.md R151). -/
def execErst (s : State) : Host.Outcome State Fault Refusal :=
  .next ({ s with enc := Encoder.initial }.finish .ok)

end Sys2Proof.Machine
end

