-- ==== Sys2Proof/Machine/System.lean ====
section
/-! DEFINITION. NOP (44_system.md R200) and the register file the host reads and writes (10_state.md R40 to R48,
44_system.md R201, R202). -/

namespace Sys2Proof.Machine

/-- NOP (44_system.md R200). -/
def execNop (s : State) : Host.Outcome State Fault Refusal := .next (s.finish .ok)

/-- The value `RegRead(off)` returns (44_system.md R201, 10_state.md R40 to R48); a reserved or unaligned offset gives 0. -/
def State.regValue (s : State) (off : BitVec 8) : Word :=
  if off = 0x00#8 then Config.identity
  else if off = 0x04#8 then 0#32
  else if off = 0x08#8 then s.regs.status &&& 0xF#32
  else if off = 0x0C#8 then s.regs.result &&& 0xFF#32
  else if off = 0x10#8 then s.regs.srcBase
  else if off = 0x14#8 then s.regs.srcLen
  else if off = 0x18#8 then s.regs.dstBase
  else if off = 0x1C#8 then s.regs.dstLen
  else if off = 0x20#8 then s.regs.size
  else if off = 0x24#8 then s.regs.consumed
  else if off = 0x28#8 then s.regs.produced
  else if off = 0x2C#8 then s.ustat
  else 0#32

/-- `RegWrite(off, v)` at every offset but `CMD`: the five configuration registers store all 32 bits, every other write is
ignored (44_system.md R202, 10_state.md R45, R48). -/
def State.storeReg (s : State) (off : BitVec 8) (v : Word) : State :=
  if off = 0x10#8 then { s with regs := { s.regs with srcBase := v } }
  else if off = 0x14#8 then { s with regs := { s.regs with srcLen := v } }
  else if off = 0x18#8 then { s with regs := { s.regs with dstBase := v } }
  else if off = 0x1C#8 then { s with regs := { s.regs with dstLen := v } }
  else if off = 0x20#8 then { s with regs := { s.regs with size := v } }
  else s

end Sys2Proof.Machine
end

