-- ==== Sys2Proof/Machine/Zlt.lean ====
section
/-! DEFINITION. The zero-length transform: ZFWD and ZINV (43_zlt.md R180 to R193, 30_encoding.md R102, R103). -/

namespace Sys2Proof.Machine

/-- The destination bytes of one unit: listed, or a run of zero bytes whose length is known before it is written. -/
inductive ZltOut where
  | bytes (l : List Byte)
  | zeros (n : Nat)
  deriving DecidableEq, Repr

/-- How many destination bytes a unit produces (43_zlt.md R182). -/
def ZltOut.size : ZltOut → Nat
  | .bytes l => l.length
  | .zeros n => n

/-- The destination bytes of a unit, in order. -/
def ZltOut.toList : ZltOut → List Byte
  | .bytes l => l
  | .zeros n => List.replicate n 0#8

/-- A unit at the head of the source: how many source bytes it is made of and what it produces (43_zlt.md R182). -/
structure ZltUnit where
  taken : Nat
  out   : ZltOut
  deriving DecidableEq, Repr

/-- How many zero bytes a list starts with, at most `cap` (43_zlt.md R184). -/
def leadingZeros : List Byte → Nat → Nat
  | [], _ => 0
  | _ :: _, 0 => 0
  | b :: bs, cap + 1 => if b = 0#8 then leadingZeros bs cap + 1 else 0

/-- The code of a run: the bits of `rl` below its leading 1, most significant first, a byte each
(43_zlt.md R184, 30_encoding.md R103). -/
def runCode (rl : Nat) : List Byte :=
  (List.range rl.log2).map fun i => BitVec.ofNat 8 ((rl >>> (rl.log2 - 1 - i)) % 2)

/-- The forward unit at the head of the source: a run (43_zlt.md R184), an escaped literal or a plain literal (R185). -/
def forwardUnit : List Byte → Option ZltUnit
  | [] => none
  | v :: rest =>
    if v = 0#8 then
      let k := leadingZeros (v :: rest) (Config.zltMaxRun - 1)
      some ⟨k, .bytes (runCode (k + 1))⟩
    else if 0xFE ≤ v.toNat then some ⟨1, .bytes [0xFF#8, v - 0xFE#8]⟩
    else some ⟨1, .bytes [v + 1#8]⟩

/-- The scan of an inverse run code: `rl`, `k` and `ovf` at its end (43_zlt.md R187). -/
def scanRun : List Byte → Nat → Nat → Bool → Nat × Nat × Bool
  | [], rl, k, ovf => (rl, k, ovf)
  | v :: rest, rl, k, ovf =>
    if v.toNat ≤ 1 then
      if 2 ^ 30 ≤ rl then scanRun rest rl (k + 1) true
      else scanRun rest (2 * rl + v.toNat) (k + 1) ovf
    else (rl, k, ovf)

/-- The inverse unit at the head of the source: a run code (43_zlt.md R187), an escape pair (R189) or a plain literal
(R188); none for a unit that can be placed in no destination (a run code that overflows, an escape with no operand). -/
def inverseUnit : List Byte → Option ZltUnit
  | [] => none
  | v :: rest =>
    if v.toNat ≤ 1 then
      match scanRun (v :: rest) 1 0 false with
      | (rl, k, ovf) => if ovf then none else some ⟨k, .zeros (rl - 1)⟩
    else if v = 0xFF#8 then
      match rest with
      | [] => none
      | w :: _ => some ⟨2, .bytes [0xFE#8 + w]⟩
    else some ⟨1, .bytes [v - 1#8]⟩

/-- How a transform ends: source bytes consumed, destination bytes written, and whether every unit was placed. -/
structure ZltRun where
  taken  : Nat
  out    : List Byte
  placed : Bool
  deriving DecidableEq, Repr

/-- The loop of ZFWD and ZINV: units placed one after the other while they fit in the room left, each whole or not at all
(43_zlt.md R182, R186, R190). Every unit takes a source byte, so as much fuel as there are source bytes is enough. -/
def zltRun (unit : List Byte → Option ZltUnit) : Nat → List Byte → Nat → ZltRun
  | _, [], _ => ⟨0, [], true⟩
  | 0, _ :: _, _ => ⟨0, [], false⟩
  | fuel + 1, v :: rest, room =>
    match unit (v :: rest) with
    | none => ⟨0, [], false⟩
    | some u =>
      if u.out.size ≤ room then
        let r := zltRun unit fuel ((v :: rest).drop u.taken) (room - u.out.size)
        ⟨u.taken + r.taken, u.out.toList ++ r.out, r.placed⟩
      else ⟨0, [], false⟩

/-- The command around the loop. The source bytes are read first: the destination shares no address with them
(43_zlt.md R181, log 12). -/
def zltCommand (unit : List Byte → Option ZltUnit) (s : State) : State :=
  match s.zltCount with
  | none => s.refuseArgs
  | some n =>
    let r := zltRun unit n (s.bufSlice s.regs.srcBase.toNat n) s.regs.dstLen.toNat
    ({ s with buf := s.buf.writeList s.regs.dstBase.toNat r.out }.setCounts
      (BitVec.ofNat 32 r.taken) (BitVec.ofNat 32 r.out.length)).finish (if r.placed then .ok else .space)

/-- ZFWD (43_zlt.md R186). -/
def execZfwd (s : State) : Host.Outcome State Fault Refusal := .next (zltCommand forwardUnit s)

/-- ZINV (43_zlt.md R190). -/
def execZinv (s : State) : Host.Outcome State Fault Refusal := .next (zltCommand inverseUnit s)

end Sys2Proof.Machine
end

