-- ==== Sys2Proof/Machine/Dispatch.lean ====
section
/-! DEFINITION. The dispatch of a command to its meaning (44_system.md R204). -/

namespace Sys2Proof.Machine

def exec (i : Instr) (s : State) : Host.Outcome State Fault Refusal :=
  match i with
  | .nop => Sys2Proof.Machine.execNop s
  | .encb b => Sys2Proof.Machine.execEncb b s
  | .encf => Sys2Proof.Machine.execEncf s
  | .encblk => Sys2Proof.Machine.execEncblk s
  | .erst => Sys2Proof.Machine.execErst s
  | .decb => Sys2Proof.Machine.execDecb s
  | .decblk => Sys2Proof.Machine.execDecblk s
  | .drst => Sys2Proof.Machine.execDrst s
  | .zfwd => Sys2Proof.Machine.execZfwd s
  | .zinv => Sys2Proof.Machine.execZinv s

end Sys2Proof.Machine
end

