-- ==== Sys2Proof/Machine/HostPort.lean ====
section
/-! DEFINITION. The host operations (30_encoding.md R90, 44_system.md R201 to R204, 70_reset_and_hazards.md R245). -/

namespace Sys2Proof.Machine

/-- A read of the host returns a value: it is appended to the replies (70_reset_and_hazards.md R260, log 3). -/
def State.reply (s : State) (r : Reply) : State := { s with replies := s.replies ++ [r] }

/-- `Dispatch(w)`: the command the word encodes, or `IllegalCommand`, which writes the status code and nothing else
(44_system.md R204, 60_exceptions.md R224). -/
def dispatch (w : Word) (s : State) : Host.Outcome State Fault Refusal :=
  match decode w with
  | some i => exec i s
  | none => .next (s.finish .illcmd)

/-- `Reset` (70_reset_and_hazards.md R245): every piece of state at its reset value; `BUF` holds no defined value, so its
free contents are new ones. The parameters of the run, the operations still to come and the values already returned are
not the block's state and stay (log 13). -/
def State.resetEvent (s : State) : State :=
  { State.reset with params := s.params, bufEpoch := s.bufEpoch + 1, hostOps := s.hostOps, replies := s.replies }

/-- `BufRead(addr)` (44_system.md R203). -/
def bufReadOp (addr : Nat) (s : State) : Host.Outcome State Fault Refusal :=
  if addr < s.params.bufSize then .next (s.reply (.byte (s.bufByte addr))) else .fault .bufAddress

/-- `BufWrite(addr, b)` (44_system.md R203). -/
def bufWriteOp (addr : Nat) (b : Byte) (s : State) : Host.Outcome State Fault Refusal :=
  if addr < s.params.bufSize then .next { s with buf := s.buf.write addr b } else .fault .bufAddress

/-- `RegWrite(off, v)`: a write to `CMD` runs the command (44_system.md R202). -/
def regWriteOp (off : BitVec 8) (v : Word) (s : State) : Host.Outcome State Fault Refusal :=
  if off = 0x04#8 then dispatch v s else .next (s.storeReg off v)

/-- One operation of the host (30_encoding.md R90). -/
def perform (op : HostOp) (s : State) : Host.Outcome State Fault Refusal :=
  match op with
  | .regRead off => .next (s.reply (.reg (s.regValue off)))
  | .regWrite off v => regWriteOp off v s
  | .bufRead addr => bufReadOp addr s
  | .bufWrite addr b => bufWriteOp addr b s
  | .reset => .next s.resetEvent

/-- The next host operation, taken off the pending list and performed; with none pending the block waits
(70_reset_and_hazards.md R247, log 4). -/
def serveHost (s : State) : Host.Outcome State Fault Refusal :=
  match s.hostOps with
  | [] => .next s
  | op :: rest => perform op { s with hostOps := rest }

/-- The state with one more command word as its next host operation: `RegWrite(0x04, w)` (10_state.md R42). -/
def State.placeCommand (s : State) (w : Word) : State :=
  { s with hostOps := .regWrite 0x04#8 w :: s.hostOps }

end Sys2Proof.Machine
end

