-- ==== Sys2Proof/Machine/Step.lean ====
section
/-! DEFINITION. One step of the machine: one host operation (00_scope.md R12, R14). -/

namespace Sys2Proof.Machine

/-- One step: the next host operation to completion (00_scope.md R12, R14). -/
def step (s : State) : Host.Outcome State Fault Refusal := serveHost s

/-- The state whose very next step runs the command of an opcode-table word: the block fetches nothing (10_state.md R30),
so the word stands at the head of the host's pending operations, as a write to `CMD` (log 3). -/
def State.withFetchWord (s : State) (nbits w : Nat) : State := s.placeCommand (tableWord nbits w)

end Sys2Proof.Machine
end

