-- ==== Sys2Proof/Machine/Run.lean ====
section
/-! DEFINITION. Runs: a finite sequence of host operations from a start state, its result, and when it is clean
(70_reset_and_hazards.md R260). -/

namespace Sys2Proof.Machine

/-- A host operation that runs a command: a write to `CMD` (10_state.md R42). DEDUCED: a write of an illegal word counts, since
it ends with a status code like any command (60_exceptions.md R215, R224), log 17. -/
def HostOp.isCommand : HostOp → Bool
  | .regRead _ => false
  | .regWrite off _ => off == 0x04#8
  | .bufRead _ => false
  | .bufWrite _ _ => false
  | .reset => false

/-- A host operation that returns a value (44_system.md R201, R203). -/
def HostOp.isRead : HostOp → Bool
  | .regRead _ => true
  | .regWrite _ _ => false
  | .bufRead _ => true
  | .bufWrite _ _ => false
  | .reset => false

/-- The status is `OK` (60_exceptions.md R215). -/
def State.statusOk (s : State) : Bool := s.regs.status == 0#32

/-- An operation that has returned leaves a run clean: it ran no command, or one that ended with status 0
(70_reset_and_hazards.md R260). -/
def keepsClean (op : HostOp) (t : State) : Bool := !op.isCommand || t.statusOk

/-- The result of a run (70_reset_and_hazards.md R260): the final state, the values the host's reads returned, oldest first,
and whether the run is clean. -/
structure RunResult where
  final  : State
  values : List Reply
  clean  : Bool
  deriving DecidableEq, Repr

/-- The host issues one operation and waits until it has returned (70_reset_and_hazards.md R253). -/
def issue (op : HostOp) (s : State) : Host.Outcome State Fault Refusal := step { s with hostOps := [op] }

/-- Operations issued one after the other: the state after the last one, and whether no command so far ended with a nonzero
status. -/
def runOps : List HostOp → State → Bool → Host.Outcome (State × Bool) Fault Refusal
  | [], s, clean => .next (s, clean)
  | op :: rest, s, clean =>
    match issue op s with
    | .next t => runOps rest t (clean && keepsClean op t)
    | .fault f => .fault f
    | .refused r => .refused r

/-- A run of the block (70_reset_and_hazards.md R260): the operations `ops` from the start state `s`, with nothing else
pending. -/
def runFrom (s : State) (ops : List HostOp) : Host.Outcome RunResult Fault Refusal :=
  match runOps ops { s with hostOps := [] } true with
  | .next (t, clean) => .next ⟨t, t.replies.drop s.replies.length, clean⟩
  | .fault f => .fault f
  | .refused r => .refused r

end Sys2Proof.Machine
end

