-- ==== Sys2Proof/Safety.lean ====
section
/-! DEFINITION. The terms claims are stated in: the invariants of a reachable state, and the spec's own account of coding a
symbol, of the decoder's faults and of the ZLT units, written as relations over exact integers and byte lists,
independently of the functions the machine runs. -/

namespace Sys2Proof.Machine

/-! ### Invariants -/

/-- The representation invariant of a frequency model and its bound (10_state.md R33, R35; 40_frequency_model.md R129). -/
structure FreqModel.Inv (m : FreqModel) : Prop where
  increasing : ∀ s, s ≤ 256 → m.F s < m.F (s + 1)
  blockStart : ∀ k, k ≤ 16 → counterAt m.deltaFreq (16 * k) = 0
  lastDelta  : counterAt m.deltaFreq 257 = 1
  firstBase  : counterAt m.baseFreq 0 = 0
  bounded    : m.total ≤ 2 ^ 40

/-- The invariants of a unit's interval between commands (10_state.md R26). -/
structure Interval.Inv (iv : Interval) : Prop where
  wide : 2 ^ 40 ≤ iv.range.toNat
  fits : iv.low.toNat + iv.range.toNat ≤ 2 ^ 56
  edge : iv.low.toNat + iv.range.toNat = 2 ^ 56 → 2 ^ 56 - 2 ^ 48 ≤ iv.low.toNat

/-- The encoder between commands (10_state.md R26, R27). -/
structure Encoder.Inv (e : Encoder) : Prop where
  interval : Interval.Inv ⟨e.low, e.range⟩
  freq     : e.freq.Inv
  flags    : e.flushed = true → e.written = true

/-- The decoder between commands (10_state.md R26, R28; 60_exceptions.md R226). -/
structure Decoder.Inv (d : Decoder) : Prop where
  interval : Interval.Inv ⟨d.low, d.range⟩
  freq     : d.freq.Inv
  noFault  : d.err = false → d.errcode = 0#4
  latched  : d.err = true → d.errcode ∈ [2#4, 3#4, 5#4, 7#4]

/-- A state between host operations: the units, the fields of `STATUS` and `RESULT` that read 0, the canonical form of
`BUF`, the stream cursor and the parameters (10_state.md R26, R43, R44, R50, R51; 60_exceptions.md R215; 00_scope.md
R5). -/
structure State.Inv (s : State) : Prop where
  enc    : s.enc.Inv
  dec    : s.dec.Inv
  status : s.regs.status.toNat ≤ 8
  result : s.regs.result.toNat < 256
  bufWf  : s.buf.wf
  bufIn  : ∀ c ∈ s.buf, c.1 < s.params.bufSize
  cursor : s.inPos ≤ s.params.inStream.length
  params : s.params.wellFormed = true

/-! ### Coding one symbol -/

/-- The top byte of `low` and of `(low + range) mod 2^56` agree (41_range_encoder.md R144). -/
def Settled (low range : Nat) : Prop := low / 2 ^ 48 = (low + range) % 2 ^ 56 / 2 ^ 48

/-- The renormalisation loop of 41_range_encoder.md R145 over integers: from `low` and `range`, the bytes it transfers in
order, and the registers at its exit. `(-low) & BOTTOM` is `(2^40 - low mod 2^40) mod 2^40` (00_scope.md R8). -/
inductive RenormRun : Nat → Nat → List Byte → Nat → Nat → Prop where
  | stop {low range : Nat} : ¬ Settled low range → 2 ^ 40 ≤ range → RenormRun low range [] low range
  | caseA {low range : Nat} {out : List Byte} {low' range' : Nat} : Settled low range →
      RenormRun (low * 256 % 2 ^ 56) (range * 256 % 2 ^ 56) out low' range' →
      RenormRun low range (BitVec.ofNat 8 (low / 2 ^ 48) :: out) low' range'
  | caseB {low range : Nat} {out : List Byte} {low' range' : Nat} : ¬ Settled low range → range < 2 ^ 40 →
      RenormRun (low * 256 % 2 ^ 56) ((2 ^ 40 - low % 2 ^ 40) % 2 ^ 40 * 256 % 2 ^ 56) out low' range' →
      RenormRun low range (BitVec.ofNat 8 (low / 2 ^ 48) :: out) low' range'

/-- Coding symbol `sym`: narrow (41_range_encoder.md R141), then renormalise (R145), with the model as it is before its
update. -/
def CodesSymbol (m : FreqModel) (low range sym : Nat) (out : List Byte) (low' range' : Nat) : Prop :=
  RenormRun (low + m.F sym * (range / m.total)) (range / m.total * (m.F (sym + 1) - m.F sym)) out low' range'

/-- The encoder coding byte `b` appends `out` and becomes `e'` (41_range_encoder.md R148). -/
def EncodesByte (e : Encoder) (b : Byte) (out : List Byte) (e' : Encoder) : Prop :=
  e.flushed = false ∧ e.freq.total < 2 ^ 40 ∧
  ∃ low' range' : CoderReg,
    CodesSymbol e.freq e.low.toNat e.range.toNat b.toNat out low'.toNat range'.toNat ∧
    e' = { low := low', range := range', written := true, flushed := false, freq := e.freq.update (b.toNat + 1) }

/-- The encoder coding bytes one after the other appends `out` and becomes `e'` (41_range_encoder.md R150). -/
inductive EncodesAll : Encoder → List Byte → List Byte → Encoder → Prop where
  | nil {e : Encoder} : EncodesAll e [] [] e
  | cons {e e₁ e₂ : Encoder} {b : Byte} {bs out outs : List Byte} :
      EncodesByte e b out e₁ → EncodesAll e₁ bs outs e₂ → EncodesAll e (b :: bs) (out ++ outs) e₂

/-! ### Decoding one symbol -/

/-- Bytes read as one number, the first the most significant (20_memory.md R63, R70). -/
def bytesValue (bs : List Byte) : Nat := bs.foldl (fun acc b => acc * 256 + b.toNat) 0

/-- The code window a decode step works with and the cursor after the prefix load, if the step makes one
(42_range_decoder.md R161). -/
def PrefixLoaded (stream : List Byte) (d : Decoder) (pos : Nat) (code pos' : Nat) : Prop :=
  if d.initialized then code = d.code.toNat ∧ pos' = pos
  else pos + 7 ≤ stream.length ∧ code = bytesValue ((stream.drop pos).take 7) ∧ pos' = pos + 7

/-- `count = ((code - low) mod 2^56) / unit` (42_range_decoder.md R162). -/
def decodeCount (d : Decoder) (code : Nat) : Nat :=
  (code + 2 ^ 56 - d.low.toNat) % 2 ^ 56 / (d.range.toNat / d.freq.total)

/-- The decoder finds the byte `b` and becomes `d'` with the cursor at `pos'` (42_range_decoder.md R160 to R163, R165). -/
def DecodesByte (stream : List Byte) (d : Decoder) (pos : Nat) (b : Byte) (d' : Decoder) (pos' : Nat) : Prop :=
  d.freq.total < 2 ^ 40 ∧
  ∃ code pos₁ : Nat, PrefixLoaded stream d pos code pos₁ ∧
  d.freq.F b.toNat ≤ decodeCount d code ∧ decodeCount d code < d.freq.F (b.toNat + 1) ∧
  ∃ (out : List Byte) (low' range' : CoderReg),
    CodesSymbol d.freq d.low.toNat d.range.toNat b.toNat out low'.toNat range'.toNat ∧
    pos₁ + out.length ≤ stream.length ∧
    pos' = pos₁ + out.length ∧
    d' = { d with
      low := low'
      range := range'
      code := BitVec.ofNat 56 (code * 256 ^ out.length + bytesValue ((stream.drop pos₁).take out.length))
      initialized := true
      freq := d.freq.update (b.toNat + 1) }

/-- The decoder finds bytes one after the other (42_range_decoder.md R166). -/
inductive DecodesAll (stream : List Byte) : Decoder → Nat → List Byte → Decoder → Nat → Prop where
  | nil {d : Decoder} {pos : Nat} : DecodesAll stream d pos [] d pos
  | cons {d d₁ d₂ : Decoder} {pos pos₁ pos₂ : Nat} {b : Byte} {bs : List Byte} :
      DecodesByte stream d pos b d₁ pos₁ → DecodesAll stream d₁ pos₁ bs d₂ pos₂ →
      DecodesAll stream d pos (b :: bs) d₂ pos₂

/-- A decode step raises a fault and leaves the cursor at `pos'`, in the order of checks of 60_exceptions.md R227. -/
inductive DecodeFaults (stream : List Byte) (d : Decoder) (pos : Nat) : StatusCode → Nat → Prop where
  /-- `FreqLimit` (60_exceptions.md R223). -/
  | freq : 2 ^ 40 ≤ d.freq.total → DecodeFaults stream d pos .freq pos
  /-- `StreamRead` in the prefix load: every byte that was there is taken (R221). -/
  | prefixShort : d.freq.total < 2 ^ 40 → d.initialized = false → stream.length < pos + 7 →
      DecodeFaults stream d pos .io stream.length
  /-- `EndOfStream`: the terminal symbol, and no more input (R219). -/
  | endOfStream {code pos₁ : Nat} : d.freq.total < 2 ^ 40 → PrefixLoaded stream d pos code pos₁ →
      d.freq.total - 1 ≤ decodeCount d code → stream.length ≤ pos₁ → DecodeFaults stream d pos .eos pos₁
  /-- `CorruptStream`: the terminal symbol, with more input (R220). -/
  | corrupt {code pos₁ : Nat} : d.freq.total < 2 ^ 40 → PrefixLoaded stream d pos code pos₁ →
      d.freq.total - 1 ≤ decodeCount d code → pos₁ < stream.length → DecodeFaults stream d pos .corrupt pos₁
  /-- `StreamRead` in the renormalisation: every byte that was there is taken (R221). -/
  | transferShort {code pos₁ sym : Nat} {out : List Byte} {low' range' : Nat} : d.freq.total < 2 ^ 40 →
      PrefixLoaded stream d pos code pos₁ → sym < 256 → d.freq.F sym ≤ decodeCount d code →
      decodeCount d code < d.freq.F (sym + 1) → CodesSymbol d.freq d.low.toNat d.range.toNat sym out low' range' →
      stream.length < pos₁ + out.length → DecodeFaults stream d pos .io stream.length

/-! ### Regions of BUF -/

/-- The source region is usable and `n` bytes of it are processed (43_zlt.md R181). -/
def SourceRegion (s : State) (n : Nat) : Prop :=
  s.regs.srcBase.toNat + s.regs.srcLen.toNat ≤ 2 ^ s.params.aw ∧ s.regs.size.toNat ≤ s.regs.srcLen.toNat ∧
  n = if s.regs.size.toNat = 0 then s.regs.srcLen.toNat else s.regs.size.toNat

/-- The destination region is inside `BUF` (43_zlt.md R181). -/
def DestRegion (s : State) : Prop := s.regs.dstBase.toNat + s.regs.dstLen.toNat ≤ 2 ^ s.params.aw

/-- Both regions are non-empty and share an address (20_memory.md R81). -/
def Overlap (s : State) : Prop :=
  ∃ a, (s.regs.srcBase.toNat ≤ a ∧ a < s.regs.srcBase.toNat + s.regs.srcLen.toNat) ∧
    (s.regs.dstBase.toNat ≤ a ∧ a < s.regs.dstBase.toNat + s.regs.dstLen.toNat)

/-- `BUF` after `bytes` were stored from `base` on: those bytes there, every other address as before. -/
def Stored (before after : Memory) (base : Nat) (bytes : List Byte) : Prop :=
  (∀ i, (h : i < bytes.length) → after.read (base + i) = some bytes[i]) ∧
  ∀ a, a < base ∨ base + bytes.length ≤ a → after.read a = before.read a

/-! ### ZLT units -/

/-- `code` is the run code of `rl`: one byte for each bit of `rl` below its leading 1, most significant first
(43_zlt.md R184, 30_encoding.md R103). -/
def RunCode (rl : Nat) (code : List Byte) : Prop :=
  2 ^ code.length ≤ rl ∧ rl < 2 ^ (code.length + 1) ∧
  ∀ j, (h : j < code.length) → code[j] = BitVec.ofNat 8 (rl / 2 ^ (code.length - 1 - j) % 2)

/-- A forward unit at the head of the source: the source bytes it is made of and the bytes it produces
(43_zlt.md R184, R185). -/
inductive ForwardUnit : List Byte → Nat → List Byte → Prop where
  | run {n : Nat} {rest code : List Byte} : 1 ≤ n → n ≤ 2 ^ 31 - 2 → (n = 2 ^ 31 - 2 ∨ rest.head? ≠ some 0#8) →
      RunCode (n + 1) code → ForwardUnit (List.replicate n 0#8 ++ rest) n code
  | escape {v : Byte} {rest : List Byte} : 0xFE ≤ v.toNat → ForwardUnit (v :: rest) 1 [0xFF#8, v - 0xFE#8]
  | literal {v : Byte} {rest : List Byte} : v ≠ 0#8 → v.toNat < 0xFE → ForwardUnit (v :: rest) 1 [v + 1#8]

/-- An inverse unit at the head of the source (43_zlt.md R187 to R189). A run code has at most 30 bytes: a longer one can
never be placed. -/
inductive InverseUnit : List Byte → Nat → List Byte → Prop where
  | run {code rest : List Byte} : code ≠ [] → code.length ≤ 30 → (∀ c ∈ code, c.toNat ≤ 1) →
      (∀ v, rest.head? = some v → 1 < v.toNat) →
      InverseUnit (code ++ rest) code.length
        (List.replicate (code.foldl (fun rl c => 2 * rl + c.toNat) 1 - 1) 0#8)
  | escape {w : Byte} {rest : List Byte} : InverseUnit (0xFF#8 :: w :: rest) 2 [0xFE#8 + w]
  | literal {v : Byte} {rest : List Byte} : 2 ≤ v.toNat → v.toNat ≤ 0xFE → InverseUnit (v :: rest) 1 [v - 1#8]

/-- Units placed one after the other: the first `taken` bytes of the source give `out` (43_zlt.md R182). -/
inductive Units (unit : List Byte → Nat → List Byte → Prop) : List Byte → Nat → List Byte → Prop where
  | nil {src : List Byte} : Units unit src 0 []
  | cons {src out outs : List Byte} {k n : Nat} :
      unit src k out → Units unit (src.drop k) n outs → Units unit src (k + n) (out ++ outs)

/-- After `taken` source bytes the transform must stop with `NoSpace`: bytes remain, and whatever unit stands there does not
fit in the room left, or none can be placed at all (43_zlt.md R182, R187, R189). -/
def MustStop (unit : List Byte → Nat → List Byte → Prop) (src : List Byte) (taken room : Nat) : Prop :=
  taken < src.length ∧ ∀ k out, unit (src.drop taken) k out → room < out.length

end Sys2Proof.Machine
end

