-- ==== Sys2Proof/Certificates/Slice0/Obligations.lean ====
section
/-! DEFINITION. The statements about the model, for the provers. Each docstring names the rules of spec/ it formalises; the
relations they are stated in are those of Sys2Proof/Safety.lean. -/

open Sys2Proof Sys2Proof.Machine

/-! ### Encodings (30_encoding.md) -/

/-- R92 to R95: decoding the word of a well-formed command gives it back, and every word that decodes is the word of the
command it decodes to, so no bit of a command word is dropped. -/
def Obligations.DecodeEncodeRoundTrip : Prop :=
  (∀ i : Instr, i.wellFormed = true → decode (encode i) = some i) ∧
  ∀ (w : Word) (i : Instr), decode w = some i → i.wellFormed = true ∧ encode i = w

/-- R94: the opcode map, row by row: a word selects the row when `(w & mask) = match`; ENCB's operand is `w[7:0]`. -/
def Obligations.OpcodeMapSelectsCommand : Prop :=
  ∀ w : Word,
    (decode w = some .nop ↔ w &&& 0xFFFFFFFF#32 = 0x00000000#32) ∧
    (∀ b : Byte, decode w = some (.encb b) ↔ w &&& 0xFFFFFF00#32 = 0x01000000#32 ∧ b = w.extractLsb' 0 8) ∧
    (decode w = some .encf ↔ w &&& 0xFFFFFFFF#32 = 0x02000000#32) ∧
    (decode w = some .encblk ↔ w &&& 0xFFFFFFFF#32 = 0x03000000#32) ∧
    (decode w = some .erst ↔ w &&& 0xFFFFFFFF#32 = 0x04000000#32) ∧
    (decode w = some .decb ↔ w &&& 0xFFFFFFFF#32 = 0x10000000#32) ∧
    (decode w = some .decblk ↔ w &&& 0xFFFFFFFF#32 = 0x11000000#32) ∧
    (decode w = some .drst ↔ w &&& 0xFFFFFFFF#32 = 0x12000000#32) ∧
    (decode w = some .zfwd ↔ w &&& 0xFFFFFFFF#32 = 0x20000000#32) ∧
    (decode w = some .zinv ↔ w &&& 0xFFFFFFFF#32 = 0x21000000#32)

/-- R95, R224: a word is illegal exactly when its `OPC` is not in the table, its `ZERO` is not 0, or its `ARG` is not 0 and
its `OPC` is not ENCB's; written to `CMD` it sets `STATUS.CODE = 8` and changes nothing else. -/
def Obligations.IllegalWordOnlySetsStatus : Prop :=
  ∀ w : Word,
    (decode w = none ↔
      w.extractLsb' 24 8 ∉ [0x00#8, 0x01#8, 0x02#8, 0x03#8, 0x04#8, 0x10#8, 0x11#8, 0x12#8, 0x20#8, 0x21#8] ∨
        w.extractLsb' 8 16 ≠ 0#16 ∨ (w.extractLsb' 24 8 ≠ 0x01#8 ∧ w.extractLsb' 0 8 ≠ 0#8)) ∧
    (decode w = none → ∀ s : State,
      perform (.regWrite 0x04#8 w) s = .next { s with regs := { s.regs with status := 8#32 } })

/-- R94, R95 and the legal and illegal words of 95_test_vectors.md V82, decoded. -/
def Obligations.SampleWordsDecode : Prop :=
  decode 0x00000000#32 = some .nop ∧ decode 0x010000FF#32 = some (.encb 0xFF#8) ∧
  decode 0x01000061#32 = some (.encb 0x61#8) ∧ decode 0x02000000#32 = some .encf ∧
  decode 0x03000000#32 = some .encblk ∧ decode 0x04000000#32 = some .erst ∧ decode 0x10000000#32 = some .decb ∧
  decode 0x11000000#32 = some .decblk ∧ decode 0x12000000#32 = some .drst ∧ decode 0x20000000#32 = some .zfwd ∧
  decode 0x21000000#32 = some .zinv ∧ decode 0x05000000#32 = none ∧ decode 0xFF000000#32 = none ∧
  decode 0x01000100#32 = none ∧ decode 0x02000001#32 = none ∧ decode 0x00000001#32 = none ∧ decode 0x10000001#32 = none

/-! ### The step and the host operations (44_system.md, 70_reset_and_hazards.md) -/

/-- R42, R202, R204: when the next host operation writes a command word that decodes, the step is that command's meaning,
the operation taken off the list. The list is the model's own (log 3). -/
def Obligations.StepRunsDecodedCommand : Prop :=
  ∀ (s : State) (w : Word) (rest : List HostOp) (i : Instr), s.hostOps = .regWrite 0x04#8 w :: rest →
    decode w = some i → step s = exec i { s with hostOps := rest }

/-- R14, R90, R205, R247: operations are performed one a step, in the order the host issued them; with none pending the
block waits. The list and the waiting step are the model's own (logs 3 and 4). -/
def Obligations.StepPerformsNextOperation : Prop :=
  ∀ s : State,
    (s.hostOps = [] → step s = .next s) ∧
    ∀ (op : HostOp) (rest : List HostOp), s.hostOps = op :: rest → step s = perform op { s with hostOps := rest }

/-- R201: what `RegRead` returns at every offset, with the fields of `STATUS`, `RESULT` and `USTAT` (R43, R44, R47); it
changes no state of the block. -/
def Obligations.RegReadReturnsRegister : Prop :=
  ∀ (s : State) (off : BitVec 8), ∃ v : Word,
    perform (.regRead off) s = .next { s with replies := s.replies ++ [.reg v] } ∧
    (off = 0x00#8 → v = 0x4B5A0001#32) ∧
    (off = 0x04#8 → v = 0#32) ∧
    (off = 0x08#8 → v.extractLsb' 0 4 = s.regs.status.extractLsb' 0 4 ∧ v.extractLsb' 4 28 = 0#28) ∧
    (off = 0x0C#8 → v.extractLsb' 0 8 = s.regs.result.extractLsb' 0 8 ∧ v.extractLsb' 8 24 = 0#24) ∧
    (off = 0x10#8 → v = s.regs.srcBase) ∧
    (off = 0x14#8 → v = s.regs.srcLen) ∧
    (off = 0x18#8 → v = s.regs.dstBase) ∧
    (off = 0x1C#8 → v = s.regs.dstLen) ∧
    (off = 0x20#8 → v = s.regs.size) ∧
    (off = 0x24#8 → v = s.regs.consumed) ∧
    (off = 0x28#8 → v = s.regs.produced) ∧
    (off = 0x2C#8 → v.getLsbD 0 = s.enc.written ∧ v.getLsbD 1 = s.enc.flushed ∧ v.getLsbD 2 = s.dec.initialized ∧
      v.getLsbD 3 = s.dec.err ∧ v.extractLsb' 4 4 = s.dec.errcode ∧
      v.getLsbD 8 = decide (s.inPos < s.params.inStream.length) ∧ v.extractLsb' 9 23 = 0#23) ∧
    (off ∉ [0x00#8, 0x04#8, 0x08#8, 0x0C#8, 0x10#8, 0x14#8, 0x18#8, 0x1C#8, 0x20#8, 0x24#8, 0x28#8, 0x2C#8] → v = 0#32)

/-- R202: what `RegWrite` does at every offset: `CMD` dispatches, the five configuration registers store all 32 bits,
everything else is ignored; `STATUS` changes only through a command. -/
def Obligations.RegWriteStoresOrDispatches : Prop :=
  ∀ (s : State) (off : BitVec 8) (v : Word),
    (off = 0x04#8 → ∀ i : Instr, decode v = some i → perform (.regWrite off v) s = exec i s) ∧
    (off = 0x04#8 → decode v = none →
      perform (.regWrite off v) s = .next { s with regs := { s.regs with status := 8#32 } }) ∧
    (off = 0x10#8 → perform (.regWrite off v) s = .next { s with regs := { s.regs with srcBase := v } }) ∧
    (off = 0x14#8 → perform (.regWrite off v) s = .next { s with regs := { s.regs with srcLen := v } }) ∧
    (off = 0x18#8 → perform (.regWrite off v) s = .next { s with regs := { s.regs with dstBase := v } }) ∧
    (off = 0x1C#8 → perform (.regWrite off v) s = .next { s with regs := { s.regs with dstLen := v } }) ∧
    (off = 0x20#8 → perform (.regWrite off v) s = .next { s with regs := { s.regs with size := v } }) ∧
    (off ∉ [0x04#8, 0x10#8, 0x14#8, 0x18#8, 0x1C#8, 0x20#8] → perform (.regWrite off v) s = .next s)

/-- R203, R74: a `BufWrite` stores one byte and changes nothing else; a `BufRead` afterwards returns it at its address and
at every other address what it returned before. That this holds of a byte nothing has written, so that two reads of it
agree, is the model's choice (log 5). -/
def Obligations.BufWriteThenRead : Prop :=
  ∀ (s : State) (a : Nat) (b : Byte), a < 2 ^ s.params.aw →
    ∃ m : Memory, perform (.bufWrite a b) s = .next { s with buf := m } ∧ Stored s.buf m a [b] ∧
      (s.buf.wf → m.wf) ∧
      ∀ c : Nat, c < 2 ^ s.params.aw →
        perform (.bufRead c) { s with buf := m } =
          .next { s with buf := m, replies := s.replies ++ [.byte (if c = a then b else s.bufByte c)] }

/-- R203, R51 and 93_implementation_defined.md U1: a `BufRead` returns the byte last written, and a free value where nothing
has been written since the last reset event (the model's choice, log 5); an address outside `BUF`, which R60 says cannot
be formed, stops the model (log 9). -/
def Obligations.BufReadReturnsLatestByte : Prop :=
  ∀ (s : State) (a : Nat),
    (a < 2 ^ s.params.aw → ∀ b : Byte, s.buf.read a = some b →
      perform (.bufRead a) s = .next { s with replies := s.replies ++ [.byte b] }) ∧
    (a < 2 ^ s.params.aw → s.buf.read a = none →
      perform (.bufRead a) s =
        .next { s with replies := s.replies ++ [.byte (Config.unwrittenByte s.bufEpoch a)] }) ∧
    (2 ^ s.params.aw ≤ a → perform (.bufRead a) s = .fault .bufAddress ∧
      ∀ b : Byte, perform (.bufWrite a b) s = .fault .bufAddress)

/-- R245, R53, R34: the reset event, from any state. The parameters, the operations still to come and the replies stay, and
`BUF`'s free contents are new ones: these are the model's choices (logs 5 and 13); the values of `low` and `range` are the
spec's general knowledge (93_implementation_defined.md G1, log 10). -/
def Obligations.ResetEventClearsBlock : Prop :=
  ∀ s : State, ∃ t : State, perform .reset s = .next t ∧
    t.enc.low = 0#56 ∧ t.enc.range = 0xFFFFFFFFFFFFFF#56 ∧ t.enc.written = false ∧ t.enc.flushed = false ∧
    t.dec.low = 0#56 ∧ t.dec.range = 0xFFFFFFFFFFFFFF#56 ∧ t.dec.code = 0#56 ∧ t.dec.initialized = false ∧
    t.dec.err = false ∧ t.dec.errcode = 0#4 ∧
    (∀ i, i ≤ 257 → counterAt t.enc.freq.deltaFreq i = i % 16 ∧ counterAt t.dec.freq.deltaFreq i = i % 16) ∧
    (∀ i, i ≤ 16 → counterAt t.enc.freq.baseFreq i = 16 * i ∧ counterAt t.dec.freq.baseFreq i = 16 * i) ∧
    t.regs = ⟨0, 0, 0, 0, 0, 0, 0, 0, 0⟩ ∧ t.buf = [] ∧ t.outStream = [] ∧ t.inPos = 0 ∧
    t.params = s.params ∧ t.bufEpoch = s.bufEpoch + 1 ∧ t.hostOps = s.hostOps ∧ t.replies = s.replies

/-- R53: the state right after reset, with every counter of both units' models, `deltaFreq[i] = i & 15` and
`baseFreq[i] = i << 4`. The values of `low` and `range` are the spec's general knowledge (93_implementation_defined.md G1,
log 10); that `BUF` lists nothing is the model's form of its free contents (log 5). -/
def Obligations.ResetStateHoldsListedValues : Prop :=
  State.reset.enc.low = 0#56 ∧ State.reset.enc.range = 0xFFFFFFFFFFFFFF#56 ∧
  State.reset.dec.low = 0#56 ∧ State.reset.dec.range = 0xFFFFFFFFFFFFFF#56 ∧ State.reset.dec.code = 0#56 ∧
  State.reset.enc.written = false ∧ State.reset.enc.flushed = false ∧ State.reset.dec.initialized = false ∧
  State.reset.dec.err = false ∧ State.reset.dec.errcode = 0#4 ∧
  (∀ i, i ≤ 257 →
    counterAt State.reset.enc.freq.deltaFreq i = i % 16 ∧ counterAt State.reset.dec.freq.deltaFreq i = i % 16) ∧
  (∀ i, i ≤ 16 →
    counterAt State.reset.enc.freq.baseFreq i = 16 * i ∧ counterAt State.reset.dec.freq.baseFreq i = 16 * i) ∧
  State.reset.enc.freq.total = 257 ∧ State.reset.dec.freq.total = 257 ∧
  State.reset.regs = ⟨0, 0, 0, 0, 0, 0, 0, 0, 0⟩ ∧ State.reset.outStream = [] ∧ State.reset.inPos = 0 ∧ State.reset.buf = []

/-- R200: the all-zero word is NOP, and NOP clears the status code and does nothing else. -/
def Obligations.NopClearsStatus : Prop :=
  decode 0x00000000#32 = some .nop ∧
  ∀ s : State, exec .nop s = .next { s with regs := { s.regs with status := 0#32 } }

/-! ### The encoder (41_range_encoder.md) -/

/-- R148, R141, R145, R146 (5): between commands, with the encoder not flushed and the model below its bound, ENCB codes its
byte: it appends at most 9 bytes, updates the unit as the spec's narrowing and renormalisation say, and changes nothing
else. The renormalisation's loop and mask are the spec's own general knowledge (93_implementation_defined.md G2, G3, log
11). -/
def Obligations.EncbCodesByte : Prop :=
  ∀ (s : State) (b : Byte), s.enc.Inv → s.enc.flushed = false → s.enc.freq.total < 2 ^ 40 →
    ∃ (out : List Byte) (e : Encoder), EncodesByte s.enc b out e ∧ out.length ≤ 9 ∧ e.Inv ∧
      exec (.encb b) s =
        .next { s with enc := e, outStream := s.outStream ++ out.map .byte, regs := { s.regs with status := 0#32 } }

/-- R127, R128, R122: what a successful ENCB does to the frequencies: `F` is one larger strictly above its byte and unchanged
up to it, so the byte's frequency and the total grow by one, and every other frequency stays. -/
def Obligations.EncbAdaptsModel : Prop :=
  ∀ (s t : State) (b : Byte), s.enc.Inv → exec (.encb b) s = .next t → t.regs.status = 0#32 →
    (∀ j, j ≤ 257 → t.enc.freq.F j = s.enc.freq.F j + if b.toNat < j then 1 else 0) ∧
    t.enc.freq.total = s.enc.freq.total + 1 ∧
    ∀ x, x ≤ 256 → t.enc.freq.F (x + 1) - t.enc.freq.F x =
      s.enc.freq.F (x + 1) - s.enc.freq.F x + if x = b.toNat then 1 else 0

/-- R225: after a flush ENCB, and ENCBLK with a byte to encode, raise `Sequence` and change nothing else; no command but ERST
clears the flag. -/
def Obligations.FlushedEncoderRefusesBytes : Prop :=
  ∀ s : State, s.enc.flushed = true →
    (∀ b : Byte, exec (.encb b) s = .next { s with regs := { s.regs with status := 6#32 } }) ∧
    (∀ n, SourceRegion s n → 1 ≤ n → exec .encblk s =
      .next { s with regs := { s.regs with status := 6#32, consumed := 0#32, produced := 0#32 } }) ∧
    ∀ (i : Instr) (t : State), i ≠ .erst → exec i s = .next t → t.enc.flushed = true

/-- R223, R226: at the frequency bound a coder step raises `FreqLimit` before coding: the encoder changes nothing but the
status (and ENCBLK its counts); the decoder latches the code. -/
def Obligations.FrequencyBoundStopsCoding : Prop :=
  ∀ s : State,
    (s.enc.flushed = false → 2 ^ 40 ≤ s.enc.freq.total →
      (∀ b : Byte, exec (.encb b) s = .next { s with regs := { s.regs with status := 7#32 } }) ∧
      ∀ n, SourceRegion s n → 1 ≤ n → exec .encblk s =
        .next { s with regs := { s.regs with status := 7#32, consumed := 0#32, produced := 0#32 } }) ∧
    (s.dec.err = false → 2 ^ 40 ≤ s.dec.freq.total →
      exec .decb s = .next { s with
        dec := { s.dec with err := true, errcode := 7#4 }, regs := { s.regs with status := 7#32 } } ∧
      (DestRegion s → 1 ≤ s.regs.dstLen.toNat → exec .decblk s = .next { s with
        dec := { s.dec with err := true, errcode := 7#4 }
        regs := { s.regs with status := 7#32, consumed := 0#32, produced := 0#32 } }))

/-- R149, R66, R68: ENCF drains the seven bytes of `low`, top byte first, and flushes, on the first call after a byte was
encoded; on every other call it changes nothing but the status. -/
def Obligations.EncfDrainsLowOnce : Prop :=
  ∀ s : State,
    (s.enc.written = true → s.enc.flushed = false → exec .encf s = .next { s with
      enc := { s.enc with low := 0#56, flushed := true }
      outStream := s.outStream ++ [.byte (s.enc.low.extractLsb' 48 8), .byte (s.enc.low.extractLsb' 40 8),
        .byte (s.enc.low.extractLsb' 32 8), .byte (s.enc.low.extractLsb' 24 8), .byte (s.enc.low.extractLsb' 16 8),
        .byte (s.enc.low.extractLsb' 8 8), .byte (s.enc.low.extractLsb' 0 8), .flush]
      regs := { s.regs with status := 0#32 } }) ∧
    (s.enc.written = false ∨ s.enc.flushed = true →
      exec .encf s = .next { s with regs := { s.regs with status := 0#32 } })

/-- R150, R225: ENCBLK encodes the `n` source bytes in order, when the encoder is not flushed, or `n = 0` and there is nothing
to encode, and the model has room for them: the unit and the output end as after `n` ENCBs, `CONSUMED` is `n` and `PRODUCED`
the number of bytes appended (a free value from `2^32` on, the model's choice, log 6). The renormalisation is the spec's
general knowledge (log 11). -/
def Obligations.EncblkEncodesRegion : Prop :=
  ∀ (s : State) (n : Nat), s.enc.Inv → SourceRegion s n → (s.enc.flushed = false ∨ n = 0) →
    s.enc.freq.total + n ≤ 2 ^ 40 →
    ∃ (out : List Byte) (e : Encoder) (p : Word), EncodesAll s.enc (s.bufSlice s.regs.srcBase.toNat n) out e ∧ e.Inv ∧
      (out.length < 2 ^ 32 → p = BitVec.ofNat 32 out.length) ∧
      exec .encblk s = .next { s with
        enc := e
        outStream := s.outStream ++ out.map .byte
        regs := { s.regs with status := 0#32, consumed := BitVec.ofNat 32 n, produced := p } }

/-- R150, R251: when the model has no room for all the bytes, ENCBLK encodes those it has room for, and stops with
`FreqLimit` and the counts of what it did. The free count is the model's choice (log 6), the renormalisation the spec's
general knowledge (log 11). -/
def Obligations.EncblkStopsAtFrequencyBound : Prop :=
  ∀ (s : State) (n : Nat), s.enc.Inv → SourceRegion s n → s.enc.flushed = false → 2 ^ 40 < s.enc.freq.total + n →
    ∃ (out : List Byte) (e : Encoder) (p : Word),
      EncodesAll s.enc ((s.bufSlice s.regs.srcBase.toNat n).take (2 ^ 40 - s.enc.freq.total)) out e ∧
      (out.length < 2 ^ 32 → p = BitVec.ofNat 32 out.length) ∧
      exec .encblk s = .next { s with
        enc := e
        outStream := s.outStream ++ out.map .byte
        regs := { s.regs with
          status := 7#32, consumed := BitVec.ofNat 32 (2 ^ 40 - s.enc.freq.total), produced := p } }

/-- R151, R167, R246, R34: ERST and DRST put their unit at its reset values and change nothing else but the status. The values
of `low` and `range` are the spec's general knowledge (93_implementation_defined.md G1, log 10). -/
def Obligations.UnitResetsRestoreUnit : Prop :=
  ∀ s : State,
    (∃ e : Encoder, exec .erst s = .next { s with enc := e, regs := { s.regs with status := 0#32 } } ∧
      e.low = 0#56 ∧ e.range = 0xFFFFFFFFFFFFFF#56 ∧ e.written = false ∧ e.flushed = false ∧
      (∀ i, i ≤ 257 → counterAt e.freq.deltaFreq i = i % 16) ∧
      ∀ i, i ≤ 16 → counterAt e.freq.baseFreq i = 16 * i) ∧
    ∃ d : Decoder, exec .drst s = .next { s with dec := d, regs := { s.regs with status := 0#32 } } ∧
      d.low = 0#56 ∧ d.range = 0xFFFFFFFFFFFFFF#56 ∧ d.code = 0#56 ∧ d.initialized = false ∧ d.err = false ∧
      d.errcode = 0#4 ∧ (∀ i, i ≤ 257 → counterAt d.freq.deltaFreq i = i % 16) ∧
      ∀ i, i ≤ 16 → counterAt d.freq.baseFreq i = 16 * i

/-! ### The decoder (42_range_decoder.md) -/

/-- R165, R160 to R163: a DECB that finds a byte delivers it in `RESULT`, moves the cursor and the unit as the spec's search,
narrowing, renormalisation and update say, and changes nothing else. The renormalisation is the spec's general knowledge
(93_implementation_defined.md G2, G3, log 11). -/
def Obligations.DecbDeliversByte : Prop :=
  ∀ (s : State) (b : Byte) (d : Decoder) (pos : Nat), s.dec.Inv → s.inPos ≤ s.params.inStream.length →
    s.dec.err = false → DecodesByte s.params.inStream s.dec s.inPos b d pos →
    exec .decb s = .next { s with
      dec := d, inPos := pos, regs := { s.regs with status := 0#32, result := b.zeroExtend 32 } }

/-- R165, R219 to R221, R223, R226, R227: a DECB that raises a fault sets the latch and the status to its code, keeps the
cursor's increments and discards every other write. The renormalisation in `DecodeFaults` is the spec's general knowledge
(log 11). -/
def Obligations.DecbFaultLatches : Prop :=
  ∀ (s : State) (c : StatusCode) (pos : Nat), s.dec.Inv → s.inPos ≤ s.params.inStream.length → s.dec.err = false →
    DecodeFaults s.params.inStream s.dec s.inPos c pos →
    c ∈ [.eos, .corrupt, .io, .freq] ∧
    exec .decb s = .next { s with
      dec := { s.dec with err := true, errcode := c.bits }, inPos := pos
      regs := { s.regs with status := c.bits.zeroExtend 32 } }

/-- R226: while the latch is set DECB and DECBLK only report its code, and no command but DRST changes the decoder or takes
an input byte. -/
def Obligations.LatchedDecoderOnlyReports : Prop :=
  ∀ s : State, s.dec.err = true →
    exec .decb s = .next { s with regs := { s.regs with status := s.dec.errcode.zeroExtend 32 } } ∧
    exec .decblk s = .next { s with
      regs := { s.regs with status := s.dec.errcode.zeroExtend 32, consumed := 0#32, produced := 0#32 } } ∧
    ∀ (i : Instr) (t : State), i ≠ .drst → exec i s = .next t → t.dec = s.dec ∧ t.inPos = s.inPos

/-- R166: a DECBLK that finds all its bytes stores them from `DST_BASE` on, in order, and nowhere else, and reports how many
input bytes it took and how many it stored; `RESULT` stays. The renormalisation in `DecodesAll` is the spec's general
knowledge (log 11). -/
def Obligations.DecblkFillsRegion : Prop :=
  ∀ (s : State) (bs : List Byte) (d : Decoder) (pos : Nat), s.dec.Inv → s.inPos ≤ s.params.inStream.length →
    s.dec.err = false → DestRegion s → bs.length = s.regs.dstLen.toNat →
    DecodesAll s.params.inStream s.dec s.inPos bs d pos →
    ∃ m : Memory, Stored s.buf m s.regs.dstBase.toNat bs ∧ exec .decblk s = .next { s with
      dec := d, inPos := pos, buf := m
      regs := { s.regs with
        status := 0#32, consumed := BitVec.ofNat 32 (pos - s.inPos), produced := s.regs.dstLen } }

/-- R166, R226: a DECBLK that raises a fault after `bs` keeps what it decoded and stored, latches the code, and reports the
partial progress; the unit is otherwise the one after the last good symbol. The renormalisation is the spec's general knowledge
(log 11). -/
def Obligations.DecblkKeepsPartialProgress : Prop :=
  ∀ (s : State) (bs : List Byte) (d : Decoder) (pos pos' : Nat) (c : StatusCode), s.dec.Inv →
    s.inPos ≤ s.params.inStream.length → s.dec.err = false → DestRegion s → bs.length < s.regs.dstLen.toNat →
    DecodesAll s.params.inStream s.dec s.inPos bs d pos → DecodeFaults s.params.inStream d pos c pos' →
    ∃ m : Memory, Stored s.buf m s.regs.dstBase.toNat bs ∧ exec .decblk s = .next { s with
      dec := { d with err := true, errcode := c.bits }, inPos := pos', buf := m
      regs := { s.regs with
        status := c.bits.zeroExtend 32
        consumed := BitVec.ofNat 32 (pos' - s.inPos)
        produced := BitVec.ofNat 32 bs.length } }

/-- R163, R164: from equal intervals and models, a DECB that delivers a byte and the ENCB of that byte leave equal intervals
and models, and the decoder takes one input byte for every byte the encoder appends, plus the prefix of seven if it had
not been loaded. The renormalisation is the spec's general knowledge (log 11). -/
def Obligations.DecoderMirrorsEncoder : Prop :=
  ∀ s t u : State, s.Inv → s.enc.low = s.dec.low → s.enc.range = s.dec.range → s.enc.freq = s.dec.freq →
    s.dec.err = false → exec .decb s = .next t → t.regs.status = 0#32 →
    exec (.encb (t.regs.result.extractLsb' 0 8)) s = .next u → u.regs.status = 0#32 →
    u.enc.low = t.dec.low ∧ u.enc.range = t.dec.range ∧ u.enc.freq = t.dec.freq ∧
    t.inPos = s.inPos + (if s.dec.initialized then 0 else 7) + (u.outStream.length - s.outStream.length)

/-- R164, R100: the round trip. A fresh encoder encodes a region with ENCBLK and flushes with ENCF; a fresh decoder of any
other state whose input holds the bytes it appended, from the cursor on, then decodes the region with DECBLK: it delivers
exactly the encoded bytes, with status OK, and takes exactly the bytes of the coded stream. The spec marks R164 as its own
derivation; the reset interval and the renormalisation are its general knowledge (logs 10 and 11). -/
def Obligations.RangeCoderRoundTrip : Prop :=
  ∀ (s s₁ s₂ u : State) (n : Nat) (code before after : List Byte),
    s.enc = State.reset.enc → SourceRegion s n → 1 ≤ n →
    exec .encblk s = .next s₁ → s₁.regs.status = 0#32 → exec .encf s₁ = .next s₂ →
    s₂.outStream = s.outStream ++ code.map .byte ++ [.flush] →
    u.dec = State.reset.dec → u.params.inStream = before ++ code ++ after → u.inPos = before.length →
    DestRegion u → u.regs.dstLen.toNat = n →
    ∃ (m : Memory) (d : Decoder), Stored u.buf m u.regs.dstBase.toNat (s.bufSlice s.regs.srcBase.toNat n) ∧
      exec .decblk u = .next { u with
        dec := d, inPos := before.length + code.length, buf := m
        regs := { u.regs with
          status := 0#32, consumed := BitVec.ofNat 32 code.length, produced := BitVec.ofNat 32 n } }

/-! ### The zero-length transform (43_zlt.md) -/

/-- R186, R184, R185, R182: every source region has a forward transform, at most twice as long; when it fits, ZFWD stores it
from `DST_BASE` on, and nowhere else, and consumes the whole source. -/
def Obligations.ZfwdTransformsRegion : Prop :=
  ∀ (s : State) (n : Nat), SourceRegion s n → DestRegion s → ¬ Overlap s →
    (∃ out, Units ForwardUnit (s.bufSlice s.regs.srcBase.toNat n) n out ∧ out.length ≤ 2 * n) ∧
    ∀ out, Units ForwardUnit (s.bufSlice s.regs.srcBase.toNat n) n out → out.length ≤ s.regs.dstLen.toNat →
      ∃ m : Memory, Stored s.buf m s.regs.dstBase.toNat out ∧ exec .zfwd s = .next { s with
        buf := m
        regs := { s.regs with
          status := 0#32, consumed := BitVec.ofNat 32 n, produced := BitVec.ofNat 32 out.length } }

/-- R182, R222, R186: when after some placed units the next one does not fit, ZFWD stops with `NoSpace`: the placed units
stay, nothing of the failing unit is written, and the counts are those of the placed units. -/
def Obligations.ZfwdStopsBeforeUnplacedUnit : Prop :=
  ∀ (s : State) (n taken : Nat) (out : List Byte), SourceRegion s n → DestRegion s → ¬ Overlap s →
    Units ForwardUnit (s.bufSlice s.regs.srcBase.toNat n) taken out → out.length ≤ s.regs.dstLen.toNat →
    MustStop ForwardUnit (s.bufSlice s.regs.srcBase.toNat n) taken (s.regs.dstLen.toNat - out.length) →
    ∃ m : Memory, Stored s.buf m s.regs.dstBase.toNat out ∧ exec .zfwd s = .next { s with
      buf := m
      regs := { s.regs with
        status := 4#32, consumed := BitVec.ofNat 32 taken, produced := BitVec.ofNat 32 out.length } }

/-- R190, R187 to R189, R182: when the source is a sequence of inverse units that fit, ZINV stores what they stand for from
`DST_BASE` on, and nowhere else, and consumes the whole source. -/
def Obligations.ZinvRestoresRegion : Prop :=
  ∀ (s : State) (n : Nat) (out : List Byte), SourceRegion s n → DestRegion s → ¬ Overlap s →
    Units InverseUnit (s.bufSlice s.regs.srcBase.toNat n) n out → out.length ≤ s.regs.dstLen.toNat →
    ∃ m : Memory, Stored s.buf m s.regs.dstBase.toNat out ∧ exec .zinv s = .next { s with
      buf := m
      regs := { s.regs with
        status := 0#32, consumed := BitVec.ofNat 32 n, produced := BitVec.ofNat 32 out.length } }

/-- R182, R222, R187, R189, R190: when after some placed units the next one does not fit, is a run code of more than 30 bytes,
or is an escape byte at the end of the source, ZINV stops with `NoSpace` and the counts of the placed units. -/
def Obligations.ZinvStopsBeforeUnplacedUnit : Prop :=
  ∀ (s : State) (n taken : Nat) (out : List Byte), SourceRegion s n → DestRegion s → ¬ Overlap s →
    Units InverseUnit (s.bufSlice s.regs.srcBase.toNat n) taken out → out.length ≤ s.regs.dstLen.toNat →
    MustStop InverseUnit (s.bufSlice s.regs.srcBase.toNat n) taken (s.regs.dstLen.toNat - out.length) →
    ∃ m : Memory, Stored s.buf m s.regs.dstBase.toNat out ∧ exec .zinv s = .next { s with
      buf := m
      regs := { s.regs with
        status := 4#32, consumed := BitVec.ofNat 32 taken, produced := BitVec.ofNat 32 out.length } }

/-- R191: the ZLT round trip. If ZFWD succeeds on a region without a zero run longer than `2^31 - 2`, then ZINV, in any state
whose source region holds exactly the bytes it wrote and whose destination has room, succeeds and writes the original
bytes. The spec marks R191 as its own derivation. -/
def Obligations.ZltRoundTrip : Prop :=
  ∀ (s t u : State) (n : Nat), SourceRegion s n →
    (∀ (xs ys : List Byte) (k : Nat),
      s.bufSlice s.regs.srcBase.toNat n = xs ++ List.replicate k 0#8 ++ ys → k ≤ 2 ^ 31 - 2) →
    exec .zfwd s = .next t → t.regs.status = 0#32 →
    SourceRegion u t.regs.produced.toNat → DestRegion u → ¬ Overlap u → n ≤ u.regs.dstLen.toNat →
    u.bufSlice u.regs.srcBase.toNat t.regs.produced.toNat =
      t.bufSlice t.regs.dstBase.toNat t.regs.produced.toNat →
    ∃ m : Memory, Stored u.buf m u.regs.dstBase.toNat (s.bufSlice s.regs.srcBase.toNat n) ∧
      exec .zinv u = .next { u with
        buf := m
        regs := { u.regs with
          status := 0#32, consumed := t.regs.produced, produced := BitVec.ofNat 32 n } }

/-- R180, R181, R186, R190: ZFWD and ZINV depend on nothing but the five configuration registers, the size of `BUF` and the
source bytes: two states that agree on these get the same status and counts, and the same bytes in the destination. -/
def Obligations.ZltDependsOnSourceOnly : Prop :=
  ∀ (s t : State) (i : Instr), i = .zfwd ∨ i = .zinv →
    s.params.aw = t.params.aw → s.regs.srcBase = t.regs.srcBase → s.regs.srcLen = t.regs.srcLen →
    s.regs.dstBase = t.regs.dstBase → s.regs.dstLen = t.regs.dstLen → s.regs.size = t.regs.size →
    (∀ a, s.regs.srcBase.toNat ≤ a → a < s.regs.srcBase.toNat + s.regs.srcLen.toNat → s.bufByte a = t.bufByte a) →
    ∃ s' t' : State, exec i s = .next s' ∧ exec i t = .next t' ∧
      s'.regs.status = t'.regs.status ∧ s'.regs.consumed = t'.regs.consumed ∧
      s'.regs.produced = t'.regs.produced ∧
      ∀ a, s.regs.dstBase.toNat ≤ a → a < s.regs.dstBase.toNat + s'.regs.produced.toNat → s'.buf.read a = t'.buf.read a

/-- R217, R181: a block command with an unusable region, a `SIZE` above `SRC_LEN`, or (ZFWD, ZINV) overlapping non-empty
regions writes 0 to both counts and 1 to the status, and changes nothing else; it does not set the latch. -/
def Obligations.UnusableRegionsAreRefused : Prop :=
  ∀ s : State,
    (2 ^ s.params.aw < s.regs.srcBase.toNat + s.regs.srcLen.toNat ∨ s.regs.srcLen.toNat < s.regs.size.toNat →
      exec .encblk s = .next { s with
        regs := { s.regs with status := 1#32, consumed := 0#32, produced := 0#32 } }) ∧
    (s.dec.err = false → 2 ^ s.params.aw < s.regs.dstBase.toNat + s.regs.dstLen.toNat →
      exec .decblk s = .next { s with
        regs := { s.regs with status := 1#32, consumed := 0#32, produced := 0#32 } }) ∧
    (2 ^ s.params.aw < s.regs.srcBase.toNat + s.regs.srcLen.toNat ∨ s.regs.srcLen.toNat < s.regs.size.toNat ∨
      2 ^ s.params.aw < s.regs.dstBase.toNat + s.regs.dstLen.toNat ∨ Overlap s →
      exec .zfwd s = .next { s with
        regs := { s.regs with status := 1#32, consumed := 0#32, produced := 0#32 } } ∧
      exec .zinv s = .next { s with
        regs := { s.regs with status := 1#32, consumed := 0#32, produced := 0#32 } })

/-! ### The frequency model (40_frequency_model.md) -/

/-- R124: `locate(t)` is the largest symbol of `[0, 256]` whose cumulative frequency is at most `t`, and it is the terminal
symbol exactly for `t >= total - 1`. -/
def Obligations.LocateFindsLargestSymbol : Prop :=
  ∀ m : FreqModel, m.Inv → ∀ t : Nat,
    m.locate t ≤ 256 ∧ m.F (m.locate t) ≤ t ∧ (∀ x, x ≤ 256 → m.F x ≤ t → x ≤ m.locate t) ∧
    (m.locate t = 256 ↔ m.total - 1 ≤ t)

/-- R125: the two-level search, first of `baseFreq`, then of the 16 entries of `deltaFreq` in the block found, finds the symbol
`locate` finds. -/
def Obligations.TwoLevelSearchAgrees : Prop :=
  ∀ m : FreqModel, m.Inv → ∀ t blk x : Nat,
    blk ≤ 16 → counterAt m.baseFreq blk ≤ t → (∀ i, i ≤ 16 → counterAt m.baseFreq i ≤ t → i ≤ blk) →
    16 * blk ≤ x → x ≤ min (16 * blk + 15) 256 → counterAt m.deltaFreq x ≤ t - counterAt m.baseFreq blk →
    (∀ y, 16 * blk ≤ y → y ≤ min (16 * blk + 15) 256 →
      counterAt m.deltaFreq y ≤ t - counterAt m.baseFreq blk → y ≤ x) →
    m.locate t = x

/-- R146 (1): a forced narrowing cuts the interval back to a multiple `M` of `2^48` it straddles: the forced range is
`M - low`, between 1 and the old range. The mask is the spec's general knowledge (93_implementation_defined.md G2, log
11); the spec marks R146 as its own derivation. -/
def Obligations.ForcedRangeEndsAtBoundary : Prop :=
  ∀ iv : Interval, 1 ≤ iv.range.toNat → iv.low.toNat + iv.range.toNat ≤ 2 ^ 56 →
    (iv.low.toNat + iv.range.toNat = 2 ^ 56 → 2 ^ 56 - 2 ^ 48 ≤ iv.low.toNat) →
    settled iv = false → iv.range.toNat < 2 ^ 40 →
    ∃ M : Nat, M % 2 ^ 48 = 0 ∧ iv.low.toNat < M ∧ M ≤ iv.low.toNat + iv.range.toNat ∧
      (renormRange iv).toNat = M - iv.low.toNat ∧ 1 ≤ (renormRange iv).toNat ∧
      (renormRange iv).toNat ≤ iv.range.toNat

/-! ### Whole-machine rules -/

/-- R49: which command writes which host register. -/
def Obligations.CommandsWriteListedRegisters : Prop :=
  ∀ (i : Instr) (s t : State), exec i s = .next t →
    t.regs.srcBase = s.regs.srcBase ∧ t.regs.srcLen = s.regs.srcLen ∧ t.regs.dstBase = s.regs.dstBase ∧
    t.regs.dstLen = s.regs.dstLen ∧ t.regs.size = s.regs.size ∧
    (i ≠ .decb ∨ t.regs.status ≠ 0#32 → t.regs.result = s.regs.result) ∧
    (i ∉ [.encblk, .decblk, .zfwd, .zinv] → t.regs.consumed = s.regs.consumed ∧ t.regs.produced = s.regs.produced)

/-- R20, R180, R66, R69: the units are disjoint: only the encoder's commands change `enc` or append to the output, only the
decoder's change `dec` or take input bytes; no command changes the run's parameters or the model's own fields. -/
def Obligations.CommandsStayInTheirUnit : Prop :=
  ∀ (i : Instr) (s t : State), exec i s = .next t →
    ((∀ b, i ≠ .encb b) → i ∉ [.encf, .encblk, .erst] → t.enc = s.enc) ∧
    ((∀ b, i ≠ .encb b) → i ∉ [.encf, .encblk] → t.outStream = s.outStream) ∧
    (i ∉ [.decb, .decblk, .drst] → t.dec = s.dec) ∧
    (i ∉ [.decb, .decblk] → t.inPos = s.inPos) ∧
    t.params = s.params ∧ t.bufEpoch = s.bufEpoch ∧ t.hostOps = s.hostOps ∧ t.replies = s.replies

/-- R60, R73, R207: only DECBLK, ZFWD and ZINV write `BUF`, and only in the `PRODUCED` bytes from `DST_BASE` on, inside the
destination region. -/
def Obligations.BufWrittenOnlyInDestination : Prop :=
  ∀ (i : Instr) (s t : State), exec i s = .next t →
    (i ∉ [.decblk, .zfwd, .zinv] → t.buf = s.buf) ∧
    (i ∈ [.decblk, .zfwd, .zinv] →
      t.regs.produced.toNat ≤ s.regs.dstLen.toNat ∧
      ∀ a, a < s.regs.dstBase.toNat ∨ s.regs.dstBase.toNat + t.regs.produced.toNat ≤ a →
        t.buf.read a = s.buf.read a)

/-- R50, R80: in every step but a reset event the output stream is only appended to and the input cursor only advances, never
past the end of the stream. -/
def Obligations.StreamsOnlyAdvance : Prop :=
  ∀ s t : State, s.Inv → step s = .next t → s.hostOps.head? ≠ some .reset →
    (∃ events, t.outStream = s.outStream ++ events) ∧ s.inPos ≤ t.inPos ∧ t.inPos ≤ s.params.inStream.length ∧
    t.params = s.params

/-- R215, R204: every command ends with a status code of the table, and each fault's code comes from the commands the table
names; codes 9 to 15 are never produced. -/
def Obligations.StatusCodesComeFromTable : Prop :=
  ∀ (i : Instr) (s t : State), s.Inv → exec i s = .next t →
    t.regs.status.toNat ≤ 7 ∧
    (t.regs.status = 1#32 → i ∈ [.encblk, .decblk, .zfwd, .zinv]) ∧
    (t.regs.status = 2#32 → i ∈ [.decb, .decblk]) ∧
    (t.regs.status = 3#32 → i ∈ [.decb, .decblk]) ∧
    (t.regs.status = 4#32 → i ∈ [.zfwd, .zinv]) ∧
    (t.regs.status = 5#32 → i ∈ [.decb, .decblk]) ∧
    (t.regs.status = 6#32 → (∃ b, i = .encb b) ∨ i = .encblk) ∧
    (t.regs.status = 7#32 → (∃ b, i = .encb b) ∨ i ∈ [.encblk, .decb, .decblk])

/-- R26, R33, R35, R43, R44: the invariants of a state between host operations hold at reset. -/
def Obligations.ResetMeetsInvariant : Prop := State.reset.Inv

/-- R26, R33, R35, R129, R215, R226: every step keeps the invariants: the coder intervals stay wide and inside `2^56`, the
frequency models stay strictly increasing and bounded, the latch holds a decode code, `BUF` stays canonical and inside its
size, and the cursor stays inside the stream. From every state that meets them, not only from reset. The reset interval and
the renormalisation are the spec's general knowledge (logs 10 and 11). -/
def Obligations.StepKeepsInvariant : Prop :=
  ∀ s t : State, s.Inv → step s = .next t → t.Inv

/-- R143, R146, R258: from every state that meets the invariants, the next host operation, when it can be formed at all,
completes: no division by zero, no endless renormalisation, no refusal. The list of operations and the step that waits
are the model's own (logs 3 and 4). -/
def Obligations.StepAlwaysCompletes : Prop :=
  ∀ s : State, s.Inv → (∀ op, s.hostOps.head? = some op → op.wellFormed s.params = true) → ∃ t, step s = .next t

/-! ### Runs (70_reset_and_hazards.md R260) -/

/-- R260, R12, R14, R253: a run of `ops` from `s` that ends is one step for each operation, in the order the host issued them;
nothing is pending at its end, and its values are what the run's reads returned, one for each read. The list of operations
and the list of replies are the model's own (log 3). -/
def Obligations.RunIsIteratedStep : Prop :=
  ∀ (s : State) (ops : List HostOp) (r : RunResult), runFrom s ops = .next r →
    Sys2Proof.core.run ops.length { s with hostOps := ops } = .next r.final ∧ r.final.hostOps = [] ∧
    r.final.replies = s.replies ++ r.values ∧ r.values.length = (ops.filter HostOp.isRead).length

/-- R260, R42, R204: a run is clean exactly when no command of it ended with a nonzero status: each part of it that ends with a
write to `CMD` ends with status 0. A later command that succeeds does not make a run clean again. That a write of an illegal
word counts as a command is the model's choice (log 17). -/
def Obligations.RunIsCleanWhenNoCommandFaults : Prop :=
  ∀ (s : State) (ops : List HostOp) (r : RunResult), runFrom s ops = .next r →
    (r.clean = true ↔ ∀ (pre post : List HostOp) (w : Word), ops = pre ++ .regWrite 0x04#8 w :: post →
      ∃ q : RunResult, runFrom s (pre ++ [.regWrite 0x04#8 w]) = .next q ∧ q.final.regs.status = 0#32)

/-- R260, R204, R258: from a start state that meets the invariants, a run whose operations can all be formed ends, in a state
that meets the invariants. The list of operations is the model's own (log 3). -/
def Obligations.RunAlwaysEnds : Prop :=
  ∀ (s : State) (ops : List HostOp), s.Inv → (∀ op ∈ ops, op.wellFormed s.params = true) →
    ∃ r : RunResult, runFrom s ops = .next r ∧ r.final.Inv
end

