-- ==== Sys2Proof/Laws/State.lean ====
section
/-! SUPPORT. What each named state update changes and leaves: one lemma per field per update. -/

namespace Sys2Proof.Machine

/-! ### State.setCode -/

@[simp] theorem State.setCode_enc (s : State) (c : BitVec 4) : (s.setCode c).enc = s.enc := rfl
@[simp] theorem State.setCode_dec (s : State) (c : BitVec 4) : (s.setCode c).dec = s.dec := rfl
@[simp] theorem State.setCode_buf (s : State) (c : BitVec 4) : (s.setCode c).buf = s.buf := rfl
@[simp] theorem State.setCode_outStream (s : State) (c : BitVec 4) : (s.setCode c).outStream = s.outStream := rfl
@[simp] theorem State.setCode_inPos (s : State) (c : BitVec 4) : (s.setCode c).inPos = s.inPos := rfl
@[simp] theorem State.setCode_params (s : State) (c : BitVec 4) : (s.setCode c).params = s.params := rfl
@[simp] theorem State.setCode_bufEpoch (s : State) (c : BitVec 4) : (s.setCode c).bufEpoch = s.bufEpoch := rfl
@[simp] theorem State.setCode_hostOps (s : State) (c : BitVec 4) : (s.setCode c).hostOps = s.hostOps := rfl
@[simp] theorem State.setCode_replies (s : State) (c : BitVec 4) : (s.setCode c).replies = s.replies := rfl
@[simp] theorem State.setCode_status (s : State) (c : BitVec 4) : (s.setCode c).regs.status = c.zeroExtend 32 := rfl
@[simp] theorem State.setCode_result (s : State) (c : BitVec 4) : (s.setCode c).regs.result = s.regs.result := rfl
@[simp] theorem State.setCode_srcBase (s : State) (c : BitVec 4) : (s.setCode c).regs.srcBase = s.regs.srcBase := rfl
@[simp] theorem State.setCode_srcLen (s : State) (c : BitVec 4) : (s.setCode c).regs.srcLen = s.regs.srcLen := rfl
@[simp] theorem State.setCode_dstBase (s : State) (c : BitVec 4) : (s.setCode c).regs.dstBase = s.regs.dstBase := rfl
@[simp] theorem State.setCode_dstLen (s : State) (c : BitVec 4) : (s.setCode c).regs.dstLen = s.regs.dstLen := rfl
@[simp] theorem State.setCode_size (s : State) (c : BitVec 4) : (s.setCode c).regs.size = s.regs.size := rfl
@[simp] theorem State.setCode_consumed (s : State) (c : BitVec 4) : (s.setCode c).regs.consumed = s.regs.consumed := rfl
@[simp] theorem State.setCode_produced (s : State) (c : BitVec 4) : (s.setCode c).regs.produced = s.regs.produced := rfl

/-! ### State.finish -/

@[simp] theorem State.finish_enc (s : State) (c : StatusCode) : (s.finish c).enc = s.enc := rfl
@[simp] theorem State.finish_dec (s : State) (c : StatusCode) : (s.finish c).dec = s.dec := rfl
@[simp] theorem State.finish_buf (s : State) (c : StatusCode) : (s.finish c).buf = s.buf := rfl
@[simp] theorem State.finish_outStream (s : State) (c : StatusCode) : (s.finish c).outStream = s.outStream := rfl
@[simp] theorem State.finish_inPos (s : State) (c : StatusCode) : (s.finish c).inPos = s.inPos := rfl
@[simp] theorem State.finish_params (s : State) (c : StatusCode) : (s.finish c).params = s.params := rfl
@[simp] theorem State.finish_bufEpoch (s : State) (c : StatusCode) : (s.finish c).bufEpoch = s.bufEpoch := rfl
@[simp] theorem State.finish_hostOps (s : State) (c : StatusCode) : (s.finish c).hostOps = s.hostOps := rfl
@[simp] theorem State.finish_replies (s : State) (c : StatusCode) : (s.finish c).replies = s.replies := rfl
@[simp] theorem State.finish_status (s : State) (c : StatusCode) : (s.finish c).regs.status = c.bits.zeroExtend 32 := rfl
@[simp] theorem State.finish_result (s : State) (c : StatusCode) : (s.finish c).regs.result = s.regs.result := rfl
@[simp] theorem State.finish_srcBase (s : State) (c : StatusCode) : (s.finish c).regs.srcBase = s.regs.srcBase := rfl
@[simp] theorem State.finish_srcLen (s : State) (c : StatusCode) : (s.finish c).regs.srcLen = s.regs.srcLen := rfl
@[simp] theorem State.finish_dstBase (s : State) (c : StatusCode) : (s.finish c).regs.dstBase = s.regs.dstBase := rfl
@[simp] theorem State.finish_dstLen (s : State) (c : StatusCode) : (s.finish c).regs.dstLen = s.regs.dstLen := rfl
@[simp] theorem State.finish_size (s : State) (c : StatusCode) : (s.finish c).regs.size = s.regs.size := rfl
@[simp] theorem State.finish_consumed (s : State) (c : StatusCode) : (s.finish c).regs.consumed = s.regs.consumed := rfl
@[simp] theorem State.finish_produced (s : State) (c : StatusCode) : (s.finish c).regs.produced = s.regs.produced := rfl

/-! ### State.setCounts -/

@[simp] theorem State.setCounts_enc (s : State) (c p : Word) : (s.setCounts c p).enc = s.enc := rfl
@[simp] theorem State.setCounts_dec (s : State) (c p : Word) : (s.setCounts c p).dec = s.dec := rfl
@[simp] theorem State.setCounts_buf (s : State) (c p : Word) : (s.setCounts c p).buf = s.buf := rfl
@[simp] theorem State.setCounts_outStream (s : State) (c p : Word) : (s.setCounts c p).outStream = s.outStream := rfl
@[simp] theorem State.setCounts_inPos (s : State) (c p : Word) : (s.setCounts c p).inPos = s.inPos := rfl
@[simp] theorem State.setCounts_params (s : State) (c p : Word) : (s.setCounts c p).params = s.params := rfl
@[simp] theorem State.setCounts_bufEpoch (s : State) (c p : Word) : (s.setCounts c p).bufEpoch = s.bufEpoch := rfl
@[simp] theorem State.setCounts_hostOps (s : State) (c p : Word) : (s.setCounts c p).hostOps = s.hostOps := rfl
@[simp] theorem State.setCounts_replies (s : State) (c p : Word) : (s.setCounts c p).replies = s.replies := rfl
@[simp] theorem State.setCounts_status (s : State) (c p : Word) : (s.setCounts c p).regs.status = s.regs.status := rfl
@[simp] theorem State.setCounts_result (s : State) (c p : Word) : (s.setCounts c p).regs.result = s.regs.result := rfl
@[simp] theorem State.setCounts_srcBase (s : State) (c p : Word) : (s.setCounts c p).regs.srcBase = s.regs.srcBase := rfl
@[simp] theorem State.setCounts_srcLen (s : State) (c p : Word) : (s.setCounts c p).regs.srcLen = s.regs.srcLen := rfl
@[simp] theorem State.setCounts_dstBase (s : State) (c p : Word) : (s.setCounts c p).regs.dstBase = s.regs.dstBase := rfl
@[simp] theorem State.setCounts_dstLen (s : State) (c p : Word) : (s.setCounts c p).regs.dstLen = s.regs.dstLen := rfl
@[simp] theorem State.setCounts_size (s : State) (c p : Word) : (s.setCounts c p).regs.size = s.regs.size := rfl
@[simp] theorem State.setCounts_consumed (s : State) (c p : Word) : (s.setCounts c p).regs.consumed = c := rfl
@[simp] theorem State.setCounts_produced (s : State) (c p : Word) : (s.setCounts c p).regs.produced = p := rfl

/-! ### State.refuseArgs -/

@[simp] theorem State.refuseArgs_enc (s : State) : (s.refuseArgs).enc = s.enc := rfl
@[simp] theorem State.refuseArgs_dec (s : State) : (s.refuseArgs).dec = s.dec := rfl
@[simp] theorem State.refuseArgs_buf (s : State) : (s.refuseArgs).buf = s.buf := rfl
@[simp] theorem State.refuseArgs_outStream (s : State) : (s.refuseArgs).outStream = s.outStream := rfl
@[simp] theorem State.refuseArgs_inPos (s : State) : (s.refuseArgs).inPos = s.inPos := rfl
@[simp] theorem State.refuseArgs_params (s : State) : (s.refuseArgs).params = s.params := rfl
@[simp] theorem State.refuseArgs_bufEpoch (s : State) : (s.refuseArgs).bufEpoch = s.bufEpoch := rfl
@[simp] theorem State.refuseArgs_hostOps (s : State) : (s.refuseArgs).hostOps = s.hostOps := rfl
@[simp] theorem State.refuseArgs_replies (s : State) : (s.refuseArgs).replies = s.replies := rfl
@[simp] theorem State.refuseArgs_status (s : State) : (s.refuseArgs).regs.status = 1#32 := rfl
@[simp] theorem State.refuseArgs_result (s : State) : (s.refuseArgs).regs.result = s.regs.result := rfl
@[simp] theorem State.refuseArgs_srcBase (s : State) : (s.refuseArgs).regs.srcBase = s.regs.srcBase := rfl
@[simp] theorem State.refuseArgs_srcLen (s : State) : (s.refuseArgs).regs.srcLen = s.regs.srcLen := rfl
@[simp] theorem State.refuseArgs_dstBase (s : State) : (s.refuseArgs).regs.dstBase = s.regs.dstBase := rfl
@[simp] theorem State.refuseArgs_dstLen (s : State) : (s.refuseArgs).regs.dstLen = s.regs.dstLen := rfl
@[simp] theorem State.refuseArgs_size (s : State) : (s.refuseArgs).regs.size = s.regs.size := rfl
@[simp] theorem State.refuseArgs_consumed (s : State) : (s.refuseArgs).regs.consumed = 0#32 := rfl
@[simp] theorem State.refuseArgs_produced (s : State) : (s.refuseArgs).regs.produced = 0#32 := rfl

/-! ### State.reply -/

@[simp] theorem State.reply_enc (s : State) (r : Reply) : (s.reply r).enc = s.enc := rfl
@[simp] theorem State.reply_dec (s : State) (r : Reply) : (s.reply r).dec = s.dec := rfl
@[simp] theorem State.reply_buf (s : State) (r : Reply) : (s.reply r).buf = s.buf := rfl
@[simp] theorem State.reply_outStream (s : State) (r : Reply) : (s.reply r).outStream = s.outStream := rfl
@[simp] theorem State.reply_inPos (s : State) (r : Reply) : (s.reply r).inPos = s.inPos := rfl
@[simp] theorem State.reply_params (s : State) (r : Reply) : (s.reply r).params = s.params := rfl
@[simp] theorem State.reply_bufEpoch (s : State) (r : Reply) : (s.reply r).bufEpoch = s.bufEpoch := rfl
@[simp] theorem State.reply_hostOps (s : State) (r : Reply) : (s.reply r).hostOps = s.hostOps := rfl
@[simp] theorem State.reply_replies (s : State) (r : Reply) : (s.reply r).replies = s.replies ++ [r] := rfl
@[simp] theorem State.reply_status (s : State) (r : Reply) : (s.reply r).regs.status = s.regs.status := rfl
@[simp] theorem State.reply_result (s : State) (r : Reply) : (s.reply r).regs.result = s.regs.result := rfl
@[simp] theorem State.reply_srcBase (s : State) (r : Reply) : (s.reply r).regs.srcBase = s.regs.srcBase := rfl
@[simp] theorem State.reply_srcLen (s : State) (r : Reply) : (s.reply r).regs.srcLen = s.regs.srcLen := rfl
@[simp] theorem State.reply_dstBase (s : State) (r : Reply) : (s.reply r).regs.dstBase = s.regs.dstBase := rfl
@[simp] theorem State.reply_dstLen (s : State) (r : Reply) : (s.reply r).regs.dstLen = s.regs.dstLen := rfl
@[simp] theorem State.reply_size (s : State) (r : Reply) : (s.reply r).regs.size = s.regs.size := rfl
@[simp] theorem State.reply_consumed (s : State) (r : Reply) : (s.reply r).regs.consumed = s.regs.consumed := rfl
@[simp] theorem State.reply_produced (s : State) (r : Reply) : (s.reply r).regs.produced = s.regs.produced := rfl

/-! ### State.placeCommand -/

@[simp] theorem State.placeCommand_enc (s : State) (w : Word) : (s.placeCommand w).enc = s.enc := rfl
@[simp] theorem State.placeCommand_dec (s : State) (w : Word) : (s.placeCommand w).dec = s.dec := rfl
@[simp] theorem State.placeCommand_buf (s : State) (w : Word) : (s.placeCommand w).buf = s.buf := rfl
@[simp] theorem State.placeCommand_outStream (s : State) (w : Word) : (s.placeCommand w).outStream = s.outStream := rfl
@[simp] theorem State.placeCommand_inPos (s : State) (w : Word) : (s.placeCommand w).inPos = s.inPos := rfl
@[simp] theorem State.placeCommand_params (s : State) (w : Word) : (s.placeCommand w).params = s.params := rfl
@[simp] theorem State.placeCommand_bufEpoch (s : State) (w : Word) : (s.placeCommand w).bufEpoch = s.bufEpoch := rfl
@[simp] theorem State.placeCommand_hostOps (s : State) (w : Word) : (s.placeCommand w).hostOps = .regWrite 0x04#8 w :: s.hostOps := rfl
@[simp] theorem State.placeCommand_replies (s : State) (w : Word) : (s.placeCommand w).replies = s.replies := rfl
@[simp] theorem State.placeCommand_status (s : State) (w : Word) : (s.placeCommand w).regs.status = s.regs.status := rfl
@[simp] theorem State.placeCommand_result (s : State) (w : Word) : (s.placeCommand w).regs.result = s.regs.result := rfl
@[simp] theorem State.placeCommand_srcBase (s : State) (w : Word) : (s.placeCommand w).regs.srcBase = s.regs.srcBase := rfl
@[simp] theorem State.placeCommand_srcLen (s : State) (w : Word) : (s.placeCommand w).regs.srcLen = s.regs.srcLen := rfl
@[simp] theorem State.placeCommand_dstBase (s : State) (w : Word) : (s.placeCommand w).regs.dstBase = s.regs.dstBase := rfl
@[simp] theorem State.placeCommand_dstLen (s : State) (w : Word) : (s.placeCommand w).regs.dstLen = s.regs.dstLen := rfl
@[simp] theorem State.placeCommand_size (s : State) (w : Word) : (s.placeCommand w).regs.size = s.regs.size := rfl
@[simp] theorem State.placeCommand_consumed (s : State) (w : Word) : (s.placeCommand w).regs.consumed = s.regs.consumed := rfl
@[simp] theorem State.placeCommand_produced (s : State) (w : Word) : (s.placeCommand w).regs.produced = s.regs.produced := rfl

/-! ### Decoder.latch -/

@[simp] theorem Decoder.latch_low (d : Decoder) (c : StatusCode) : (d.latch c).low = d.low := rfl
@[simp] theorem Decoder.latch_range (d : Decoder) (c : StatusCode) : (d.latch c).range = d.range := rfl
@[simp] theorem Decoder.latch_code (d : Decoder) (c : StatusCode) : (d.latch c).code = d.code := rfl
@[simp] theorem Decoder.latch_initialized (d : Decoder) (c : StatusCode) : (d.latch c).initialized = d.initialized := rfl
@[simp] theorem Decoder.latch_freq (d : Decoder) (c : StatusCode) : (d.latch c).freq = d.freq := rfl
@[simp] theorem Decoder.latch_err (d : Decoder) (c : StatusCode) : (d.latch c).err = true := rfl
@[simp] theorem Decoder.latch_errcode (d : Decoder) (c : StatusCode) : (d.latch c).errcode = c.bits := rfl

/-- Reading back a status code: its register value is its number (60_exceptions.md R215). -/
theorem StatusCode.bits_le_eight (c : StatusCode) : (c.bits.zeroExtend 32).toNat ≤ 8 := by
  cases c <;> decide

theorem StatusCode.bits_injective : Function.Injective StatusCode.bits := by
  intro a b h
  cases a <;> cases b <;> first | rfl | exact absurd h (by decide)

/-- A write to a register offset changes one configuration register at most, and nothing else of the state. -/
theorem State.storeReg_frame (s : State) (off : BitVec 8) (v : Word) :
    ∃ b l d m z, s.storeReg off v =
      { s with regs := { s.regs with srcBase := b, srcLen := l, dstBase := d, dstLen := m, size := z } } := by
  unfold State.storeReg
  split_ifs
  · exact ⟨v, s.regs.srcLen, s.regs.dstBase, s.regs.dstLen, s.regs.size, rfl⟩
  · exact ⟨s.regs.srcBase, v, s.regs.dstBase, s.regs.dstLen, s.regs.size, rfl⟩
  · exact ⟨s.regs.srcBase, s.regs.srcLen, v, s.regs.dstLen, s.regs.size, rfl⟩
  · exact ⟨s.regs.srcBase, s.regs.srcLen, s.regs.dstBase, v, s.regs.size, rfl⟩
  · exact ⟨s.regs.srcBase, s.regs.srcLen, s.regs.dstBase, s.regs.dstLen, v, rfl⟩
  · exact ⟨s.regs.srcBase, s.regs.srcLen, s.regs.dstBase, s.regs.dstLen, s.regs.size, rfl⟩

end Sys2Proof.Machine
end

