-- ==== Sys2Proof/Laws/Freq.lean ====
section
/-! SUPPORT. Laws of the frequency model: counters after an increment, `F` after `update`, what `locate` finds, and the
representation invariant (40_frequency_model.md). -/

namespace Sys2Proof.Machine

theorem counterAt_counterFile (n : Nat) (f : Nat → Nat) (i : Nat) (h : i < n) :
    counterAt (counterFile n f) i = f i % 2 ^ 41 := by
  simp [counterAt, counterFile, List.getD_eq_getElem?_getD, h]

theorem bumpFrom_getD (lo hi k : Nat) (cs : List Counter) (i : Nat) (h : i < cs.length) :
    (bumpFrom lo hi k cs).getD i 0#41 =
      if lo ≤ k + i ∧ k + i < hi then cs.getD i 0#41 + 1#41 else cs.getD i 0#41 := by
  induction cs generalizing k i with
  | nil => simp at h
  | cons c cs ih =>
    cases i with
    | zero => simp [bumpFrom]
    | succ i =>
      have := ih (k + 1) i (by simpa using h)
      rw [show k + 1 + i = k + (i + 1) by omega] at this
      simpa [bumpFrom] using this

/-- A counter after an increment of the file, as its register holds it. -/
theorem counterAt_bump {n : Nat} (lo hi : Nat) (v : Vector Counter n) (i : Nat) (h : i < n) :
    counterAt (bump lo hi v) i =
      if lo ≤ i ∧ i < hi then (counterAt v i + 1) % 2 ^ 41 else counterAt v i := by
  have := bumpFrom_getD lo hi 0 v.toArray.toList i (by simpa using h)
  simp only [Nat.zero_add] at this
  unfold counterAt bump
  simp only [this]
  split_ifs <;> simp [BitVec.toNat_add]

theorem counterAt_lt {n : Nat} (v : Vector Counter n) (i : Nat) : counterAt v i < 2 ^ 41 := BitVec.isLt _

namespace FreqModel

theorem Inv.mono {m : FreqModel} (h : m.Inv) {s t : Nat} (hst : s ≤ t) (ht : t ≤ 257) : m.F s ≤ m.F t := by
  induction t with
  | zero => simp_all
  | succ t ih =>
    rcases Nat.lt_or_ge s (t + 1) with hlt | hge
    · have := h.increasing t (by omega)
      have := ih (by omega) (by omega)
      omega
    · rw [show s = t + 1 by omega]

theorem Inv.lt {m : FreqModel} (h : m.Inv) {s t : Nat} (hst : s < t) (ht : t ≤ 257) : m.F s < m.F t := by
  have h₁ := h.increasing s (by omega)
  have h₂ := h.mono (show s + 1 ≤ t from hst) ht
  omega

theorem Inv.F_zero {m : FreqModel} (h : m.Inv) : m.F 0 = 0 := by
  have := h.blockStart 0 (by omega)
  have := h.firstBase
  simp_all [FreqModel.F]

/-- `F` grows by at least 1 a symbol (10_state.md R33). -/
theorem Inv.le_F {m : FreqModel} (h : m.Inv) {s : Nat} (hs : s ≤ 257) : s ≤ m.F s := by
  induction s with
  | zero => omega
  | succ s ih =>
    have := ih (by omega)
    have := h.increasing s (by omega)
    omega

theorem Inv.total_ge {m : FreqModel} (h : m.Inv) : 257 ≤ m.total := h.le_F (s := 257) (by omega)

/-- The terminal symbol keeps frequency 1 (40_frequency_model.md R124, 10_state.md R35). -/
theorem Inv.F_term {m : FreqModel} (h : m.Inv) : m.F 256 + 1 = m.total := by
  have h₁ := h.blockStart 16 (by omega)
  have h₂ := h.lastDelta
  simp only [FreqModel.total, FreqModel.F]
  norm_num at h₁ ⊢
  omega

/-- No counter exceeds the total (40_frequency_model.md R129). -/
theorem Inv.delta_le {m : FreqModel} (h : m.Inv) {s : Nat} (hs : s ≤ 257) : counterAt m.deltaFreq s ≤ m.total := by
  have := h.mono hs (Nat.le_refl 257)
  simp only [FreqModel.total]
  unfold FreqModel.F at this ⊢
  omega

theorem Inv.base_le {m : FreqModel} (h : m.Inv) {i : Nat} (hi : i ≤ 16) : counterAt m.baseFreq i ≤ m.total := by
  have h₁ := h.mono (show 16 * i ≤ 257 by omega) (Nat.le_refl 257)
  have h₂ : m.F (16 * i) = counterAt m.baseFreq i + counterAt m.deltaFreq (16 * i) := by
    simp [FreqModel.F]
  simp only [FreqModel.total]
  omega

/-- `deltaFreq` after `update`, no counter overflowing (40_frequency_model.md R126). -/
theorem Inv.delta_update {m : FreqModel} (h : m.Inv) (ht : m.total < 2 ^ 40) (bound : Nat) {s : Nat} (hs : s ≤ 257) :
    counterAt (m.update bound).deltaFreq s =
      counterAt m.deltaFreq s + if bound ≤ s ∧ s < 16 * ((bound + 15) / 16) then 1 else 0 := by
  have := h.delta_le hs
  simp only [FreqModel.update]
  rw [counterAt_bump _ _ _ _ (by omega)]
  split_ifs <;> omega

/-- `baseFreq` after `update`, no counter overflowing (40_frequency_model.md R126). -/
theorem Inv.base_update {m : FreqModel} (h : m.Inv) (ht : m.total < 2 ^ 40) (bound : Nat) {i : Nat} (hi : i ≤ 16) :
    counterAt (m.update bound).baseFreq i =
      counterAt m.baseFreq i + if (bound + 15) / 16 ≤ i then 1 else 0 := by
  have := h.base_le hi
  simp only [FreqModel.update]
  rw [counterAt_bump _ _ _ _ (by omega)]
  split_ifs <;> omega

/-- `F` after `update(bound)`: one larger from `bound` on, unchanged below (40_frequency_model.md R127). -/
theorem Inv.F_update {m : FreqModel} (h : m.Inv) (ht : m.total < 2 ^ 40) {bound : Nat} {j : Nat} (hj : j ≤ 257) :
    (m.update bound).F j = m.F j + if bound ≤ j then 1 else 0 := by
  simp only [FreqModel.F]
  rw [h.delta_update ht bound hj, h.base_update ht bound (by omega)]
  split_ifs <;> omega

/-- `update` keeps the representation invariant (40_frequency_model.md R128, 10_state.md R33, R35). -/
theorem Inv.update {m : FreqModel} (h : m.Inv) (ht : m.total < 2 ^ 40) {bound : Nat} (h₁ : 1 ≤ bound)
    (h₂ : bound ≤ 256) : (m.update bound).Inv where
  increasing s hs := by
    have := h.increasing s hs
    rw [h.F_update ht (by omega), h.F_update ht (by omega)]
    split_ifs <;> omega
  blockStart k hk := by
    rw [h.delta_update ht bound (by omega), h.blockStart k hk]
    split_ifs <;> omega
  lastDelta := by
    rw [h.delta_update ht bound (by omega), h.lastDelta]
    split_ifs <;> omega
  firstBase := by
    rw [h.base_update ht bound (by omega), h.firstBase]
    split_ifs <;> omega
  bounded := by
    unfold FreqModel.total at ht ⊢
    rw [h.F_update (by unfold FreqModel.total; exact ht) (by omega)]
    split_ifs <;> omega

theorem Inv.total_update {m : FreqModel} (h : m.Inv) (ht : m.total < 2 ^ 40) {bound : Nat} (h₂ : bound ≤ 257) :
    (m.update bound).total = m.total + 1 := by
  unfold FreqModel.total
  rw [h.F_update ht (by omega)]
  simp [h₂]

/-- After reset `F(s) = s` (10_state.md R34). -/
theorem initial_F {s : Nat} (hs : s ≤ 257) : FreqModel.initial.F s = s := by
  simp only [FreqModel.F, FreqModel.initial]
  rw [counterAt_counterFile _ _ _ (by omega), counterAt_counterFile _ _ _ (by omega)]
  omega

theorem initial_inv : FreqModel.initial.Inv where
  increasing s hs := by
    rw [initial_F (by omega), initial_F (by omega)]
    omega
  blockStart k hk := by
    simp only [FreqModel.initial]
    rw [counterAt_counterFile _ _ _ (by omega)]
    omega
  lastDelta := by
    simp only [FreqModel.initial]
    rw [counterAt_counterFile _ _ _ (by omega)]
    norm_num
  firstBase := by
    simp only [FreqModel.initial]
    rw [counterAt_counterFile _ _ _ (by omega)]
    norm_num
  bounded := by
    rw [FreqModel.total, initial_F (by omega)]
    omega

theorem locateFrom_le (m : FreqModel) (t n : Nat) : m.locateFrom t n ≤ n := by
  induction n with
  | zero => simp [locateFrom]
  | succ n ih =>
    simp only [locateFrom]
    split_ifs <;> omega

theorem F_locateFrom_le (m : FreqModel) (t n : Nat) (h : m.F 0 ≤ t) : m.F (m.locateFrom t n) ≤ t := by
  induction n with
  | zero => simpa [locateFrom] using h
  | succ n ih =>
    simp only [locateFrom]
    split_ifs with h₁
    · exact h₁
    · exact ih

theorem lt_F_of_locateFrom_lt (m : FreqModel) (t n s : Nat) (hs : s ≤ n) (h : m.locateFrom t n < s) : t < m.F s := by
  induction n with
  | zero => simp [locateFrom] at h; omega
  | succ n ih =>
    simp only [locateFrom] at h
    split_ifs at h with h₁
    · omega
    · rcases Nat.lt_or_ge n s with hlt | hge
      · rw [show s = n + 1 by omega]
        omega
      · exact ih hge h

theorem locate_le (m : FreqModel) (t : Nat) : m.locate t ≤ 256 := m.locateFrom_le t 256

/-- The symbol `locate` finds for a count inside a symbol's sub-interval (40_frequency_model.md R124). -/
theorem Inv.locate_eq {m : FreqModel} (h : m.Inv) {t s : Nat} (hs : s ≤ 256) (h₁ : m.F s ≤ t)
    (h₂ : s < 256 → t < m.F (s + 1)) : m.locate t = s := by
  have hle : m.locate t ≤ 256 := m.locate_le t
  have hF : m.F (m.locate t) ≤ t := m.F_locateFrom_le t 256 (by rw [h.F_zero]; omega)
  rcases Nat.lt_trichotomy (m.locate t) s with hlt | heq | hgt
  · have : t < m.F s := m.lt_F_of_locateFrom_lt t 256 s hs hlt
    omega
  · exact heq
  · have := h.mono (show s + 1 ≤ m.locate t from hgt) (by omega)
    have := h₂ (by omega)
    omega

/-- Every count below `total - 1` lies in exactly one byte's sub-interval. -/
theorem Inv.exists_symbol {m : FreqModel} (h : m.Inv) {t : Nat} (ht : t < m.total - 1) :
    ∃ s, s < 256 ∧ m.F s ≤ t ∧ t < m.F (s + 1) := by
  have hle : m.locate t ≤ 256 := m.locate_le t
  have hF : m.F (m.locate t) ≤ t := m.F_locateFrom_le t 256 (by rw [h.F_zero]; omega)
  have hterm := h.F_term
  have hne : m.locate t ≠ 256 := by
    intro hc
    rw [hc] at hF
    omega
  exact ⟨m.locate t, by omega, hF, m.lt_F_of_locateFrom_lt t 256 (m.locate t + 1) (by omega) (by unfold locate Config.term; omega)⟩

/-- The terminal symbol is found exactly for counts of `total - 1` or more (40_frequency_model.md R124). -/
theorem Inv.locate_term {m : FreqModel} (h : m.Inv) {t : Nat} (ht : m.total - 1 ≤ t) : m.locate t = 256 := by
  have := h.F_term
  exact h.locate_eq (by omega) (by omega) (by omega)

end FreqModel

end Sys2Proof.Machine
end

