-- ==== Sys2Proof/Laws/Coder.lean ====
section
/-! SUPPORT. Laws of narrowing and renormalisation: the machine's loop runs as the relation `RenormRun` says, the relation is
functional, and from a narrowed interval it ends after at most 9 iterations in an interval that meets 10_state.md R26
(41_range_encoder.md R141 to R146). -/

namespace Sys2Proof.Machine

/-- What a narrowed interval, and every interval inside the renormalisation loop, satisfies. -/
structure LoopInterval (low range : Nat) : Prop where
  pos  : 1 ≤ range
  fits : low + range ≤ 2 ^ 56
  edge : low + range = 2 ^ 56 → 2 ^ 56 - 2 ^ 48 ≤ low

/-! ### Bits of a coder register -/

theorem topByte_toNat (r : CoderReg) : (topByte r).toNat = r.toNat / 2 ^ 48 := by
  have := r.isLt
  simp only [topByte, BitVec.extractLsb'_toNat, Nat.shiftRight_eq_div_pow]
  omega

theorem topByte_eq (r : CoderReg) : topByte r = BitVec.ofNat 8 (r.toNat / 2 ^ 48) := by
  apply BitVec.eq_of_toNat_eq
  have := r.isLt
  rw [topByte_toNat, BitVec.toNat_ofNat]
  omega

theorem shiftLeft8_toNat (r : CoderReg) : (r <<< 8).toNat = r.toNat * 256 % 2 ^ 56 := by
  simp [BitVec.toNat_shiftLeft, Nat.shiftLeft_eq]

theorem shiftIn_toNat (r : CoderReg) (b : Byte) : (shiftIn r b).toNat = (r.toNat * 256 + b.toNat) % 2 ^ 56 := by
  have hb := b.isLt
  have h₁ : (b.zeroExtend 56).toNat = b.toNat := by simp [BitVec.toNat_setWidth]; omega
  have h₂ : (r <<< 8).toNat = 2 ^ 8 * (r.toNat % 2 ^ 48) := by
    rw [shiftLeft8_toNat]
    omega
  unfold shiftIn
  rw [BitVec.toNat_or, h₁, h₂, ← Nat.two_pow_add_eq_or_of_lt hb]
  omega

theorem forcedRange_toNat (low : CoderReg) :
    ((-low) &&& Config.bottom).toNat = (2 ^ 40 - low.toNat % 2 ^ 40) % 2 ^ 40 := by
  have hl := low.isLt
  have hb : Config.bottom.toNat = 2 ^ 40 - 1 := by decide
  rw [BitVec.toNat_and, hb, Nat.and_two_pow_sub_one_eq_mod, BitVec.toNat_neg]
  omega

theorem settled_iff (iv : Interval) : settled iv = true ↔ Settled iv.low.toNat iv.range.toNat := by
  unfold settled Settled
  rw [beq_iff_eq, ← BitVec.toNat_inj, topByte_toNat, topByte_toNat, BitVec.toNat_add]

theorem renormStops_iff (iv : Interval) :
    renormStops iv = true ↔ ¬ Settled iv.low.toNat iv.range.toNat ∧ 2 ^ 40 ≤ iv.range.toNat := by
  unfold renormStops
  rw [Bool.and_eq_true, decide_eq_true_iff, ← settled_iff, Bool.not_eq_true', Bool.not_eq_true]
  rfl

theorem renormShift_low (iv : Interval) : (renormShift iv).low.toNat = iv.low.toNat * 256 % 2 ^ 56 :=
  shiftLeft8_toNat _

theorem renormShift_range_settled (iv : Interval) (h : Settled iv.low.toNat iv.range.toNat) :
    (renormShift iv).range.toNat = iv.range.toNat * 256 % 2 ^ 56 := by
  rw [← settled_iff] at h
  simp only [renormShift, renormRange, h, if_true, shiftLeft8_toNat]

theorem renormShift_range_forced (iv : Interval) (h : ¬ Settled iv.low.toNat iv.range.toNat) :
    (renormShift iv).range.toNat = (2 ^ 40 - iv.low.toNat % 2 ^ 40) % 2 ^ 40 * 256 % 2 ^ 56 := by
  rw [← settled_iff] at h
  simp only [renormShift, renormRange, h, Bool.false_eq_true, if_false, shiftLeft8_toNat, forcedRange_toNat]

/-! ### The loop as a relation -/

/-- The transfers of a renormalisation, in order; an error is the port at the transfer that found no byte. -/
def feedAll {σ : Type} (transfer : Byte → σ → Option σ) : List Byte → σ → Except σ σ
  | [], port => .ok port
  | b :: bs, port =>
    match transfer b port with
    | some port' => feedAll transfer bs port'
    | none => .error port

/-- What the machine's loop answers where the spec's loop ends. -/
theorem renorm_of_run {σ : Type} (transfer : Byte → σ → Option σ) {low range low' range' : Nat} {out : List Byte}
    (h : RenormRun low range out low' range') :
    ∀ (fuel : Nat) (iv : Interval) (port : σ), iv.low.toNat = low → iv.range.toNat = range → out.length < fuel →
      renorm transfer fuel iv port =
        match feedAll transfer out port with
        | .ok port' => .done ⟨BitVec.ofNat 56 low', BitVec.ofNat 56 range'⟩ port'
        | .error port' => .starved port' := by
  induction h with
  | stop hs hr =>
    rintro (_ | fuel) iv port rfl rfl hf
    · simp at hf
    · have := (renormStops_iff iv).2 ⟨hs, hr⟩
      simp [renorm, this, feedAll]
  | caseA hs _ ih =>
    rintro (_ | fuel) iv port rfl rfl hf
    · simp at hf
    · have hstop : ¬ renormStops iv = true := fun hc => ((renormStops_iff iv).1 hc).1 hs
      simp only [renorm, hstop, feedAll, topByte_eq]
      cases transfer (BitVec.ofNat 8 (iv.low.toNat / 2 ^ 48)) port with
      | none => simp
      | some port' =>
        exact ih fuel _ port' (renormShift_low iv) (renormShift_range_settled iv hs) (by simpa using hf)
  | caseB hs hr _ ih =>
    rintro (_ | fuel) iv port rfl rfl hf
    · simp at hf
    · have hstop : ¬ renormStops iv = true := fun hc => absurd ((renormStops_iff iv).1 hc).2 (by omega)
      simp only [renorm, hstop, feedAll, topByte_eq]
      cases transfer (BitVec.ofNat 8 (iv.low.toNat / 2 ^ 48)) port with
      | none => simp
      | some port' =>
        exact ih fuel _ port' (renormShift_low iv) (renormShift_range_forced iv hs) (by simpa using hf)

/-- The spec's loop has one outcome. -/
theorem RenormRun.unique {low range l₁ r₁ l₂ r₂ : Nat} {o₁ o₂ : List Byte} (h₁ : RenormRun low range o₁ l₁ r₁)
    (h₂ : RenormRun low range o₂ l₂ r₂) : o₁ = o₂ ∧ l₁ = l₂ ∧ r₁ = r₂ := by
  induction h₁ generalizing o₂ l₂ r₂ with
  | stop hs hr =>
    cases h₂ with
    | stop => simp
    | caseA hs' => exact absurd hs' hs
    | caseB _ hr' => omega
  | caseA hs _ ih =>
    cases h₂ with
    | stop hs' => exact absurd hs hs'
    | caseA _ h => obtain ⟨rfl, rfl, rfl⟩ := ih h; simp
    | caseB hs' => exact absurd hs hs'
  | caseB hs hr _ ih =>
    cases h₂ with
    | stop _ hr' => omega
    | caseA hs' => exact absurd hs' hs
    | caseB _ _ h => obtain ⟨rfl, rfl, rfl⟩ := ih h; simp

/-! ### The loop ends -/

/-- One settled iteration keeps the loop's invariant (41_range_encoder.md R146). -/
theorem LoopInterval.caseA {low range : Nat} (h : LoopInterval low range) (hs : Settled low range) :
    range < 2 ^ 48 ∧ range * 256 % 2 ^ 56 = range * 256 ∧
      LoopInterval (low * 256 % 2 ^ 56) (range * 256 % 2 ^ 56) := by
  obtain ⟨h₁, h₂, h₃⟩ := h
  unfold Settled at hs
  have hlt : low + range < 2 ^ 56 := by
    by_contra hc
    have := h₃ (by omega)
    omega
  rw [Nat.mod_eq_of_lt hlt] at hs
  refine ⟨by omega, by omega, ⟨by omega, by omega, fun _ => by omega⟩⟩

/-- A forced iteration leaves an interval that ends exactly at `2^56` (41_range_encoder.md R146). -/
theorem LoopInterval.caseB {low range : Nat} (h : LoopInterval low range) (hs : ¬ Settled low range)
    (hr : range < 2 ^ 40) :
    1 ≤ (2 ^ 40 - low % 2 ^ 40) % 2 ^ 40 ∧ (2 ^ 40 - low % 2 ^ 40) % 2 ^ 40 ≤ range ∧
      low * 256 % 2 ^ 56 + (2 ^ 40 - low % 2 ^ 40) % 2 ^ 40 * 256 % 2 ^ 56 = 2 ^ 56 ∧
      (2 ^ 40 - low % 2 ^ 40) % 2 ^ 40 * 256 % 2 ^ 56 = (2 ^ 40 - low % 2 ^ 40) % 2 ^ 40 * 256 ∧
      LoopInterval (low * 256 % 2 ^ 56) ((2 ^ 40 - low % 2 ^ 40) % 2 ^ 40 * 256 % 2 ^ 56) := by
  obtain ⟨h₁, h₂, h₃⟩ := h
  unfold Settled at hs
  have hM : low / 2 ^ 48 + 1 = (low + range) / 2 ^ 48 := by
    rcases Nat.lt_or_ge (low + range) (2 ^ 56) with hlt | hge
    · rw [Nat.mod_eq_of_lt hlt] at hs
      omega
    · have := h₃ (by omega)
      omega
  generalize hf : (2 ^ 40 - low % 2 ^ 40) % 2 ^ 40 = f
  have hf₁ : 1 ≤ f ∧ f ≤ range ∧ low + f = (low / 2 ^ 48 + 1) * 2 ^ 48 := by omega
  refine ⟨hf₁.1, hf₁.2.1, by omega, by omega, ⟨by omega, by omega, fun _ => by omega⟩⟩

/-- What the spec's loop ends with, in at most `n` iterations (41_range_encoder.md R146 (5), (6)). -/
def EndsWithin (n low range : Nat) : Prop :=
  ∃ out low' range', RenormRun low range out low' range' ∧ out.length ≤ n ∧
    2 ^ 40 ≤ range' ∧ low' + range' ≤ 2 ^ 56 ∧ (low' + range' = 2 ^ 56 → 2 ^ 56 - 2 ^ 48 ≤ low')

theorem LoopInterval.endsWithin_stop {low range : Nat} (h : LoopInterval low range) (hs : ¬ Settled low range)
    (hr : 2 ^ 40 ≤ range) (n : Nat) : EndsWithin n low range :=
  ⟨[], low, range, .stop hs hr, by simp, hr, h.fits, h.edge⟩

theorem EndsWithin.caseA {n low range : Nat} (hs : Settled low range)
    (h : EndsWithin n (low * 256 % 2 ^ 56) (range * 256 % 2 ^ 56)) : EndsWithin (n + 1) low range := by
  obtain ⟨out, l, r, h₁, h₂, h₃⟩ := h
  exact ⟨_, l, r, .caseA hs h₁, by simpa using h₂, h₃⟩

theorem EndsWithin.caseB {n low range : Nat} (hs : ¬ Settled low range) (hr : range < 2 ^ 40)
    (h : EndsWithin n (low * 256 % 2 ^ 56) ((2 ^ 40 - low % 2 ^ 40) % 2 ^ 40 * 256 % 2 ^ 56)) :
    EndsWithin (n + 1) low range := by
  obtain ⟨out, l, r, h₁, h₂, h₃⟩ := h
  exact ⟨_, l, r, .caseB hs hr h₁, by simpa using h₂, h₃⟩

theorem EndsWithin.mono {n k low range : Nat} (h : EndsWithin n low range) (hk : n ≤ k) : EndsWithin k low range := by
  obtain ⟨out, l, r, h₁, h₂, h₃⟩ := h
  exact ⟨out, l, r, h₁, h₂.trans hk, h₃⟩

/-- Iterations after a forced one (41_range_encoder.md R146 (3), (5)). -/
theorem LoopInterval.endsWithin_edge (j : Nat) : ∀ {low range : Nat}, LoopInterval low range → low + range = 2 ^ 56 →
    2 ^ 40 ≤ range * 256 ^ j → EndsWithin j low range := by
  induction j with
  | zero =>
    intro low range h he hr
    have := h.edge he
    have hs : ¬ Settled low range := by
      unfold Settled
      rw [he]
      omega
    exact h.endsWithin_stop hs (by omega) 0
  | succ j ih =>
    intro low range h he hr
    have hl := h.edge he
    have hs : ¬ Settled low range := by
      unfold Settled
      rw [he]
      omega
    rcases Nat.lt_or_ge range (2 ^ 40) with hlt | hge
    · obtain ⟨h₁, h₂, h₃, h₄, h₅⟩ := h.caseB hs hlt
      refine .caseB hs hlt (ih h₅ h₃ ?_)
      rw [h₄]
      have hf : (2 ^ 40 - low % 2 ^ 40) % 2 ^ 40 = range := by omega
      rw [hf, Nat.mul_assoc, ← Nat.pow_succ']
      exact hr
    · exact h.endsWithin_stop hs hge _

/-- From a narrowed interval the loop ends after at most 9 iterations (41_range_encoder.md R146 (5)). -/
theorem LoopInterval.endsWithin_of_range (k : Nat) : ∀ {low range : Nat}, LoopInterval low range → k ≤ 6 →
    2 ^ 48 ≤ range * 256 ^ k → EndsWithin (k + 3) low range := by
  induction k with
  | zero =>
    intro low range h _ hr
    have hs : ¬ Settled low range := fun hs => by
      have := (h.caseA hs).1
      omega
    exact h.endsWithin_stop hs (by omega) _
  | succ k ih =>
    intro low range h hk hr
    by_cases hs : Settled low range
    · obtain ⟨h₁, h₂, h₃⟩ := h.caseA hs
      refine .caseA hs (ih h₃ (by omega) ?_)
      rw [h₂, Nat.mul_assoc, ← Nat.pow_succ']
      exact hr
    · rcases Nat.lt_or_ge range (2 ^ 40) with hlt | hge
      · obtain ⟨h₁, h₂, h₃, h₄, h₅⟩ := h.caseB hs hlt
        have hk1 : 1 ≤ k := by
          by_contra hc
          obtain rfl : k = 0 := by omega
          omega
        refine (EndsWithin.caseB hs hlt (LoopInterval.endsWithin_edge 4 h₅ h₃ ?_)).mono (by omega)
        rw [h₄]
        omega
      · exact h.endsWithin_stop hs hge _

theorem LoopInterval.endsWithin {low range : Nat} (h : LoopInterval low range) : EndsWithin 9 low range :=
  h.endsWithin_of_range 6 (by omega) (by have := h.pos; omega)

/-! ### Narrowing -/

/-- No division by zero and no zero width (41_range_encoder.md R143). -/
theorem unitWidth_pos {m : FreqModel} {iv : Interval} (hi : iv.Inv) (hm : m.Inv) : 1 ≤ unitWidth m iv.range := by
  have h₁ := hm.total_ge
  have h₂ := hm.bounded
  have h₃ := hi.wide
  exact (Nat.le_div_iff_mul_le (by omega)).2 (by omega)

/-- The part of the range the symbols share (41_range_encoder.md R141). -/
theorem unitWidth_mul_total_le (m : FreqModel) (range : CoderReg) : unitWidth m range * m.total ≤ range.toNat :=
  Nat.div_mul_le_self _ _

theorem F_mul_unit_le {m : FreqModel} (hm : m.Inv) (range : CoderReg) {s : Nat} (hs : s ≤ 257) :
    m.F s * unitWidth m range ≤ range.toNat := by
  have h₁ := Nat.mul_le_mul_right (unitWidth m range) (hm.mono hs (Nat.le_refl 257))
  have h₂ := unitWidth_mul_total_le m range
  rw [Nat.mul_comm] at h₂
  exact h₁.trans h₂

/-- Narrowing never truncates (41_range_encoder.md R141, R142). -/
theorem narrow_toNat {m : FreqModel} {iv : Interval} (hi : iv.Inv) (hm : m.Inv) {s : Nat} (hs : s ≤ 256) :
    (narrow m iv s).low.toNat = iv.low.toNat + m.F s * (iv.range.toNat / m.total) ∧
    (narrow m iv s).range.toNat = iv.range.toNat / m.total * (m.F (s + 1) - m.F s) := by
  have h₁ := F_mul_unit_le hm iv.range (s := s + 1) (by omega)
  have h₂ := hi.fits
  have h₃ := iv.range.isLt
  have h₄ := unitWidth_pos hi hm
  have h₅ := Nat.mul_lt_mul_of_pos_right (hm.increasing s hs) h₄
  have h₆ : unitWidth m iv.range * (m.F (s + 1) - m.F s) ≤ iv.range.toNat := by
    refine le_trans ?_ h₁
    rw [Nat.mul_comm]
    exact Nat.mul_le_mul_right _ (Nat.sub_le _ _)
  unfold unitWidth at h₁ h₄ h₅ h₆
  simp only [narrow, FreqModel.cumulativeRange, unitWidth, BitVec.toNat_ofNat]
  exact ⟨Nat.mod_eq_of_lt (by omega), Nat.mod_eq_of_lt (by omega)⟩

/-- A narrowed interval lies inside the old one and is not empty (41_range_encoder.md R141). -/
theorem narrow_inside {m : FreqModel} {iv : Interval} (hi : iv.Inv) (hm : m.Inv) {s : Nat} (hs : s ≤ 256) :
    iv.low.toNat ≤ (narrow m iv s).low.toNat ∧ 1 ≤ (narrow m iv s).range.toNat ∧
    (narrow m iv s).low.toNat + (narrow m iv s).range.toNat = iv.low.toNat + m.F (s + 1) * unitWidth m iv.range ∧
    (narrow m iv s).low.toNat + (narrow m iv s).range.toNat ≤ iv.low.toNat + iv.range.toNat := by
  obtain ⟨h₁, h₂⟩ := narrow_toNat hi hm hs
  have h₃ := F_mul_unit_le hm iv.range (s := s + 1) (by omega)
  have h₄ := unitWidth_pos hi hm
  have h₅ := hm.increasing s hs
  have h₆ : (narrow m iv s).low.toNat + (narrow m iv s).range.toNat =
      iv.low.toNat + m.F (s + 1) * unitWidth m iv.range := by
    rw [h₁, h₂]
    unfold unitWidth
    have : m.F s * (iv.range.toNat / m.total) + iv.range.toNat / m.total * (m.F (s + 1) - m.F s) =
        m.F (s + 1) * (iv.range.toNat / m.total) := by
      rw [Nat.mul_comm (iv.range.toNat / m.total), ← Nat.add_mul]
      congr 1
      omega
    omega
  refine ⟨by omega, ?_, h₆, by omega⟩
  rw [h₂]
  exact Nat.mul_pos h₄ (by omega)

theorem narrow_loopInterval {m : FreqModel} {iv : Interval} (hi : iv.Inv) (hm : m.Inv) {s : Nat} (hs : s ≤ 256) :
    LoopInterval (narrow m iv s).low.toNat (narrow m iv s).range.toNat := by
  obtain ⟨h₁, h₂, _, h₄⟩ := narrow_inside hi hm hs
  have := hi.fits
  have := hi.edge
  exact ⟨h₂, by omega, fun _ => by omega⟩

/-- Every symbol can be coded, in at most 9 transfers, and leaves an interval that meets 10_state.md R26. -/
theorem codesSymbol_exists {m : FreqModel} {iv : Interval} (hi : iv.Inv) (hm : m.Inv) {s : Nat} (hs : s ≤ 256) :
    ∃ (out : List Byte) (low' range' : CoderReg),
      CodesSymbol m iv.low.toNat iv.range.toNat s out low'.toNat range'.toNat ∧ out.length ≤ 9 ∧
      Interval.Inv ⟨low', range'⟩ := by
  obtain ⟨out, l, r, h₁, h₂, h₃, h₄, h₅⟩ := (narrow_loopInterval hi hm hs).endsWithin
  obtain ⟨hl, hr⟩ := narrow_toNat hi hm hs
  have hr' : r < 2 ^ 56 := by
    by_contra hc
    have := h₅ (by omega)
    omega
  have hl' : l < 2 ^ 56 := by omega
  have e₁ : (BitVec.ofNat 56 l).toNat = l := by
    rw [BitVec.toNat_ofNat]
    exact Nat.mod_eq_of_lt hl'
  have e₂ : (BitVec.ofNat 56 r).toNat = r := by
    rw [BitVec.toNat_ofNat]
    exact Nat.mod_eq_of_lt hr'
  refine ⟨out, BitVec.ofNat 56 l, BitVec.ofNat 56 r, ?_, h₂, ⟨?_, ?_, ?_⟩⟩
  · rw [hl, hr] at h₁
    rw [e₁, e₂]
    exact h₁
  · simpa only [e₂] using h₃
  · simpa only [e₁, e₂] using h₄
  · simpa only [e₁, e₂] using h₅

/-- How the machine codes a symbol the spec's way. -/
theorem renorm_narrow {σ : Type} (transfer : Byte → σ → Option σ) {m : FreqModel} {iv : Interval} (hi : iv.Inv)
    (hm : m.Inv) {s : Nat} (hs : s ≤ 256) {out : List Byte} {low' range' : CoderReg}
    (h : CodesSymbol m iv.low.toNat iv.range.toNat s out low'.toNat range'.toNat) (fuel : Nat) (hf : out.length < fuel)
    (port : σ) :
    renorm transfer fuel (narrow m iv s) port =
      match feedAll transfer out port with
      | .ok port' => .done ⟨low', range'⟩ port'
      | .error port' => .starved port' := by
  obtain ⟨hl, hr⟩ := narrow_toNat hi hm hs
  have := renorm_of_run transfer h fuel _ port hl hr hf
  simpa only [BitVec.ofNat_toNat, BitVec.setWidth_eq] using this

end Sys2Proof.Machine
end

