-- ==== Sys2Proof/Laws/Memory.lean ====
section
/-! SUPPORT. Laws of `BUF`: a read after a write, the bytes a list of writes changes, and the canonical form, which every
memory operation keeps. -/

namespace Sys2Proof.Machine

@[simp] theorem Memory.read_nil (a : Nat) : Memory.read [] a = none := rfl

theorem Memory.read_write (m : Memory) (a b : Nat) (v : Byte) :
    (m.write a v).read b = if b = a then some v else m.read b := by
  induction m with
  | nil => simp [Memory.write, Memory.read]
  | cons c m ih =>
    obtain ⟨k, w⟩ := c
    unfold Memory.write
    split_ifs with h₁ h₂ h₃ h₃ <;> simp only [Memory.read, ih] <;> split_ifs <;> simp_all

/-- The byte just written reads back. -/
@[simp] theorem Memory.read_write_same (m : Memory) (a : Nat) (v : Byte) : (m.write a v).read a = some v := by
  simp [Memory.read_write]

/-- Every other byte reads as before. -/
theorem Memory.read_write_other (m : Memory) {a b : Nat} (v : Byte) (h : b ≠ a) : (m.write a v).read b = m.read b := by
  simp [Memory.read_write, h]

/-- Where the entries of a written memory come from. -/
theorem Memory.mem_write {m : Memory} {a : Nat} {v : Byte} {c : Host.Cell} (h : c ∈ m.write a v) :
    c = (a, v) ∨ c ∈ m := by
  induction m with
  | nil => simpa [Memory.write] using h
  | cons d m ih =>
    obtain ⟨k, w⟩ := d
    unfold Memory.write at h
    split_ifs at h <;> simp only [List.mem_cons] at h ⊢ <;> tauto

/-- A write keeps the canonical form. -/
theorem Memory.wf_write {m : Memory} (a : Nat) (v : Byte) (h : m.wf) : (m.write a v).wf := by
  induction m with
  | nil => simp [Memory.wf, Memory.write]
  | cons d m ih =>
    obtain ⟨k, w⟩ := d
    have hd := List.pairwise_cons.1 h
    unfold Memory.write
    split_ifs with h₁ h₂
    · refine List.pairwise_cons.2 ⟨?_, h⟩
      intro c hc
      rcases List.mem_cons.1 hc with rfl | hc
      · exact h₁
      · exact Nat.lt_trans h₁ (hd.1 c hc)
    · subst h₂
      exact List.pairwise_cons.2 ⟨hd.1, hd.2⟩
    · refine List.pairwise_cons.2 ⟨?_, ih hd.2⟩
      intro c hc
      rcases Memory.mem_write hc with rfl | hc
      · change k < a
        omega
      · exact hd.1 c hc

theorem Memory.writeList_append (m : Memory) (a : Nat) (xs ys : List Byte) :
    m.writeList a (xs ++ ys) = (m.writeList a xs).writeList (a + xs.length) ys := by
  induction xs generalizing m a with
  | nil => rfl
  | cons x xs ih =>
    simp only [List.cons_append, Memory.writeList, ih, List.length_cons]
    congr 1
    omega

/-- Bytes outside the stored region read as before. -/
theorem Memory.read_writeList_outside (m : Memory) (base a : Nat) (bs : List Byte)
    (h : a < base ∨ base + bs.length ≤ a) : (m.writeList base bs).read a = m.read a := by
  induction bs generalizing m base with
  | nil => rfl
  | cons b bs ih =>
    simp only [List.length_cons] at h
    rw [Memory.writeList, ih _ _ (by omega), Memory.read_write_other _ _ (by omega)]

/-- The stored bytes read back. -/
theorem Memory.read_writeList_inside (m : Memory) (base i : Nat) (bs : List Byte) (h : i < bs.length) :
    (m.writeList base bs).read (base + i) = some bs[i] := by
  induction bs generalizing m base i with
  | nil => simp at h
  | cons b bs ih =>
    rw [Memory.writeList]
    cases i with
    | zero => rw [Memory.read_writeList_outside _ _ _ _ (by omega)]; simp
    | succ i =>
      have := ih (m.write base b) (base + 1) i (by simpa using h)
      rw [show base + 1 + i = base + (i + 1) by omega] at this
      simpa using this

/-- A list of writes is what `Stored` says. -/
theorem Memory.stored_writeList (m : Memory) (base : Nat) (bs : List Byte) : Stored m (m.writeList base bs) base bs :=
  ⟨fun i h => m.read_writeList_inside base i bs h, fun a h => m.read_writeList_outside base a bs h⟩

/-- `BUF` after reset is in canonical form. -/
theorem State.reset_wf : State.reset.buf.wf := List.Pairwise.nil

/-- A list of writes keeps the canonical form. -/
theorem Memory.wf_writeList {m : Memory} (a : Nat) (bs : List Byte) (h : m.wf) : (m.writeList a bs).wf := by
  induction bs generalizing m a with
  | nil => exact h
  | cons b bs ih => exact ih _ (Memory.wf_write a b h)

/-- Where the entries of a memory come from after a list of writes. -/
theorem Memory.mem_writeList {m : Memory} {a : Nat} {bs : List Byte} {c : Host.Cell} (h : c ∈ m.writeList a bs) :
    (a ≤ c.1 ∧ c.1 < a + bs.length) ∨ c ∈ m := by
  induction bs generalizing m a with
  | nil => exact .inr h
  | cons b bs ih =>
    rcases ih h with h | h
    · left
      simp only [List.length_cons]
      omega
    · rcases Memory.mem_write h with rfl | h
      · left
        simp
      · exact .inr h

@[simp] theorem State.bufSlice_length (s : State) (a n : Nat) : (s.bufSlice a n).length = n := by
  induction n generalizing a with
  | zero => rfl
  | succ n ih => simp [State.bufSlice, ih]

theorem State.bufSlice_getElem (s : State) (a n i : Nat) (h : i < (s.bufSlice a n).length) :
    (s.bufSlice a n)[i] = s.bufByte (a + i) := by
  induction n generalizing a i with
  | zero => simp at h
  | succ n ih =>
    cases i with
    | zero => rfl
    | succ i =>
      have := ih (a + 1) i (by simpa using h)
      simp only [State.bufSlice, List.getElem_cons_succ, this]
      congr 1
      omega

/-- A byte that is listed reads as listed; one that is not is the free value of its address. -/
theorem State.bufByte_eq (s : State) (a : Nat) : s.bufByte a = (s.buf.read a).getD (Config.unwrittenByte s.bufEpoch a) := by
  unfold State.bufByte
  cases s.buf.read a <;> rfl

end Sys2Proof.Machine
end

