-- ==== Sys2Proof/Laws/Units.lean ====
section
/-! SUPPORT. Laws of the two coder units: what the machine's encode and decode steps answer, in the terms of Safety.lean
(41_range_encoder.md R148, 42_range_decoder.md R160 to R166). -/

namespace Sys2Proof.Machine

theorem initial_interval_inv : Interval.Inv ⟨Config.initialLow, Config.initialRange⟩ :=
  ⟨by decide, by decide, by decide⟩

theorem Encoder.initial_inv : Encoder.initial.Inv := ⟨initial_interval_inv, FreqModel.initial_inv, by decide⟩

theorem Decoder.initial_inv : Decoder.initial.Inv :=
  ⟨initial_interval_inv, FreqModel.initial_inv, fun _ => rfl, fun h => absurd h (by decide)⟩

theorem not_full (m : FreqModel) (h : m.total < 2 ^ 40) : ¬ Config.maxRange ≤ m.total := Nat.not_le.2 h

theorem not_term {s : Nat} (h : s < 256) : ¬ s = Config.term := Nat.ne_of_lt h

/-! ### The encoder -/

/-- The encoder's port takes every byte (20_memory.md R67). -/
theorem feedAll_emit (out port : List Byte) : feedAll emit out port = .ok (port ++ out) := by
  induction out generalizing port with
  | nil => simp [feedAll]
  | cons b out ih => simp [feedAll, emit, ih]

/-- A byte can always be coded between the two faults, in at most 9 output bytes (41_range_encoder.md R146, R148). -/
theorem EncodesByte.exists {e : Encoder} (h : e.Inv) (b : Byte) (hf : e.flushed = false) (ht : e.freq.total < 2 ^ 40) :
    ∃ out e', EncodesByte e b out e' := by
  have hb := b.isLt
  obtain ⟨out, l, r, h₁, _, _⟩ := codesSymbol_exists h.interval h.freq (s := b.toNat) (by omega)
  exact ⟨out, _, hf, ht, l, r, h₁, rfl⟩

/-- What coding a byte keeps (10_state.md R26, R27; 41_range_encoder.md R146 (5), (6)). -/
theorem EncodesByte.inv {e e' : Encoder} {b : Byte} {out : List Byte} (he : EncodesByte e b out e') (h : e.Inv) :
    out.length ≤ 9 ∧ e'.Inv ∧ e'.flushed = false ∧ e'.freq.total = e.freq.total + 1 := by
  obtain ⟨_, ht, l, r, h₁, rfl⟩ := he
  have hb := b.isLt
  obtain ⟨out', l', r', h₁', hlen, hi⟩ := codesSymbol_exists h.interval h.freq (s := b.toNat) (by omega)
  obtain ⟨rfl, hl, hr⟩ := h₁.unique h₁'
  obtain rfl := BitVec.eq_of_toNat_eq hl
  obtain rfl := BitVec.eq_of_toNat_eq hr
  exact ⟨hlen, ⟨hi, h.freq.update ht (by omega) (by omega), fun hc => absurd hc (by simp)⟩, rfl,
    h.freq.total_update ht (by omega)⟩

/-- The encode step answers what the spec's relation says. -/
theorem encodeByte_of_encodes {e e' : Encoder} {b : Byte} {out : List Byte} (he : EncodesByte e b out e') (h : e.Inv) :
    encodeByte b e = .coded e' out := by
  have hlen := (he.inv h).1
  obtain ⟨hf, ht, l, r, h₁, rfl⟩ := he
  have hb := b.isLt
  have hge := h.freq.total_ge
  have hr := renorm_narrow emit h.interval h.freq (by omega) h₁ Config.renormFuel
    (show out.length < 17 by omega) []
  rw [feedAll_emit] at hr
  unfold encodeByte
  rw [if_neg (by simp [hf]), if_neg (not_full e.freq ht), if_neg (by omega), hr]
  simp [hf]

theorem encodeByte_flushed {e : Encoder} (b : Byte) (hf : e.flushed = true) : encodeByte b e = .raised .seq := by
  simp [encodeByte, hf]

theorem encodeByte_full {e : Encoder} (b : Byte) (hf : e.flushed = false) (ht : 2 ^ 40 ≤ e.freq.total) :
    encodeByte b e = .raised .freq := by
  unfold encodeByte
  rw [if_neg (by simp [hf]), if_pos (show Config.maxRange ≤ e.freq.total from ht)]

/-- Everything an encode step can do between commands: code the byte, or raise one of its two faults
(60_exceptions.md R227). -/
theorem encodeByte_cases {e : Encoder} (h : e.Inv) (b : Byte) :
    (e.flushed = true ∧ encodeByte b e = .raised .seq) ∨
    (e.flushed = false ∧ 2 ^ 40 ≤ e.freq.total ∧ encodeByte b e = .raised .freq) ∨
    ∃ out e', EncodesByte e b out e' ∧ encodeByte b e = .coded e' out := by
  cases hf : e.flushed
  · rcases Nat.lt_or_ge e.freq.total (2 ^ 40) with ht | ht
    · obtain ⟨out, e', he⟩ := EncodesByte.exists h b hf ht
      exact .inr (.inr ⟨out, e', he, encodeByte_of_encodes he h⟩)
    · exact .inr (.inl ⟨rfl, ht, encodeByte_full b hf ht⟩)
  · exact .inl ⟨rfl, encodeByte_flushed b hf⟩

/-- The run of encode steps over bytes that can all be coded. -/
theorem encodeRun_of_encodes {e e' : Encoder} {bs out : List Byte} (he : EncodesAll e bs out e') (h : e.Inv) :
    encodeRun bs e = ⟨e', out, bs.length, .ok .ok⟩ ∧ e'.Inv := by
  induction he with
  | nil => exact ⟨rfl, h⟩
  | cons hb _ ih =>
    obtain ⟨ih, hi⟩ := ih (hb.inv h).2.1
    exact ⟨by simp [encodeRun, encodeByte_of_encodes hb h, ih], hi⟩

/-- A run of encode steps ends in a unit that meets its invariant, with a status code of the spec, after coding the first
`count` bytes. -/
theorem encodeRun_spec (bs : List Byte) : ∀ {e : Encoder}, e.Inv →
    ∃ k out e' c, encodeRun bs e = ⟨e', out, k, .ok c⟩ ∧ k ≤ bs.length ∧ EncodesAll e (bs.take k) out e' ∧ e'.Inv := by
  induction bs with
  | nil => exact fun {e} h => ⟨0, [], e, .ok, rfl, by simp, .nil, h⟩
  | cons b bs ih =>
    intro e h
    rcases encodeByte_cases h b with ⟨_, hr⟩ | ⟨_, _, hr⟩ | ⟨out, e₁, he, hr⟩
    · exact ⟨0, [], e, .seq, by simp [encodeRun, hr], by simp, .nil, h⟩
    · exact ⟨0, [], e, .freq, by simp [encodeRun, hr], by simp, .nil, h⟩
    · obtain ⟨k, outs, e₂, c, h₁, h₂, h₃, h₄⟩ := ih (he.inv h).2.1
      exact ⟨k + 1, out ++ outs, e₂, c, by simp [encodeRun, hr, h₁], by simpa using h₂, .cons he h₃, h₄⟩

/-- Bytes can all be coded while the model has room for them (40_frequency_model.md R129). -/
theorem EncodesAll.exists (bs : List Byte) : ∀ {e : Encoder}, e.Inv → e.flushed = false →
    e.freq.total + bs.length ≤ 2 ^ 40 → ∃ out e', EncodesAll e bs out e' := by
  induction bs with
  | nil => exact fun {e} _ _ _ => ⟨[], e, .nil⟩
  | cons b bs ih =>
    intro e h hf ht
    simp only [List.length_cons] at ht
    obtain ⟨out, e₁, he⟩ := EncodesByte.exists h b hf (by omega)
    obtain ⟨_, h₁, h₂, h₃⟩ := he.inv h
    obtain ⟨outs, e₂, h₄⟩ := ih h₁ h₂ (by omega)
    exact ⟨_, e₂, .cons he h₄⟩

/-! ### The decoder -/

theorem bytesValue_foldl (bs : List Byte) (acc : Nat) :
    bs.foldl (fun acc b => acc * 256 + b.toNat) acc = acc * 256 ^ bs.length + bytesValue bs := by
  induction bs generalizing acc with
  | nil => simp [bytesValue]
  | cons b bs ih =>
    simp only [bytesValue, List.foldl_cons, List.length_cons]
    rw [ih, ih (0 * 256 + b.toNat)]
    ring

theorem bytesValue_cons (b : Byte) (bs : List Byte) :
    bytesValue (b :: bs) = b.toNat * 256 ^ bs.length + bytesValue bs := by
  rw [bytesValue, List.foldl_cons, bytesValue_foldl]
  ring

theorem inByte_some {stream : List Byte} {pos : Nat} (h : pos < stream.length) :
    inByte stream pos = some (stream[pos], pos + 1) := by
  simp [inByte, h]

theorem inByte_none {stream : List Byte} {pos : Nat} (h : stream.length ≤ pos) : inByte stream pos = none := by
  simp [inByte, h]

theorem take_drop_succ {stream : List Byte} {pos : Nat} (h : pos < stream.length) (k : Nat) :
    (stream.drop pos).take (k + 1) = stream[pos] :: (stream.drop (pos + 1)).take k := by
  rw [List.drop_eq_getElem_cons h, List.take_succ_cons]

theorem shiftIn_ofNat (n : Nat) (b : Byte) :
    shiftIn (BitVec.ofNat 56 n) b = BitVec.ofNat 56 (n * 256 + b.toNat) := by
  apply BitVec.eq_of_toNat_eq
  rw [shiftIn_toNat, BitVec.toNat_ofNat, BitVec.toNat_ofNat]
  omega

/-- The decoder's transfers: the next input bytes enter the code window, most significant first, or the input ends, every
byte that was there taken (42_range_decoder.md R163, 20_memory.md R71). -/
theorem feedAll_transferIn {stream : List Byte} (out : List Byte) : ∀ (code pos : Nat), pos ≤ stream.length →
    (pos + out.length ≤ stream.length → feedAll (transferIn stream) out ⟨BitVec.ofNat 56 code, pos⟩ =
      .ok ⟨BitVec.ofNat 56 (code * 256 ^ out.length + bytesValue ((stream.drop pos).take out.length)), pos + out.length⟩) ∧
    (stream.length < pos + out.length → ∃ c, feedAll (transferIn stream) out ⟨BitVec.ofNat 56 code, pos⟩ =
      .error ⟨c, stream.length⟩) := by
  induction out with
  | nil => exact fun code pos hp => ⟨fun _ => by simp [feedAll, bytesValue], fun h => by simp at h; omega⟩
  | cons b out ih =>
    intro code pos hp
    rcases Nat.lt_or_ge pos stream.length with hlt | hge
    · obtain ⟨h₁, h₂⟩ := ih (code * 256 + stream[pos].toNat) (pos + 1) hlt
      simp only [feedAll, transferIn, inByte_some hlt, shiftIn_ofNat, List.length_cons]
      refine ⟨fun h => ?_, fun h => h₂ (by omega)⟩
      rw [h₁ (by omega), take_drop_succ hlt, bytesValue_cons]
      have : ((stream.drop (pos + 1)).take out.length).length = out.length := by
        rw [List.length_take, List.length_drop]
        omega
      rw [this, show pos + (out.length + 1) = pos + 1 + out.length by omega]
      congr 3
      ring
    · refine ⟨fun h => by simp at h; omega, fun _ => ⟨BitVec.ofNat 56 code, ?_⟩⟩
      obtain rfl : pos = stream.length := by omega
      simp [feedAll, transferIn, inByte_none]

/-- The prefix load (42_range_decoder.md R161). -/
theorem loadPrefix_spec {stream : List Byte} (k : Nat) : ∀ (c pos : Nat), pos ≤ stream.length →
    (pos + k ≤ stream.length → loadPrefix stream k (BitVec.ofNat 56 c) pos =
      (some (BitVec.ofNat 56 (c * 256 ^ k + bytesValue ((stream.drop pos).take k))), pos + k)) ∧
    (stream.length < pos + k → loadPrefix stream k (BitVec.ofNat 56 c) pos = (none, stream.length)) := by
  induction k with
  | zero => exact fun c pos hp => ⟨fun _ => by simp [loadPrefix, bytesValue], fun h => by omega⟩
  | succ k ih =>
    intro c pos hp
    rcases Nat.lt_or_ge pos stream.length with hlt | hge
    · obtain ⟨h₁, h₂⟩ := ih (c * 256 + stream[pos].toNat) (pos + 1) hlt
      simp only [loadPrefix, inByte_some hlt, shiftIn_ofNat]
      refine ⟨fun h => ?_, fun h => h₂ (by omega)⟩
      rw [h₁ (by omega), take_drop_succ hlt, bytesValue_cons]
      have : ((stream.drop (pos + 1)).take k).length = k := by
        rw [List.length_take, List.length_drop]
        omega
      rw [this, show pos + (k + 1) = pos + 1 + k by omega]
      congr 3
      ring
    · refine ⟨fun h => by omega, fun _ => ?_⟩
      obtain rfl : pos = stream.length := by omega
      simp [loadPrefix, inByte_none]

theorem bytesValue_lt (bs : List Byte) : bytesValue bs < 256 ^ bs.length := by
  induction bs with
  | nil => simp [bytesValue]
  | cons b bs ih =>
    rw [bytesValue_cons, List.length_cons, pow_succ]
    have := b.isLt
    nlinarith [Nat.mul_le_mul_right (256 ^ bs.length) (show b.toNat ≤ 255 by omega)]

/-- `InitCode` answers the code window the relation names. -/
theorem initCode_of_prefix {stream : List Byte} {d : Decoder} {pos code pos₁ : Nat}
    (h : PrefixLoaded stream d pos code pos₁) :
    code < 2 ^ 56 ∧ initCode stream d pos = (some (BitVec.ofNat 56 code), pos₁) := by
  unfold PrefixLoaded at h
  unfold initCode
  split_ifs at h ⊢ with hi
  · obtain ⟨rfl, rfl⟩ := h
    exact ⟨d.code.isLt, by simp⟩
  · obtain ⟨h₁, rfl, rfl⟩ := h
    refine ⟨?_, ?_⟩
    · have := bytesValue_lt ((stream.drop pos).take 7)
      rw [List.length_take, List.length_drop, Nat.min_eq_left (by omega)] at this
      exact this
    · have := (loadPrefix_spec (stream := stream) 7 0 pos (by omega)).1 h₁
      simpa using this

/-- A decoder either has its code window or finds the input too short for it. -/
theorem prefixLoaded_or_short (stream : List Byte) (d : Decoder) (pos : Nat) (hp : pos ≤ stream.length) :
    (∃ code pos₁, PrefixLoaded stream d pos code pos₁ ∧ pos₁ ≤ stream.length ∧ pos ≤ pos₁) ∨
    (d.initialized = false ∧ stream.length < pos + 7) := by
  cases hi : d.initialized
  · rcases Nat.lt_or_ge stream.length (pos + 7) with hlt | hge
    · exact .inr ⟨rfl, hlt⟩
    · exact .inl ⟨bytesValue ((stream.drop pos).take 7), pos + 7, by simp [PrefixLoaded, hi, hge], hge, by omega⟩
  · exact .inl ⟨d.code.toNat, pos, by simp [PrefixLoaded, hi], hp, Nat.le_refl _⟩

theorem PrefixLoaded.pos_le {stream : List Byte} {d : Decoder} {pos code pos₁ : Nat}
    (h : PrefixLoaded stream d pos code pos₁) (hp : pos ≤ stream.length) : pos ≤ pos₁ ∧ pos₁ ≤ stream.length := by
  unfold PrefixLoaded at h
  split_ifs at h <;> omega

/-- The machine's symbol search is the spec's (42_range_decoder.md R162). -/
theorem searchCount_eq (d : Decoder) {code : Nat} (hc : code < 2 ^ 56) :
    searchCount (BitVec.ofNat 56 code) d.low (unitWidth d.freq d.range) = decodeCount d code := by
  unfold searchCount decodeCount unitWidth
  rw [BitVec.toNat_sub, BitVec.toNat_ofNat, Nat.mod_eq_of_lt hc]
  congr 1
  have := d.low.isLt
  omega

/-- What finding a byte keeps (10_state.md R26, R28). -/
theorem DecodesByte.inv {stream : List Byte} {d d' : Decoder} {pos pos' : Nat} {b : Byte}
    (hd : DecodesByte stream d pos b d' pos') (h : d.Inv) (hp : pos ≤ stream.length) :
    d'.Inv ∧ d'.err = d.err ∧ d'.freq.total = d.freq.total + 1 ∧ pos ≤ pos' ∧ pos' ≤ stream.length := by
  obtain ⟨ht, code, pos₁, h₁, _, _, out, l, r, h₂, h₃, rfl, rfl⟩ := hd
  have hb := b.isLt
  obtain ⟨out', l', r', h₂', hlen, hi⟩ := codesSymbol_exists h.interval h.freq (s := b.toNat) (by omega)
  obtain ⟨rfl, hl, hr⟩ := h₂.unique h₂'
  obtain rfl := BitVec.eq_of_toNat_eq hl
  obtain rfl := BitVec.eq_of_toNat_eq hr
  have := h₁.pos_le hp
  exact ⟨⟨hi, h.freq.update ht (by omega) (by omega), h.noFault, h.latched⟩, rfl,
    h.freq.total_update ht (by omega), by omega, h₃⟩

/-- The decode step answers the byte the spec's relation finds. -/
theorem decodeSymbol_of_decodes {stream : List Byte} {d d' : Decoder} {pos pos' : Nat} {b : Byte}
    (hd : DecodesByte stream d pos b d' pos') (h : d.Inv) (hp : pos ≤ stream.length) :
    decodeSymbol stream d pos = .byte d' pos' b := by
  obtain ⟨ht, code, pos₁, h₁, hF₁, hF₂, out, l, r, h₂, h₃, rfl, rfl⟩ := hd
  have hb := b.isLt
  obtain ⟨out', _, _, h₂', hlen, _⟩ := codesSymbol_exists h.interval h.freq (s := b.toNat) (by omega)
  obtain ⟨rfl, -, -⟩ := h₂.unique h₂'
  obtain ⟨hc, hic⟩ := initCode_of_prefix h₁
  have hge := h.freq.total_ge
  have hu := unitWidth_pos h.interval h.freq
  simp only at hu
  have hloc : d.freq.locate (searchCount (BitVec.ofNat 56 code) d.low (unitWidth d.freq d.range)) = b.toNat := by
    rw [searchCount_eq d hc]
    exact h.freq.locate_eq (by omega) hF₁ (fun _ => hF₂)
  have hr := renorm_narrow (transferIn stream) h.interval h.freq (by omega) h₂ (Config.renormFuel + stream.length)
    (show out.length < 17 + stream.length by omega) ⟨BitVec.ofNat 56 code, pos₁⟩
  rw [((feedAll_transferIn out code pos₁ (h₁.pos_le hp).2).1 h₃)] at hr
  unfold decodeSymbol
  rw [if_neg (not_full d.freq ht), hic]
  simp only
  rw [if_neg (by omega), hloc, if_neg (not_term (by omega)), hr]
  simp

/-- The decode step raises the fault the spec's relation names. -/
theorem decodeSymbol_of_faults {stream : List Byte} {d : Decoder} {pos pos' : Nat} {c : StatusCode}
    (hd : DecodeFaults stream d pos c pos') (h : d.Inv) (hp : pos ≤ stream.length) :
    decodeSymbol stream d pos = .raised c pos' := by
  have hge := h.freq.total_ge
  have hu := unitWidth_pos h.interval h.freq
  simp only at hu
  unfold decodeSymbol
  cases hd with
  | freq ht => rw [if_pos (show Config.maxRange ≤ d.freq.total from ht)]
  | prefixShort ht hi hs =>
    rw [if_neg (not_full d.freq ht)]
    have := (loadPrefix_spec (stream := stream) 7 0 pos hp).2 hs
    simp only [initCode, hi, Bool.false_eq_true, if_false, this]
  | @endOfStream code pos₁ ht h₁ hc hs =>
    obtain ⟨hlt, hic⟩ := initCode_of_prefix h₁
    have hloc : d.freq.locate (searchCount (BitVec.ofNat 56 code) d.low (unitWidth d.freq d.range)) = 256 := by
      rw [searchCount_eq d hlt]
      exact h.freq.locate_term hc
    rw [if_neg (not_full d.freq ht), hic]
    simp only
    rw [if_neg (by omega), hloc, if_pos (show 256 = Config.term from rfl)]
    simp [inMore, hs]
  | @corrupt code pos₁ ht h₁ hc hs =>
    obtain ⟨hlt, hic⟩ := initCode_of_prefix h₁
    have hloc : d.freq.locate (searchCount (BitVec.ofNat 56 code) d.low (unitWidth d.freq d.range)) = 256 := by
      rw [searchCount_eq d hlt]
      exact h.freq.locate_term hc
    rw [if_neg (not_full d.freq ht), hic]
    simp only
    rw [if_neg (by omega), hloc, if_pos (show 256 = Config.term from rfl)]
    simp [inMore, hs]
  | @transferShort code pos₁ sym out l r ht h₁ hsym hF₁ hF₂ h₂ hs =>
    obtain ⟨out', l', r', h₂', hlen, _⟩ := codesSymbol_exists h.interval h.freq (s := sym) (by omega)
    obtain ⟨rfl, rfl, rfl⟩ := h₂.unique h₂'
    obtain ⟨hlt, hic⟩ := initCode_of_prefix h₁
    have hloc : d.freq.locate (searchCount (BitVec.ofNat 56 code) d.low (unitWidth d.freq d.range)) = sym := by
      rw [searchCount_eq d hlt]
      exact h.freq.locate_eq (by omega) hF₁ (fun _ => hF₂)
    have hr := renorm_narrow (transferIn stream) h.interval h.freq (by omega) h₂ (Config.renormFuel + stream.length)
      (show out.length < 17 + stream.length by omega) ⟨BitVec.ofNat 56 code, pos₁⟩
    obtain ⟨c, hfeed⟩ := (feedAll_transferIn out code pos₁ (h₁.pos_le hp).2).2 hs
    rw [hfeed] at hr
    rw [if_neg (not_full d.freq ht), hic]
    simp only
    rw [if_neg (by omega), hloc, if_neg (not_term hsym), hr]

/-- Everything a decode step can do between commands: find a byte, or raise one fault (60_exceptions.md R227). -/
theorem decodes_or_faults {stream : List Byte} {d : Decoder} (h : d.Inv) {pos : Nat} (hp : pos ≤ stream.length) :
    (∃ b d' pos', DecodesByte stream d pos b d' pos') ∨ ∃ c pos', DecodeFaults stream d pos c pos' := by
  rcases Nat.lt_or_ge d.freq.total (2 ^ 40) with ht | ht
  · rcases prefixLoaded_or_short stream d pos hp with ⟨code, pos₁, h₁, hp₁, _⟩ | ⟨hi, hs⟩
    · rcases Nat.lt_or_ge (decodeCount d code) (d.freq.total - 1) with hc | hc
      · obtain ⟨sym, hs, hF₁, hF₂⟩ := h.freq.exists_symbol hc
        obtain ⟨out, l, r, h₂, _, _⟩ := codesSymbol_exists h.interval h.freq (s := sym) (by omega)
        rcases Nat.lt_or_ge stream.length (pos₁ + out.length) with hl | hl
        · exact .inr ⟨_, _, .transferShort ht h₁ hs hF₁ hF₂ h₂ hl⟩
        · have e : (BitVec.ofNat 8 sym).toNat = sym := by
            rw [BitVec.toNat_ofNat]
            exact Nat.mod_eq_of_lt hs
          exact .inl ⟨BitVec.ofNat 8 sym, _, _, ht, code, pos₁, h₁, by rwa [e], by rwa [e], out, l, r, by rwa [e], hl,
            rfl, rfl⟩
      · rcases Nat.lt_or_ge pos₁ stream.length with hl | hl
        · exact .inr ⟨_, _, .corrupt ht h₁ hc hl⟩
        · exact .inr ⟨_, _, .endOfStream ht h₁ hc hl⟩
    · exact .inr ⟨_, _, .prefixShort ht hi hs⟩
  · exact .inr ⟨_, _, .freq ht⟩

/-- What the machine finds is what the relation says (42_range_decoder.md R160 to R165). -/
theorem decodesByte_of_symbol {stream : List Byte} {d d' : Decoder} {pos pos' : Nat} {b : Byte} (h : d.Inv)
    (hp : pos ≤ stream.length) (hx : decodeSymbol stream d pos = .byte d' pos' b) :
    DecodesByte stream d pos b d' pos' := by
  rcases decodes_or_faults h hp with ⟨b₁, d₁, p₁, h₁⟩ | ⟨c, p₁, h₁⟩
  · rw [decodeSymbol_of_decodes h₁ h hp] at hx
    cases hx
    exact h₁
  · rw [decodeSymbol_of_faults h₁ h hp] at hx
    cases hx

/-- What the machine raises is what the relation says (60_exceptions.md R227). -/
theorem decodeFaults_of_symbol {stream : List Byte} {d : Decoder} {pos pos' : Nat} {c : StatusCode} (h : d.Inv)
    (hp : pos ≤ stream.length) (hx : decodeSymbol stream d pos = .raised c pos') : DecodeFaults stream d pos c pos' := by
  rcases decodes_or_faults h hp with ⟨b₁, d₁, p₁, h₁⟩ | ⟨c₁, p₁, h₁⟩
  · rw [decodeSymbol_of_decodes h₁ h hp] at hx
    cases hx
  · rw [decodeSymbol_of_faults h₁ h hp] at hx
    cases hx
    exact h₁

/-- A fault leaves the cursor inside the stream, and its code is one of the latch's (60_exceptions.md R226). -/
theorem DecodeFaults.bounds {stream : List Byte} {d : Decoder} {pos pos' : Nat} {c : StatusCode}
    (hd : DecodeFaults stream d pos c pos') (hp : pos ≤ stream.length) :
    pos ≤ pos' ∧ pos' ≤ stream.length ∧ c.bits ∈ [2#4, 3#4, 5#4, 7#4] := by
  cases hd with
  | freq => exact ⟨Nat.le_refl _, hp, by decide⟩
  | prefixShort => exact ⟨hp, Nat.le_refl _, by decide⟩
  | endOfStream _ h₁ => exact ⟨(h₁.pos_le hp).1, (h₁.pos_le hp).2, by decide⟩
  | corrupt _ h₁ => exact ⟨(h₁.pos_le hp).1, (h₁.pos_le hp).2, by decide⟩
  | transferShort => exact ⟨hp, Nat.le_refl _, by decide⟩

theorem Decoder.Inv.latch {d : Decoder} (h : d.Inv) {c : StatusCode} (hc : c.bits ∈ [2#4, 3#4, 5#4, 7#4]) :
    (d.latch c).Inv :=
  ⟨h.interval, h.freq, fun h => absurd h (by simp), fun _ => hc⟩

/-- The run of decode steps over bytes that are all found. -/
theorem decodeRun_of_decodes {stream : List Byte} {d d' : Decoder} {pos pos' : Nat} {bs : List Byte}
    (hd : DecodesAll stream d pos bs d' pos') (h : d.Inv) (hp : pos ≤ stream.length) :
    decodeRun stream bs.length d pos = ⟨d', pos', bs, .ok .ok⟩ ∧ d'.Inv ∧ pos ≤ pos' ∧ pos' ≤ stream.length := by
  induction hd with
  | nil => exact ⟨rfl, h, Nat.le_refl _, hp⟩
  | cons hb _ ih =>
    obtain ⟨h₁, _, _, h₂, h₃⟩ := hb.inv h hp
    obtain ⟨ih, hi, h₄, h₅⟩ := ih h₁ h₃
    exact ⟨by simp [decodeRun, decodeSymbol_of_decodes hb h hp, ih], hi, by omega, h₅⟩

/-- The run of decode steps that finds bytes and then raises a fault. -/
theorem decodeRun_of_faults {stream : List Byte} {d d₁ : Decoder} {pos pos₁ pos₂ : Nat} {bs : List Byte}
    {c : StatusCode} (hd : DecodesAll stream d pos bs d₁ pos₁) (hf : DecodeFaults stream d₁ pos₁ c pos₂) (h : d.Inv)
    (hp : pos ≤ stream.length) (n : Nat) :
    decodeRun stream (bs.length + (n + 1)) d pos = ⟨d₁.latch c, pos₂, bs, .ok c⟩ := by
  induction hd with
  | nil => simp [decodeRun, decodeSymbol_of_faults hf h hp]
  | cons hb _ ih =>
    obtain ⟨h₁, _, _, h₂, h₃⟩ := hb.inv h hp
    have := ih hf h₁ h₃
    rw [List.length_cons, Nat.add_right_comm, decodeRun, decodeSymbol_of_decodes hb h hp]
    simp only [this]

/-- Everything a run of decode steps can do: find all its bytes, or find some and raise a fault. -/
theorem decodeAll_or_faults {stream : List Byte} (n : Nat) : ∀ {d : Decoder} {pos : Nat}, d.Inv → pos ≤ stream.length →
    (∃ bs d' pos', bs.length = n ∧ DecodesAll stream d pos bs d' pos') ∨
    ∃ bs d₁ pos₁ c pos₂, bs.length < n ∧ DecodesAll stream d pos bs d₁ pos₁ ∧ DecodeFaults stream d₁ pos₁ c pos₂ := by
  induction n with
  | zero => exact fun {d pos} _ _ => .inl ⟨[], d, pos, rfl, .nil⟩
  | succ n ih =>
    intro d pos h hp
    rcases decodes_or_faults h hp with ⟨b, d₁, pos₁, hb⟩ | ⟨c, pos', hf⟩
    · obtain ⟨h₁, _, _, _, h₂⟩ := hb.inv h hp
      rcases ih h₁ h₂ with ⟨bs, d', pos', hl, hd⟩ | ⟨bs, d₂, pos₂, c, pos₃, hl, hd, hf⟩
      · exact .inl ⟨b :: bs, d', pos', by simp [hl], .cons hb hd⟩
      · exact .inr ⟨b :: bs, d₂, pos₂, c, pos₃, by simpa using hl, .cons hb hd, hf⟩
    · exact .inr ⟨[], d, pos, c, pos', by simp, .nil, hf⟩

/-- What a run of decode steps keeps. -/
theorem DecodesAll.inv {stream : List Byte} {d d' : Decoder} {pos pos' : Nat} {bs : List Byte}
    (hd : DecodesAll stream d pos bs d' pos') (h : d.Inv) (hp : pos ≤ stream.length) :
    d'.Inv ∧ d'.err = d.err ∧ pos ≤ pos' ∧ pos' ≤ stream.length := by
  induction hd with
  | nil => exact ⟨h, rfl, Nat.le_refl _, hp⟩
  | cons hb _ ih =>
    obtain ⟨h₁, h₂, _, h₃, h₄⟩ := hb.inv h hp
    obtain ⟨h₅, h₆, h₇, h₈⟩ := ih h₁ h₄
    exact ⟨h₅, h₆.trans h₂, by omega, h₈⟩

end Sys2Proof.Machine
end

