-- ==== Sys2Proof/Laws/Zlt.lean ====
section
/-! SUPPORT. Laws of the zero-length transform: the machine's units are the spec's, and its loop places units exactly as
43_zlt.md R182 says. -/

namespace Sys2Proof.Machine

theorem ZltOut.size_eq (o : ZltOut) : o.size = o.toList.length := by
  cases o <;> simp [ZltOut.size, ZltOut.toList]

/-! ### Run codes -/

/-- The code the machine writes is the run code of its counter (30_encoding.md R103). -/
theorem runCode_spec {rl : Nat} (h : 1 ≤ rl) : RunCode rl (runCode rl) := by
  have hlen : (runCode rl).length = rl.log2 := by simp [runCode]
  refine ⟨?_, ?_, fun j hj => ?_⟩
  · rw [hlen]
    exact Nat.log2_self_le (by omega)
  · rw [hlen]
    exact Nat.lt_log2_self
  · simp only [runCode, List.getElem_map, List.getElem_range, Nat.shiftRight_eq_div_pow]
    simp

theorem RunCode.unique {rl : Nat} {a b : List Byte} (ha : RunCode rl a) (hb : RunCode rl b) : a = b := by
  obtain ⟨ha₁, ha₂, ha₃⟩ := ha
  obtain ⟨hb₁, hb₂, hb₃⟩ := hb
  have hlen : a.length = b.length := by
    rcases Nat.lt_trichotomy a.length b.length with h | h | h
    · have := Nat.pow_le_pow_right (n := 2) (by omega) (show a.length + 1 ≤ b.length from h)
      omega
    · exact h
    · have := Nat.pow_le_pow_right (n := 2) (by omega) (show b.length + 1 ≤ a.length from h)
      omega
  exact List.ext_getElem hlen fun j h₁ h₂ => by rw [ha₃ j h₁, hb₃ j h₂, hlen]

theorem leadingZeros_replicate {n cap : Nat} {rest : List Byte} (hn : n ≤ cap)
    (h : n = cap ∨ rest.head? ≠ some 0#8) : leadingZeros (List.replicate n 0#8 ++ rest) cap = n := by
  induction n generalizing cap with
  | zero =>
    cases rest with
    | nil => cases cap <;> simp [leadingZeros]
    | cons v rest =>
      cases cap with
      | zero => simp [leadingZeros]
      | succ cap =>
        have : v ≠ 0#8 := by simpa using h
        simp [leadingZeros, this]
  | succ n ih =>
    cases cap with
    | zero => omega
    | succ cap =>
      rw [List.replicate_succ, List.cons_append, leadingZeros, if_pos rfl, ih (by omega) (h.imp Nat.succ.inj id)]

/-- A source cut after its leading zero bytes, at most `cap` of them. -/
theorem exists_leadingZeros (src : List Byte) (cap : Nat) :
    ∃ n rest, src = List.replicate n 0#8 ++ rest ∧ n ≤ cap ∧ (n = cap ∨ rest.head? ≠ some 0#8) := by
  induction cap generalizing src with
  | zero => exact ⟨0, src, by simp, by omega, .inl rfl⟩
  | succ cap ih =>
    cases src with
    | nil => exact ⟨0, [], by simp, by omega, .inr (by simp)⟩
    | cons v src =>
      by_cases hv : v = 0#8
      · obtain ⟨n, rest, rfl, h₁, h₂⟩ := ih src
        exact ⟨n + 1, rest, by simp [List.replicate_succ, hv], by omega, h₂.imp (congrArg (· + 1)) id⟩
      · exact ⟨0, v :: src, by simp, by omega, .inr (by simpa using hv)⟩

/-! ### Forward units -/

theorem forwardUnit_of_unit {src out : List Byte} {k : Nat} (h : ForwardUnit src k out) :
    forwardUnit src = some ⟨k, .bytes out⟩ := by
  cases h with
  | @run n rest code h₁ h₂ h₃ hc =>
    have hz : leadingZeros (List.replicate k 0#8 ++ rest) (Config.zltMaxRun - 1) = k := leadingZeros_replicate h₂ h₃
    obtain ⟨n, rfl⟩ : ∃ m, k = m + 1 := ⟨k - 1, by omega⟩
    have hcode := hc.unique (runCode_spec (by omega))
    rw [List.replicate_succ, List.cons_append] at hz ⊢
    simp only [forwardUnit, if_true, hz, hcode]
  | @escape v rest hv =>
    have : ¬ v = 0#8 := fun hc => by rw [hc] at hv; simp at hv
    simp only [forwardUnit, this, if_false, hv, if_true]
  | literal h₀ hv =>
    simp only [forwardUnit, h₀, if_false, Nat.not_le.2 hv]

/-- A forward unit stands at the head of every non-empty source (43_zlt.md R184, R185). -/
theorem ForwardUnit.exists {src : List Byte} (h : src ≠ []) : ∃ k out, ForwardUnit src k out := by
  cases src with
  | nil => exact absurd rfl h
  | cons v rest =>
    by_cases hv : v = 0#8
    · subst hv
      obtain ⟨n, rest', hs, h₁, h₂⟩ := exists_leadingZeros (0#8 :: rest) (2 ^ 31 - 2)
      have hn : 1 ≤ n := by
        by_contra hc
        obtain rfl : n = 0 := by omega
        simp only [List.replicate_zero, List.nil_append] at hs
        subst hs
        simp at h₂
      exact ⟨n, runCode (n + 1), by rw [hs]; exact ForwardUnit.run hn h₁ h₂ (runCode_spec (by omega))⟩
    · rcases Nat.lt_or_ge v.toNat 0xFE with hlt | hge
      · exact ⟨1, _, .literal hv hlt⟩
      · exact ⟨1, _, .escape hge⟩

/-- How much a forward unit takes and produces (43_zlt.md R186). -/
theorem ForwardUnit.bounds {src out : List Byte} {k : Nat} (h : ForwardUnit src k out) :
    1 ≤ k ∧ k ≤ src.length ∧ 1 ≤ out.length ∧ out.length ≤ 2 * k := by
  cases h with
  | run h₁ h₂ h₃ hc =>
    obtain ⟨hc₁, hc₂, -⟩ := hc
    refine ⟨h₁, by simp, ?_, ?_⟩
    · by_contra hc
      have : out.length = 0 := by omega
      rw [this] at hc₂
      omega
    · have := Nat.lt_two_pow_self (n := out.length)
      omega
  | escape => simp
  | literal => simp

/-! ### Inverse units -/

theorem scanRun_append {code rest : List Byte} (hc : ∀ c ∈ code, c.toNat ≤ 1)
    (hr : ∀ v, rest.head? = some v → 1 < v.toNat) : ∀ (rl k : Nat) (ovf : Bool), 1 ≤ rl →
    ∃ rl' ovf', scanRun (code ++ rest) rl k ovf = (rl', k + code.length, ovf') ∧
      (code.foldl (fun rl c => 2 * rl + c.toNat) rl < 2 ^ 31 →
        rl' = code.foldl (fun rl c => 2 * rl + c.toNat) rl ∧ ovf' = ovf) ∧
      (2 ^ 31 ≤ code.foldl (fun rl c => 2 * rl + c.toNat) rl → rl < 2 ^ 31 → ovf' = true) ∧
      (ovf = true → ovf' = true) := by
  induction code with
  | nil =>
    intro rl k ovf _
    cases rest with
    | nil => exact ⟨rl, ovf, by simp [scanRun], fun _ => ⟨rfl, rfl⟩, fun h h' => absurd h' (Nat.not_lt.2 h), id⟩
    | cons v rest =>
      have : ¬ v.toNat ≤ 1 := Nat.not_le.2 (hr v rfl)
      exact ⟨rl, ovf, by simp [scanRun, this], fun _ => ⟨rfl, rfl⟩, fun h h' => absurd h' (Nat.not_lt.2 h), id⟩
  | cons c code ih =>
    intro rl k ovf h1
    have hc₁ : c.toNat ≤ 1 := hc c (by simp)
    have hmono : ∀ (l : List Byte) (r : Nat), r ≤ l.foldl (fun rl c => 2 * rl + c.toNat) r := by
      intro l
      induction l with
      | nil => simp
      | cons x l ihl =>
        intro r
        exact le_trans (by omega) (ihl (2 * r + x.toNat))
    simp only [List.cons_append, scanRun, hc₁, if_true, List.foldl_cons, List.length_cons]
    rcases Nat.lt_or_ge rl (2 ^ 30) with hlt | hge
    · obtain ⟨rl', ovf', h₁, h₂, h₃, h₄⟩ := ih (fun c h => hc c (by simp [h])) (2 * rl + c.toNat) (k + 1) ovf (by omega)
      refine ⟨rl', ovf', ?_, h₂, fun hv _ => h₃ hv (by omega), h₄⟩
      rw [if_neg (Nat.not_le.2 hlt), h₁]
      congr 2
      omega
    · obtain ⟨rl', ovf', h₁, h₂, h₃, h₄⟩ := ih (fun c h => hc c (by simp [h])) rl (k + 1) true h1
      have := hmono code (2 * rl + c.toNat)
      refine ⟨rl', ovf', ?_, fun hv => absurd hv (by omega), fun _ _ => h₄ rfl, fun _ => h₄ rfl⟩
      rw [if_pos hge, h₁]
      congr 2
      omega

/-- The value of a run code lies between the powers of two its length names. -/
theorem foldl_bits_bounds (code : List Byte) (hc : ∀ c ∈ code, c.toNat ≤ 1) (rl : Nat) :
    rl * 2 ^ code.length ≤ code.foldl (fun rl c => 2 * rl + c.toNat) rl ∧
    code.foldl (fun rl c => 2 * rl + c.toNat) rl < (rl + 1) * 2 ^ code.length := by
  induction code generalizing rl with
  | nil => simp
  | cons c code ih =>
    have hc₁ : c.toNat ≤ 1 := hc c (by simp)
    obtain ⟨h₁, h₂⟩ := ih (fun c h => hc c (by simp [h])) (2 * rl + c.toNat)
    simp only [List.foldl_cons, List.length_cons, pow_succ]
    constructor
    · refine le_trans ?_ h₁
      nlinarith [Nat.zero_le (2 ^ code.length)]
    · refine lt_of_lt_of_le h₂ ?_
      nlinarith [Nat.zero_le (2 ^ code.length)]

/-- A run code fits the counter exactly when it has at most 30 bytes (43_zlt.md R187). -/
theorem foldl_bits_lt_iff (code : List Byte) (hc : ∀ c ∈ code, c.toNat ≤ 1) :
    code.foldl (fun rl c => 2 * rl + c.toNat) 1 < 2 ^ 31 ↔ code.length ≤ 30 := by
  obtain ⟨h₁, h₂⟩ := foldl_bits_bounds code hc 1
  constructor
  · intro h
    by_contra hlen
    have := Nat.pow_le_pow_right (n := 2) (by omega) (show 31 ≤ code.length by omega)
    omega
  · intro hlen
    have := Nat.pow_le_pow_right (n := 2) (by omega) (show code.length ≤ 30 from hlen)
    omega

/-- A source cut after its leading run bytes. -/
theorem exists_runBytes (src : List Byte) : ∃ code rest, src = code ++ rest ∧ (∀ c ∈ code, c.toNat ≤ 1) ∧
    ∀ v, rest.head? = some v → 1 < v.toNat := by
  induction src with
  | nil => exact ⟨[], [], rfl, by simp, by simp⟩
  | cons v src ih =>
    rcases Nat.lt_or_ge 1 v.toNat with h | h
    · exact ⟨[], v :: src, rfl, by simp, fun w hw => by simp at hw; rwa [← hw]⟩
    · obtain ⟨code, rest, rfl, h₁, h₂⟩ := ih
      exact ⟨v :: code, rest, rfl, fun c hc => by
        rcases List.mem_cons.1 hc with rfl | hc
        · exact h
        · exact h₁ c hc, h₂⟩

theorem inverseUnit_run {code rest : List Byte} (h₀ : code ≠ []) (hc : ∀ c ∈ code, c.toNat ≤ 1)
    (hr : ∀ v, rest.head? = some v → 1 < v.toNat) :
    inverseUnit (code ++ rest) = if code.length ≤ 30 then
      some ⟨code.length, .zeros (code.foldl (fun rl c => 2 * rl + c.toNat) 1 - 1)⟩ else none := by
  cases code with
  | nil => exact absurd rfl h₀
  | cons c code =>
    have hc₁ : c.toNat ≤ 1 := hc c (by simp)
    obtain ⟨rl', ovf', h₁, h₂, h₃, -⟩ := scanRun_append hc hr 1 0 false (by omega)
    have hiff := foldl_bits_lt_iff (c :: code) hc
    rw [List.cons_append] at h₁ ⊢
    simp only [inverseUnit, hc₁, if_true, h₁]
    split_ifs with h₄ h₅ h₅
    · have := (h₂ (hiff.2 h₅)).2
      simp_all
    · rfl
    · rw [(h₂ (hiff.2 h₅)).1]
      simp
    · have := h₃ (by omega) (by omega)
      simp_all

/-- Whatever the inverse finds at the head of the source is the spec's unit. -/
theorem unit_of_inverseUnit {src : List Byte} {u : ZltUnit} (h : inverseUnit src = some u) :
    InverseUnit src u.taken u.out.toList := by
  cases src with
  | nil => simp [inverseUnit] at h
  | cons v rest =>
    rcases Nat.lt_or_ge 1 v.toNat with hv | hv
    · have hv' : ¬ v.toNat ≤ 1 := Nat.not_le.2 hv
      by_cases hff : v = 0xFF#8
      · subst hff
        cases rest with
        | nil => simp [inverseUnit] at h
        | cons w rest =>
          simp only [inverseUnit, hv', if_false, if_true, Option.some.injEq] at h
          subst h
          exact .escape
      · simp only [inverseUnit, hv', if_false, hff, Option.some.injEq] at h
        subst h
        have := v.isLt
        have : v.toNat ≠ 255 := fun hc => hff (BitVec.eq_of_toNat_eq hc)
        exact .literal hv (by omega)
    · obtain ⟨code, rest', hs, hc, hr⟩ := exists_runBytes (v :: rest)
      have h₀ : code ≠ [] := by
        rintro rfl
        simp only [List.nil_append] at hs
        have := hr v (by rw [← hs]; rfl)
        omega
      rw [hs, inverseUnit_run h₀ hc hr] at h
      split_ifs at h with hlen
      simp only [Option.some.injEq] at h
      subst h
      rw [hs]
      exact .run h₀ hlen hc hr

/-- The spec's inverse unit is what the machine finds. -/
theorem inverseUnit_of_unit {src out : List Byte} {k : Nat} (h : InverseUnit src k out) :
    ∃ o, inverseUnit src = some ⟨k, o⟩ ∧ o.toList = out := by
  cases h with
  | run h₀ hlen hc hr => exact ⟨_, by rw [inverseUnit_run h₀ hc hr, if_pos hlen], rfl⟩
  | @escape w rest => exact ⟨.bytes [0xFE#8 + w], by simp [inverseUnit], rfl⟩
  | @literal v rest h₁ h₂ =>
    have h₁' : ¬ v.toNat ≤ 1 := by omega
    have hff : v ≠ 0xFF#8 := fun hc => by rw [hc] at h₂; simp at h₂
    exact ⟨_, by simp only [inverseUnit, h₁', if_false, hff]; rfl, rfl⟩

theorem InverseUnit.bounds {src out : List Byte} {k : Nat} (h : InverseUnit src k out) : 1 ≤ k ∧ k ≤ src.length := by
  cases h with
  | run h₀ => exact ⟨List.length_pos_of_ne_nil h₀, by simp⟩
  | escape => simp
  | literal => simp

/-! ### The loop -/

/-- A unit function answers the spec's units, which are never empty. -/
structure UnitAgrees (unit : List Byte → Option ZltUnit) (rel : List Byte → Nat → List Byte → Prop) : Prop where
  sound  : ∀ src u, unit src = some u → rel src u.taken u.out.toList
  finds  : ∀ src k out, rel src k out → ∃ o, unit src = some ⟨k, o⟩ ∧ o.toList = out
  bounds : ∀ src k out, rel src k out → 1 ≤ k ∧ k ≤ src.length

theorem forwardUnit_agrees : UnitAgrees forwardUnit ForwardUnit where
  sound src _ h := by
    have hne : src ≠ [] := by
      rintro rfl
      simp [forwardUnit] at h
    obtain ⟨k, out, hf⟩ := ForwardUnit.exists hne
    rw [forwardUnit_of_unit hf, Option.some.injEq] at h
    subst h
    exact hf
  finds _ _ out h := ⟨.bytes out, forwardUnit_of_unit h, rfl⟩
  bounds _ _ _ h := ⟨h.bounds.1, h.bounds.2.1⟩

theorem inverseUnit_agrees : UnitAgrees inverseUnit InverseUnit where
  sound _ _ h := unit_of_inverseUnit h
  finds _ _ _ h := inverseUnit_of_unit h
  bounds _ _ _ h := h.bounds

theorem Units.taken_le {unit : List Byte → Option ZltUnit} {rel : List Byte → Nat → List Byte → Prop}
    (ha : UnitAgrees unit rel) {src out : List Byte} {n : Nat} (h : Units rel src n out) : n ≤ src.length := by
  induction h with
  | nil => simp
  | cons hu _ ih =>
    have := (ha.bounds _ _ _ hu).2
    rw [List.length_drop] at ih
    omega

/-- What the loop answers when the units placed so far are followed by the end of the source or by a unit that cannot be
placed (43_zlt.md R182). -/
theorem zltRun_of_units {unit : List Byte → Option ZltUnit} {rel : List Byte → Nat → List Byte → Prop}
    (ha : UnitAgrees unit rel) {src out : List Byte} {n : Nat} (h : Units rel src n out) :
    ∀ {fuel room : Nat}, src.length ≤ fuel → out.length ≤ room →
    (n = src.length → zltRun unit fuel src room = ⟨n, out, true⟩) ∧
    (MustStop rel src n (room - out.length) → zltRun unit fuel src room = ⟨n, out, false⟩) := by
  induction h with
  | @nil src =>
    intro fuel room hf hr
    refine ⟨fun hn => ?_, fun hs => ?_⟩
    · obtain rfl : src = [] := List.eq_nil_of_length_eq_zero hn.symm
      cases fuel <;> rfl
    · obtain ⟨h₁, h₂⟩ := hs
      cases src with
      | nil => simp at h₁
      | cons v rest =>
        cases fuel with
        | zero => rfl
        | succ fuel =>
          unfold zltRun
          cases hu : unit (v :: rest) with
          | none => rfl
          | some u =>
            have := h₂ _ _ (ha.sound _ _ hu)
            rw [← ZltOut.size_eq] at this
            simp only [List.length_nil, Nat.sub_zero] at this
            simp only [if_neg (Nat.not_le.2 this)]
  | @cons src out outs k n hu _ ih =>
    intro fuel room hf hr
    obtain ⟨hk, hk'⟩ := ha.bounds _ _ _ hu
    obtain ⟨o, hu', rfl⟩ := ha.finds _ _ _ hu
    rw [List.length_append] at hr ⊢
    cases src with
    | nil => simp at hk'; omega
    | cons v rest =>
      cases fuel with
      | zero => simp at hf
      | succ fuel =>
        have hd : ((v :: rest).drop k).length = rest.length + 1 - k := by simp
        simp only [List.length_cons] at hf hk'
        obtain ⟨ih₁, ih₂⟩ := ih (fuel := fuel) (room := room - o.toList.length) (by omega) (by omega)
        unfold zltRun
        rw [hu']
        simp only [ZltOut.size_eq]
        rw [if_pos (by omega)]
        refine ⟨fun hn => ?_, fun hs => ?_⟩
        · rw [ih₁ (by simp only [List.length_cons] at hn; omega)]
        · obtain ⟨hs₁, hs₂⟩ := hs
          rw [ih₂ ⟨by simp only [List.length_cons] at hs₁; omega, fun k' out' hu'' => by
            rw [List.drop_drop] at hu''
            have := hs₂ k' out' hu''
            omega⟩]

/-- A transform that finds no unit to place, or one too long for the room, must stop (43_zlt.md R182). -/
theorem mustStop_of_unit {unit : List Byte → Option ZltUnit} {rel : List Byte → Nat → List Byte → Prop}
    (ha : UnitAgrees unit rel) {src : List Byte} {taken room : Nat} (h : taken < src.length)
    (hu : ∀ u, unit (src.drop taken) = some u → room < u.out.size) : MustStop rel src taken room := by
  refine ⟨h, fun k out hr => ?_⟩
  obtain ⟨o, h₁, rfl⟩ := ha.finds _ _ _ hr
  rw [← ZltOut.size_eq]
  exact hu _ h₁

/-- Every source has units placed up to its end, or up to a unit that cannot be placed in the room. -/
theorem units_or_stop {unit : List Byte → Option ZltUnit} {rel : List Byte → Nat → List Byte → Prop}
    (ha : UnitAgrees unit rel) : ∀ (k : Nat) (src : List Byte) (room : Nat), src.length ≤ k →
    ∃ n out, Units rel src n out ∧ out.length ≤ room ∧ (n = src.length ∨ MustStop rel src n (room - out.length)) := by
  intro k
  induction k with
  | zero => exact fun src room h => ⟨0, [], .nil, by simp, .inl (by omega)⟩
  | succ k ih =>
    intro src room h
    by_cases hs : src = []
    · exact ⟨0, [], .nil, by simp, .inl (by simp [hs])⟩
    · have hpos := List.length_pos_of_ne_nil hs
      by_cases hu : ∃ t out, rel src t out ∧ out.length ≤ room
      · obtain ⟨t, out, hu, hl⟩ := hu
        obtain ⟨ht, ht'⟩ := ha.bounds _ _ _ hu
        obtain ⟨n, outs, h₁, h₂, h₃⟩ := ih (src.drop t) (room - out.length) (by rw [List.length_drop]; omega)
        refine ⟨t + n, out ++ outs, .cons hu h₁, by rw [List.length_append]; omega, ?_⟩
        rw [List.length_drop] at h₃
        rcases h₃ with h₃ | ⟨h₃, h₄⟩
        · exact .inl (by omega)
        · refine .inr ⟨by rw [List.length_drop] at h₃; omega, fun k' out' hu' => ?_⟩
          have := h₄ k' out' (by rwa [List.drop_drop])
          rw [List.length_append]
          omega
      · refine ⟨0, [], .nil, by simp, .inr ⟨hpos, fun t out hu' => ?_⟩⟩
        by_contra hc
        exact hu ⟨t, out, hu', by simpa using hc⟩

/-- The forward transform of any source, without a bound on the room: at most twice as long (43_zlt.md R186). -/
theorem ForwardUnit.units_exist : ∀ (k : Nat) (src : List Byte), src.length ≤ k →
    ∃ out, Units ForwardUnit src src.length out ∧ out.length ≤ 2 * src.length := by
  intro k
  induction k with
  | zero =>
    intro src h
    obtain rfl : src = [] := List.eq_nil_of_length_eq_zero (by omega)
    exact ⟨[], .nil, by simp⟩
  | succ k ih =>
    intro src h
    by_cases hs : src = []
    · subst hs
      exact ⟨[], .nil, by simp⟩
    · obtain ⟨t, out, hu⟩ := ForwardUnit.exists hs
      obtain ⟨h₁, h₂, _, h₃⟩ := hu.bounds
      obtain ⟨outs, h₄, h₅⟩ := ih (src.drop t) (by rw [List.length_drop]; omega)
      rw [List.length_drop] at h₄ h₅
      have := Units.cons hu h₄
      rw [show t + (src.length - t) = src.length by omega] at this
      exact ⟨out ++ outs, this, by rw [List.length_append]; omega⟩

/-! ### The inverse undoes the forward transform -/

/-- The bits of a number, most significant first, fold back to it. -/
theorem foldl_bits_eq (code : List Byte) : ∀ (rl : Nat),
   (∀ j, (h : j < code.length) → code[j] = BitVec.ofNat 8 (rl / 2 ^ (code.length - 1 - j) % 2)) →
   code.foldl (fun r c => 2 * r + c.toNat) (rl / 2 ^ code.length) = rl ∧ ∀ c ∈ code, c.toNat ≤ 1 := by
  induction code using List.reverseRecOn with
  | nil => simp
  | append_singleton init last ih =>
    intro rl h
    have hl := h init.length (by simp)
    simp at hl
    have := ih (rl / 2) (fun j hj => by
      have := h j (by simp; omega)
      rw [List.getElem_append_left hj] at this
      rw [this, Nat.div_div_eq_div_mul, ← pow_succ']
      congr 4
      simp; omega)
    obtain ⟨h1, h2⟩ := this
    have hln : last.toNat = rl % 2 := by rw [hl, BitVec.toNat_ofNat]; omega
    constructor
    · rw [List.foldl_append, List.length_append, List.length_singleton, pow_succ', ← Nat.div_div_eq_div_mul, h1]
      simp [hln]; omega
    · intro c hc
      rcases List.mem_append.1 hc with h | h
      · exact h2 c h
      · simp at h; subst h; omega

/-- The inverse scan of a run code gives the run counter back (43_zlt.md R184, R187, R191). -/
theorem RunCode.foldl {rl : Nat} {code : List Byte} (h : RunCode rl code) :
    code.foldl (fun r c => 2 * r + c.toNat) 1 = rl ∧ ∀ c ∈ code, c.toNat ≤ 1 := by
  obtain ⟨h1, h2, h3⟩ := h
  have := foldl_bits_eq code rl h3
  have e : rl / 2 ^ code.length = 1 := by
    apply Nat.div_eq_of_lt_le <;> [omega; rw [pow_succ] at h2]; omega
  rwa [e] at this

/-- No run of zero bytes longer than a run code can hold (43_zlt.md R191). -/
def NoLongRun (src : List Byte) : Prop := ∀ (xs ys : List Byte) (k : Nat), src = xs ++ List.replicate k 0#8 ++ ys → k ≤ 2 ^ 31 - 2

/-- The output of a forward run is a sequence of inverse units that stand for its source (43_zlt.md R191). -/
theorem inverse_of_forward {src out : List Byte} {n : Nat} (h : Units ForwardUnit src n out) : n = src.length → NoLongRun src →
   Units InverseUnit out out.length src ∧ (src.head? ≠ some 0#8 → ∀ v, out.head? = some v → 1 < v.toNat) := by
  induction h with
  | nil => intro h1 _; have : _ = [] := List.eq_nil_of_length_eq_zero h1.symm; subst this; exact ⟨.nil, by simp⟩
  | @cons src o outs k n hu hus ih =>
    intro hn hL
    have hL' : NoLongRun (src.drop k) := fun xs ys j he =>
      hL (src.take k ++ xs) ys j (by
        rw [List.append_assoc, List.append_assoc, ← List.append_assoc xs, ← he, List.take_append_drop])
    have hb := hu.bounds
    obtain ⟨ih1, ih2⟩ := ih (by simp; omega) hL'
    cases hu with
    | @run _ rest code h1 h2 h3 hc =>
      rw [List.drop_append_of_le_length (by simp)] at ih1 ih2
      simp only [List.drop_replicate, Nat.sub_self, List.replicate_zero, List.nil_append] at ih1 ih2
      obtain ⟨hf, hbits⟩ := RunCode.foldl hc
      have hh : rest.head? ≠ some 0#8 := by
        rcases h3 with h3 | h3
        · intro h0
          cases rest with
          | nil => simp at h0
          | cons v ys =>
            simp at h0; subst h0
            have := hL [] ys (k+1) (by rw [List.nil_append, List.replicate_succ']; simp)
            omega
        · exact h3
      have hlen : o.length ≤ 30 := by
        have h4 := hc.1
        by_contra hlt
        have : 2 ^ 31 ≤ 2 ^ o.length := Nat.pow_le_pow_right (by omega) (by omega)
        omega
      have hne : o ≠ [] := by
        rintro rfl
        have := hc.2.1; simp at this; omega
      constructor
      · have := Units.cons (unit := InverseUnit) (src := o ++ outs)
          (out := List.replicate (o.foldl (fun rl c => 2 * rl + c.toNat) 1 - 1) 0#8) (k := o.length) (outs := rest) (n := outs.length)
          (.run hne hlen hbits (ih2 hh)) (by simpa using ih1)
        rw [hf] at this
        simpa using this
      · intro h0
        exfalso; apply h0
        obtain ⟨k, rfl⟩ : ∃ j, k = j + 1 := ⟨k - 1, by omega⟩
        simp [List.replicate_succ]
    | @escape v rest hv =>
      constructor
      · have := Units.cons (unit := InverseUnit) (src := 0xFF#8 :: (v - 0xFE#8) :: outs) (outs := rest)
          (n := outs.length) .escape (by simpa using ih1)
        have e : 254#8 + (v - 254#8) = v := by rw [BitVec.add_comm, BitVec.sub_add_cancel]
        rw [e] at this
        simpa [Nat.add_comm, Nat.add_left_comm, ← Nat.add_assoc] using this
      · intro _ w hw; simp at hw; subst hw; decide
    | @literal v rest hv0 hv =>
      have hv0' : v.toNat ≠ 0 := fun h => hv0 (BitVec.eq_of_toNat_eq h)
      have h1 : (v + 1#8).toNat = v.toNat + 1 := by rw [BitVec.toNat_add]; simp; omega
      constructor
      · have := Units.cons (unit := InverseUnit) (src := (v + 1#8) :: outs) (outs := rest) (n := outs.length)
          (.literal (by omega) (by omega)) (by simpa using ih1)
        rw [BitVec.add_sub_cancel] at this
        simpa [Nat.add_comm] using this
      · intro _ w hw; simp at hw; subst hw; omega

/-! ### Regions -/

theorem sourceCount_of_region {s : State} {n : Nat} (h : SourceRegion s n) : s.sourceCount = some n := by
  obtain ⟨h₁, h₂, rfl⟩ := h
  unfold State.sourceCount Params.bufSize
  rw [if_neg (by omega), if_neg (by omega)]

theorem region_of_sourceCount {s : State} {n : Nat} (h : s.sourceCount = some n) : SourceRegion s n := by
  unfold State.sourceCount Params.bufSize at h
  split_ifs at h with h₁ h₂ h₃
  · exact ⟨by omega, by omega, by rw [if_pos h₃]; exact (Option.some.inj h).symm⟩
  · exact ⟨by omega, by omega, by rw [if_neg h₃]; exact (Option.some.inj h).symm⟩

theorem sourceCount_none_iff (s : State) : s.sourceCount = none ↔ ∀ n, ¬ SourceRegion s n := by
  constructor
  · intro h n hn
    rw [sourceCount_of_region hn] at h
    simp at h
  · intro h
    cases hc : s.sourceCount with
    | none => rfl
    | some n => exact absurd (region_of_sourceCount hc) (h n)

theorem destFits_iff (s : State) : s.destFits = true ↔ DestRegion s := decide_eq_true_iff

theorem overlaps_iff (s : State) : s.overlaps = true ↔ Overlap s := by
  simp only [State.overlaps, Overlap, Bool.and_eq_true, decide_eq_true_eq]
  constructor
  · rintro ⟨⟨⟨h₁, h₂⟩, h₃⟩, h₄⟩
    rcases Nat.le_total s.regs.srcBase.toNat s.regs.dstBase.toNat with h | h
    · exact ⟨s.regs.dstBase.toNat, by omega, by omega⟩
    · exact ⟨s.regs.srcBase.toNat, by omega, by omega⟩
  · rintro ⟨a, h₁, h₂⟩
    omega

/-- The checks of ZFWD and ZINV pass exactly on usable regions that do not overlap (43_zlt.md R181). -/
theorem zltCount_eq_some_iff (s : State) (n : Nat) :
    s.zltCount = some n ↔ SourceRegion s n ∧ DestRegion s ∧ ¬ Overlap s := by
  unfold State.zltCount
  cases hc : s.sourceCount with
  | none =>
    have := (sourceCount_none_iff s).1 hc n
    simp [this]
  | some m =>
    have hm := region_of_sourceCount hc
    simp only [← destFits_iff, ← overlaps_iff]
    constructor
    · intro h
      split_ifs at h with hd
      simp only [Option.some.injEq] at h
      subst h
      simp only [Bool.and_eq_true, Bool.not_eq_true'] at hd
      exact ⟨hm, hd.1, by simp [hd.2]⟩
    · rintro ⟨h₁, h₂, h₃⟩
      have h₄ := sourceCount_of_region h₁
      rw [hc] at h₄
      rw [if_pos (by simp [h₂, h₃])]
      exact h₄

end Sys2Proof.Machine
end

