-- ==== Sys2Proof/Laws/Commands.lean ====
section
/-! SUPPORT. What each command can do, once for each: if it answers a next state, that state has this form. No invariant is
assumed. And the small facts the block commands share: counts, and a run of encodes that meets the frequency bound. -/

namespace Sys2Proof.Machine

/-! ### Counts -/

theorem countWord_of_lt {n : Nat} (h : n < 2 ^ 32) : countWord n = BitVec.ofNat 32 n := if_pos h

/-- A source count fits the 32-bit result register (43_zlt.md R181). -/
theorem SourceRegion.lt {s : State} {n : Nat} (h : SourceRegion s n) : n < 2 ^ 32 := by
  obtain ⟨_, h₂, rfl⟩ := h
  have := s.regs.srcLen.isLt
  split <;> omega

theorem SourceRegion.unique {s : State} {n k : Nat} (h : SourceRegion s n) (h' : SourceRegion s k) : n = k :=
  h.2.2.trans h'.2.2.symm

/-! ### The encoder -/

/-- How coding one byte can end (41_range_encoder.md R148). -/
theorem encodeByte_ends (b : Byte) (e : Encoder) :
    (∃ e' out, encodeByte b e = .coded e' out) ∨ encodeByte b e = .raised .seq ∨ encodeByte b e = .raised .freq ∨
      ∃ f, encodeByte b e = .crashed f := by
  unfold encodeByte
  split_ifs
  · exact .inr (.inl rfl)
  · exact .inr (.inr (.inl rfl))
  · exact .inr (.inr (.inr ⟨_, rfl⟩))
  · split
    · exact .inl ⟨_, _, rfl⟩
    · exact .inr (.inr (.inr ⟨_, rfl⟩))
    · exact .inr (.inr (.inr ⟨_, rfl⟩))

theorem encodeRun_code {bs : List Byte} {e : Encoder} {c : StatusCode} (h : (encodeRun bs e).code = .ok c) :
    c = .ok ∨ c = .seq ∨ c = .freq := by
  induction bs generalizing e with
  | nil => cases h; exact .inl rfl
  | cons b bs ih =>
    unfold encodeRun at h
    rcases encodeByte_ends b e with ⟨e', out, hb⟩ | hb | hb | ⟨f, hb⟩ <;> rw [hb] at h
    · exact ih h
    · cases h; exact .inr (.inl rfl)
    · cases h; exact .inr (.inr rfl)
    · cases h

theorem execEncb_next {b : Byte} {s t : State} (h : execEncb b s = .next t) :
    (∃ e out, encodeByte b s.enc = .coded e out ∧
      t = State.finish { s with enc := e, outStream := outBytes s.outStream out } .ok) ∨
    t = s.finish .seq ∨ t = s.finish .freq := by
  unfold execEncb at h
  rcases encodeByte_ends b s.enc with ⟨e', out, hb⟩ | hb | hb | ⟨f, hb⟩ <;> rw [hb] at h <;> cases h
  · exact .inl ⟨e', out, hb, rfl⟩
  · exact .inr (.inl rfl)
  · exact .inr (.inr rfl)

theorem execEncf_next {s t : State} (h : execEncf s = .next t) :
    ∃ e events, t = State.finish { s with enc := e, outStream := s.outStream ++ events } .ok := by
  unfold execEncf at h
  split_ifs at h <;> cases h
  · exact ⟨_, _, by rw [outFlush, outBytes, List.append_assoc]⟩
  · exact ⟨s.enc, [], by simp⟩

theorem execEncblk_next {s t : State} (h : execEncblk s = .next t) :
    t = s.refuseArgs ∨ ∃ n e out p c, s.sourceCount = some n ∧ (c = .ok ∨ c = .seq ∨ c = .freq) ∧
      encodeRun (s.bufSlice s.regs.srcBase.toNat n) s.enc = ⟨e, out, p, .ok c⟩ ∧
      t = State.finish (State.setCounts { s with enc := e, outStream := outBytes s.outStream out }
        (countWord p) (countWord out.length)) c := by
  unfold execEncblk at h
  cases hn : s.sourceCount with
  | none => rw [hn] at h; cases h; exact .inl rfl
  | some n =>
    rw [hn] at h
    cases hr : encodeRun (s.bufSlice s.regs.srcBase.toNat n) s.enc with
    | mk e out p code =>
      cases code with
      | error f => simp only [hr] at h; cases h
      | ok c =>
        simp only [hr] at h
        cases h
        exact .inr ⟨n, e, out, p, c, rfl, encodeRun_code (by rw [hr]), hr, rfl⟩

theorem EncodesAll.total {e e' : Encoder} {bs out : List Byte} (he : EncodesAll e bs out e') (h : e.Inv) :
    e'.freq.total = e.freq.total + bs.length ∧ (e.flushed = false → e'.flushed = false) := by
  induction he with
  | nil => simp
  | cons hb _ ih =>
    obtain ⟨_, h₁, h₂, h₃⟩ := hb.inv h
    obtain ⟨h₄, h₅⟩ := ih h₁
    exact ⟨by rw [h₄, h₃, List.length_cons]; omega, fun _ => h₅ h₂⟩

/-- A run of encodes that meets the frequency bound before its last byte (41_range_encoder.md R150). -/
theorem encodeRun_full {e e' : Encoder} {bs out : List Byte} (he : EncodesAll e bs out e') (h : e.Inv)
    (ht : 2 ^ 40 ≤ e'.freq.total) (hf : e'.flushed = false) (b : Byte) (rest : List Byte) :
    encodeRun (bs ++ b :: rest) e = ⟨e', out, bs.length, .ok .freq⟩ := by
  induction he with
  | nil => simp [encodeRun, encodeByte_full b hf ht]
  | cons hb _ ih => simp [encodeRun, encodeByte_of_encodes hb h, ih (hb.inv h).2.1 ht hf]

/-! ### The decoder -/

/-- How decoding one symbol can end (42_range_decoder.md R165). -/
theorem decodeSymbol_ends (stream : List Byte) (d : Decoder) (pos : Nat) :
    (∃ d' pos' b, decodeSymbol stream d pos = .byte d' pos' b ∧ d'.err = d.err ∧ d'.errcode = d.errcode) ∨
    (∃ c pos', c ∈ [.eos, .corrupt, .io, .freq] ∧ decodeSymbol stream d pos = .raised c pos') ∨
    ∃ f, decodeSymbol stream d pos = .crashed f := by
  unfold decodeSymbol
  rcases initCode stream d pos with ⟨_ | code, pos₁⟩
  · simp only
    split_ifs <;> exact .inr (.inl ⟨_, _, by simp, rfl⟩)
  · simp only
    split_ifs
    · exact .inr (.inl ⟨_, _, by simp, rfl⟩)
    · exact .inr (.inr ⟨_, rfl⟩)
    · exact .inr (.inl ⟨_, _, by simp, rfl⟩)
    · exact .inr (.inl ⟨_, _, by simp, rfl⟩)
    · split
      · exact .inl ⟨_, _, _, rfl, rfl, rfl⟩
      · exact .inr (.inl ⟨_, _, by simp, rfl⟩)
      · exact .inr (.inr ⟨_, rfl⟩)

theorem decodeRun_ends {stream : List Byte} (n : Nat) {d : Decoder} {pos : Nat} {c : StatusCode}
    (h : (decodeRun stream n d pos).code = .ok c) :
    c ∈ [.ok, .eos, .corrupt, .io, .freq] ∧ (decodeRun stream n d pos).bytes.length ≤ n := by
  induction n generalizing d pos with
  | zero => cases h; simp [decodeRun]
  | succ n ih =>
    unfold decodeRun at h ⊢
    rcases decodeSymbol_ends stream d pos with ⟨d', pos', b, hd, -, -⟩ | ⟨c', pos', hc, hd⟩ | ⟨f, hd⟩ <;>
      simp only [hd] at h ⊢
    · exact ⟨(ih h).1, by simpa using (ih h).2⟩
    · cases h
      exact ⟨List.mem_cons_of_mem _ hc, by simp⟩
    · cases h

theorem execDecb_next {s t : State} (h : execDecb s = .next t) :
    (s.dec.err = true ∧ t = s.setCode s.dec.errcode) ∨
    (s.dec.err = false ∧ ∃ d pos b, decodeSymbol s.params.inStream s.dec s.inPos = .byte d pos b ∧
      t = State.finish { s with dec := d, inPos := pos, regs := { s.regs with result := b.zeroExtend 32 } } .ok) ∨
    (s.dec.err = false ∧ ∃ c pos, c ∈ [.eos, .corrupt, .io, .freq] ∧
      decodeSymbol s.params.inStream s.dec s.inPos = .raised c pos ∧
      t = State.finish { s with dec := s.dec.latch c, inPos := pos } c) := by
  unfold execDecb at h
  cases he : s.dec.err
  · rw [he, if_neg (by simp)] at h
    rcases decodeSymbol_ends s.params.inStream s.dec s.inPos with ⟨d', pos', b, hd, -, -⟩ | ⟨c, pos', hc, hd⟩ | ⟨f, hd⟩ <;>
      rw [hd] at h <;> cases h
    · exact .inr (.inl ⟨rfl, _, _, _, hd, rfl⟩)
    · exact .inr (.inr ⟨rfl, _, _, hc, hd, rfl⟩)
  · rw [he, if_pos rfl] at h
    cases h
    exact .inl ⟨rfl, rfl⟩

theorem execDecblk_next {s t : State} (h : execDecblk s = .next t) :
    (s.dec.err = true ∧ t = (s.setCounts 0 0).setCode s.dec.errcode) ∨
    (s.dec.err = false ∧ t = s.refuseArgs) ∨
    (s.dec.err = false ∧ DestRegion s ∧ ∃ d pos bs c,
      decodeRun s.params.inStream s.regs.dstLen.toNat s.dec s.inPos = ⟨d, pos, bs, .ok c⟩ ∧
      c ∈ [.ok, .eos, .corrupt, .io, .freq] ∧ bs.length ≤ s.regs.dstLen.toNat ∧
      t = State.finish (State.setCounts
        { s with dec := d, inPos := pos, buf := s.buf.writeList s.regs.dstBase.toNat bs }
        (BitVec.ofNat 32 (pos - s.inPos)) (BitVec.ofNat 32 bs.length)) c) := by
  unfold execDecblk at h
  cases he : s.dec.err
  · rw [he, if_neg (by simp)] at h
    cases hd : s.destFits
    · rw [hd, if_neg (by simp)] at h
      cases h
      exact .inr (.inl ⟨rfl, rfl⟩)
    · rw [hd, if_pos rfl] at h
      cases hr : decodeRun s.params.inStream s.regs.dstLen.toNat s.dec s.inPos with
      | mk d pos bs code =>
        cases code with
        | error f => simp only [hr] at h; cases h
        | ok c =>
          simp only [hr] at h
          cases h
          have h₁ := decodeRun_ends (stream := s.params.inStream) s.regs.dstLen.toNat (d := s.dec) (pos := s.inPos)
            (c := c) (by rw [hr])
          rw [hr] at h₁
          exact .inr (.inr ⟨rfl, (destFits_iff s).1 hd, d, pos, bs, c, rfl, h₁.1, h₁.2, rfl⟩)
  · rw [he, if_pos rfl] at h
    cases h
    exact .inl ⟨rfl, rfl⟩

/-! ### The zero-length transform -/

/-- A transform never produces more bytes than it has room for (43_zlt.md R182). -/
theorem zltRun_length_le (unit : List Byte → Option ZltUnit) (fuel : Nat) (src : List Byte) (room : Nat) :
    (zltRun unit fuel src room).out.length ≤ room := by
  induction fuel generalizing src room with
  | zero => cases src <;> simp [zltRun]
  | succ fuel ih =>
    cases src with
    | nil => simp [zltRun]
    | cons v rest =>
      unfold zltRun
      split
      · simp
      · rename_i u _
        split_ifs with hs
        · have := ih ((v :: rest).drop u.taken) (room - u.out.size)
          have := u.out.size_eq
          simp only [List.length_append]
          omega
        · simp

theorem zltCommand_form (unit : List Byte → Option ZltUnit) (s : State) :
    zltCommand unit s = s.refuseArgs ∨
    ∃ n r, SourceRegion s n ∧ DestRegion s ∧ ¬ Overlap s ∧
      r = zltRun unit n (s.bufSlice s.regs.srcBase.toNat n) s.regs.dstLen.toNat ∧
      r.out.length ≤ s.regs.dstLen.toNat ∧
      zltCommand unit s = State.finish (State.setCounts
        { s with buf := s.buf.writeList s.regs.dstBase.toNat r.out }
        (BitVec.ofNat 32 r.taken) (BitVec.ofNat 32 r.out.length)) (if r.placed then .ok else .space) := by
  cases hn : s.zltCount with
  | none => exact .inl (by rw [zltCommand, hn])
  | some n =>
    obtain ⟨h₁, h₂, h₃⟩ := (zltCount_eq_some_iff s n).1 hn
    exact .inr ⟨n, _, h₁, h₂, h₃, rfl, zltRun_length_le _ _ _ _, by rw [zltCommand, hn]⟩

/-! ### All commands -/

/-- Which meaning a command that answers a next state ran. -/
theorem exec_next {i : Instr} {s t : State} (h : exec i s = .next t) :
    (i = .nop ∧ t = s.finish .ok) ∨
    (∃ b, i = .encb b ∧ execEncb b s = .next t) ∨
    (i = .encf ∧ execEncf s = .next t) ∨
    (i = .encblk ∧ execEncblk s = .next t) ∨
    (i = .erst ∧ t = State.finish { s with enc := Encoder.initial } .ok) ∨
    (i = .decb ∧ execDecb s = .next t) ∨
    (i = .decblk ∧ execDecblk s = .next t) ∨
    (i = .drst ∧ t = State.finish { s with dec := Decoder.initial } .ok) ∨
    (i = .zfwd ∧ t = zltCommand forwardUnit s) ∨
    (i = .zinv ∧ t = zltCommand inverseUnit s) := by
  cases i <;> simp_all [exec, execNop, execErst, execDrst, execZfwd, execZinv, eq_comm]

end Sys2Proof.Machine
end

