-- ==== Sys2Proof/Laws/Encoding.lean ====
section
/-! SUPPORT. The fields of a command word as numbers, and the decoder as one chain of tests on the word
(30_encoding.md R92, R94). -/

namespace Sys2Proof

theorem and_ones (w : Word) : w &&& 0xFFFFFFFF#32 = w := by
  ext i hi
  simp
  interval_cases i <;> simp

/-- The mask of ENCB keeps the upper 24 bits. -/
theorem and_encbMask_toNat (w : Word) : (w &&& 0xFFFFFF00#32).toNat = w.toNat / 256 * 256 := by
  have h : w &&& 0xFFFFFF00#32 = w >>> 8 <<< 8 := by
    ext i hi
    simp
    interval_cases i <;> simp
  have := w.isLt
  rw [h, BitVec.toNat_shiftLeft, BitVec.toNat_ushiftRight, Nat.shiftRight_eq_div_pow, Nat.shiftLeft_eq]
  omega

theorem commandWord_toNat (opc : BitVec 8) (arg : Byte) :
    (commandWord opc arg).toNat = opc.toNat * 2 ^ 24 + arg.toNat := by
  have h : (opc.toNat * 2 ^ 16 ||| (0#16).toNat) = opc.toNat * 2 ^ 16 := by simp
  have := arg.isLt
  simp only [commandWord, BitVec.toNat_append, Nat.shiftLeft_eq]
  rw [h, Nat.mul_comm (opc.toNat * 2 ^ 16), ← Nat.two_pow_add_eq_or_of_lt (by omega)]
  omega

theorem argField_toNat (w : Word) : (argField w).toNat = w.toNat % 256 := by
  simp [argField]

theorem zeroField_toNat (w : Word) : (zeroField w).toNat = w.toNat / 256 % 65536 := by
  simp [zeroField, Nat.shiftRight_eq_div_pow]

theorem opcField_toNat (w : Word) : (opcField w).toNat = w.toNat / 2 ^ 24 := by
  have := w.isLt
  simp [opcField, Nat.shiftRight_eq_div_pow]
  omega

/-- A word selects ENCB's row exactly when it is the word of ENCB with its own `ARG`. -/
theorem and_encbMask_iff (w : Word) : w &&& 0xFFFFFF00#32 = 0x01000000#32 ↔ w = commandWord 0x01#8 (argField w) := by
  rw [← BitVec.toNat_inj, ← BitVec.toNat_inj (x := w), and_encbMask_toNat, commandWord_toNat, argField_toNat]
  have := w.isLt
  simp only [BitVec.toNat_ofNat]
  omega

/-- The decoder as one chain of tests: the ten words of R94, all but ENCB's constants. -/
theorem decode_eq_ite (w : Word) : decode w =
    if w = 0x00000000#32 then some .nop
    else if w = commandWord 0x01#8 (argField w) then some (.encb (argField w))
    else if w = 0x02000000#32 then some .encf
    else if w = 0x03000000#32 then some .encblk
    else if w = 0x04000000#32 then some .erst
    else if w = 0x10000000#32 then some .decb
    else if w = 0x11000000#32 then some .decblk
    else if w = 0x12000000#32 then some .drst
    else if w = 0x20000000#32 then some .zfwd
    else if w = 0x21000000#32 then some .zinv
    else none := by
  simp only [decode, opTable, List.find?, and_ones, ← and_encbMask_iff, beq_eq_decide]
  split_ifs <;> simp [*]

end Sys2Proof
end

