-- ==== Sys2Proof/Laws/PerInstr.lean ====
section
/-! SUPPORT. Laws said once for each command: the word of a command has a `ZERO` field of 0, and an `ARG` of 0 unless it is
ENCB's (30_encoding.md R92, R95). -/

namespace Sys2Proof.Laws

/-- The unused fields of the word of a command are 0 (30_encoding.md R95). -/
def ZeroField.Statement (i : Instr) : Prop :=
  zeroField (encode i) = 0#16 ∧ ((∀ b, i ≠ .encb b) → argField (encode i) = 0#8)

theorem ZeroField.nop : ZeroField.Statement .nop := ⟨by decide, fun _ => by decide⟩

theorem ZeroField.encb (b : Byte) : ZeroField.Statement (.encb b) := by
  refine ⟨?_, fun h => absurd rfl (h b)⟩
  have := b.isLt
  rw [← BitVec.toNat_inj, zeroField_toNat, encode, commandWord_toNat, BitVec.toNat_ofNat, BitVec.toNat_ofNat]
  omega

theorem ZeroField.encf : ZeroField.Statement .encf := ⟨by decide, fun _ => by decide⟩
theorem ZeroField.encblk : ZeroField.Statement .encblk := ⟨by decide, fun _ => by decide⟩
theorem ZeroField.erst : ZeroField.Statement .erst := ⟨by decide, fun _ => by decide⟩
theorem ZeroField.decb : ZeroField.Statement .decb := ⟨by decide, fun _ => by decide⟩
theorem ZeroField.decblk : ZeroField.Statement .decblk := ⟨by decide, fun _ => by decide⟩
theorem ZeroField.drst : ZeroField.Statement .drst := ⟨by decide, fun _ => by decide⟩
theorem ZeroField.zfwd : ZeroField.Statement .zfwd := ⟨by decide, fun _ => by decide⟩
theorem ZeroField.zinv : ZeroField.Statement .zinv := ⟨by decide, fun _ => by decide⟩

end Sys2Proof.Laws
end

