-- ==== Sys2Proof/Laws/Run.lean ====
section
/-! SUPPORT. Laws of runs (70_reset_and_hazards.md R260): no operation depends on the operations still pending, what one
issued operation can do, and how a run is made of its operations. -/

namespace Sys2Proof.Machine

/-! ### The pending operations do not matter -/

/-- An outcome with another list of pending operations. -/
def withOps (o : Host.Outcome State Fault Refusal) (ops : List HostOp) : Host.Outcome State Fault Refusal :=
  match o with
  | .next t => .next { t with hostOps := ops }
  | .fault f => .fault f
  | .refused r => .refused r

@[simp] theorem withOps_next (t : State) (ops : List HostOp) : withOps (.next t) ops = .next { t with hostOps := ops } := rfl
@[simp] theorem withOps_fault (f : Fault) (ops : List HostOp) : withOps (.fault f) ops = .fault f := rfl
@[simp] theorem withOps_refused (r : Refusal) (ops : List HostOp) : withOps (.refused r) ops = .refused r := rfl

theorem State.bufSlice_hostOps (s : State) (ops : List HostOp) (a n : Nat) :
    State.bufSlice { s with hostOps := ops } a n = s.bufSlice a n := by
  induction n generalizing a with
  | zero => rfl
  | succ n ih => rw [State.bufSlice, State.bufSlice, ih]; rfl

theorem zltCommand_hostOps (unit : List Byte → Option ZltUnit) (s : State) (ops : List HostOp) :
    zltCommand unit { s with hostOps := ops } = { zltCommand unit s with hostOps := ops } := by
  have h : State.zltCount { s with hostOps := ops } = s.zltCount := rfl
  rw [zltCommand, zltCommand, h]
  cases s.zltCount with
  | none => rfl
  | some n => simp only [State.bufSlice_hostOps]; rfl

theorem execEncb_hostOps (b : Byte) (s : State) (ops : List HostOp) :
    execEncb b { s with hostOps := ops } = withOps (execEncb b s) ops := by
  rw [execEncb, execEncb]
  cases encodeByte b s.enc <;> rfl

theorem execEncf_hostOps (s : State) (ops : List HostOp) :
    execEncf { s with hostOps := ops } = withOps (execEncf s) ops := by
  unfold execEncf
  split <;> rfl

theorem execEncblk_hostOps (s : State) (ops : List HostOp) :
    execEncblk { s with hostOps := ops } = withOps (execEncblk s) ops := by
  have h : State.sourceCount { s with hostOps := ops } = s.sourceCount := rfl
  rw [execEncblk, execEncblk, h]
  cases s.sourceCount with
  | none => rfl
  | some n =>
    simp only [State.bufSlice_hostOps]
    cases (encodeRun (s.bufSlice s.regs.srcBase.toNat n) s.enc).code <;> rfl

theorem execDecb_hostOps (s : State) (ops : List HostOp) :
    execDecb { s with hostOps := ops } = withOps (execDecb s) ops := by
  unfold execDecb
  split
  · rfl
  · cases decodeSymbol s.params.inStream s.dec s.inPos <;> rfl

theorem execDecblk_hostOps (s : State) (ops : List HostOp) :
    execDecblk { s with hostOps := ops } = withOps (execDecblk s) ops := by
  have h : State.destFits { s with hostOps := ops } = s.destFits := rfl
  unfold execDecblk
  rw [h]
  split
  · rfl
  · split
    · simp only
      cases (decodeRun s.params.inStream s.regs.dstLen.toNat s.dec s.inPos).code <;> rfl
    · rfl

/-- No command depends on the operations still pending, and none changes them (10_state.md R20). -/
theorem exec_hostOps (i : Instr) (s : State) (ops : List HostOp) :
    exec i { s with hostOps := ops } = withOps (exec i s) ops := by
  cases i with
  | nop => rfl
  | encb b => exact execEncb_hostOps b s ops
  | encf => exact execEncf_hostOps s ops
  | encblk => exact execEncblk_hostOps s ops
  | erst => rfl
  | decb => exact execDecb_hostOps s ops
  | decblk => exact execDecblk_hostOps s ops
  | drst => rfl
  | zfwd => exact congrArg Host.Outcome.next (zltCommand_hostOps forwardUnit s ops)
  | zinv => exact congrArg Host.Outcome.next (zltCommand_hostOps inverseUnit s ops)

theorem dispatch_hostOps (w : Word) (s : State) (ops : List HostOp) :
    dispatch w { s with hostOps := ops } = withOps (dispatch w s) ops := by
  unfold dispatch
  cases decode w with
  | none => rfl
  | some i => exact exec_hostOps i s ops

/-- No host operation depends on the operations after it. -/
theorem perform_hostOps (op : HostOp) (s : State) (ops : List HostOp) :
    perform op { s with hostOps := ops } = withOps (perform op s) ops := by
  cases op with
  | regRead off => rfl
  | regWrite off v =>
    simp only [perform, regWriteOp]
    split
    · exact dispatch_hostOps v s ops
    · unfold State.storeReg
      split_ifs <;> rfl
  | bufRead a =>
    simp only [perform, bufReadOp]
    split <;> rfl
  | bufWrite a b =>
    simp only [perform, bufWriteOp]
    split <;> rfl
  | reset => rfl

/-! ### What one operation leaves -/

theorem exec_replies {i : Instr} {s t : State} (h : exec i s = .next t) :
    t.replies = s.replies ∧ t.hostOps = s.hostOps ∧ t.params = s.params := by
  rcases exec_next h with ⟨rfl, rfl⟩ | ⟨b, rfl, h⟩ | ⟨rfl, h⟩ | ⟨rfl, h⟩ | ⟨rfl, rfl⟩ | ⟨rfl, h⟩ | ⟨rfl, h⟩ | ⟨rfl, rfl⟩ |
    ⟨rfl, rfl⟩ | ⟨rfl, rfl⟩
  · exact ⟨rfl, rfl, rfl⟩
  · rcases execEncb_next h with ⟨_, _, _, rfl⟩ | rfl | rfl <;> exact ⟨rfl, rfl, rfl⟩
  · obtain ⟨_, _, rfl⟩ := execEncf_next h
    exact ⟨rfl, rfl, rfl⟩
  · rcases execEncblk_next h with rfl | ⟨_, _, _, _, _, _, _, _, rfl⟩ <;> exact ⟨rfl, rfl, rfl⟩
  · exact ⟨rfl, rfl, rfl⟩
  · rcases execDecb_next h with ⟨_, rfl⟩ | ⟨_, _, _, _, _, rfl⟩ | ⟨_, _, _, _, _, rfl⟩ <;> exact ⟨rfl, rfl, rfl⟩
  · rcases execDecblk_next h with ⟨_, rfl⟩ | ⟨_, rfl⟩ | ⟨_, _, _, _, _, _, _, _, _, rfl⟩ <;> exact ⟨rfl, rfl, rfl⟩
  · exact ⟨rfl, rfl, rfl⟩
  · rcases zltCommand_form forwardUnit s with h | ⟨_, _, _, _, _, _, _, h⟩ <;> rw [h] <;> exact ⟨rfl, rfl, rfl⟩
  · rcases zltCommand_form inverseUnit s with h | ⟨_, _, _, _, _, _, _, h⟩ <;> rw [h] <;> exact ⟨rfl, rfl, rfl⟩

/-- A read appends one value to the replies, every other operation none; the operations still pending and the parameters of the
run stay (44_system.md R201 to R203, 70_reset_and_hazards.md R245). -/
theorem perform_replies {op : HostOp} {s t : State} (h : perform op s = .next t) :
    (∃ vs, t.replies = s.replies ++ vs ∧ vs.length = if op.isRead then 1 else 0) ∧ t.hostOps = s.hostOps ∧
      t.params = s.params := by
  cases op with
  | regRead off => cases h; exact ⟨⟨_, rfl, rfl⟩, rfl, rfl⟩
  | regWrite off v =>
    simp only [perform, regWriteOp, dispatch] at h
    split_ifs at h
    · split at h
      · obtain ⟨h₁, h₂, h₃⟩ := exec_replies h
        exact ⟨⟨[], by simp [h₁], rfl⟩, h₂, h₃⟩
      · cases h
        exact ⟨⟨[], by simp, rfl⟩, rfl, rfl⟩
    · obtain ⟨_, _, _, _, _, h'⟩ := s.storeReg_frame off v
      rw [h'] at h
      cases h
      exact ⟨⟨[], by simp, rfl⟩, rfl, rfl⟩
  | bufRead a =>
    simp only [perform, bufReadOp] at h
    split_ifs at h
    cases h
    exact ⟨⟨_, rfl, rfl⟩, rfl, rfl⟩
  | bufWrite a b =>
    simp only [perform, bufWriteOp] at h
    split_ifs at h
    cases h
    exact ⟨⟨[], by simp, rfl⟩, rfl, rfl⟩
  | reset => cases h; exact ⟨⟨[], by simp [State.resetEvent], rfl⟩, rfl, rfl⟩

/-! ### Runs -/

/-- Issuing an operation performs it with nothing else pending. -/
theorem issue_eq (op : HostOp) (s : State) : issue op s = perform op { s with hostOps := [] } := rfl

/-- What an issued operation leaves: one more reply where it is a read, and the parameters of the run. -/
theorem issue_replies {op : HostOp} {s t : State} (h : issue op s = .next t) :
    (∃ vs, t.replies = s.replies ++ vs ∧ vs.length = if op.isRead then 1 else 0) ∧ t.params = s.params :=
  have h' := perform_replies (s := { s with hostOps := [] }) h
  ⟨h'.1, h'.2.2⟩

/-- An issued operation leaves nothing pending. -/
theorem issue_hostOps {op : HostOp} {s t : State} (h : issue op s = .next t) : t.hostOps = [] :=
  (perform_replies (issue_eq op s ▸ h)).2.1

/-- A step with other operations pending is the issued operation, with those left pending. -/
theorem step_of_issue {op : HostOp} {s t : State} (h : issue op s = .next t) (rest : List HostOp) :
    step { s with hostOps := op :: rest } = .next { t with hostOps := rest } := by
  have h₁ : step { s with hostOps := op :: rest } = perform op { s with hostOps := rest } := rfl
  have h₂ := perform_hostOps op { s with hostOps := [] } rest
  rw [← issue_eq, h] at h₂
  rw [h₁]
  exact h₂

/-- A run that goes on after its first operation. -/
theorem runOps_cons_next {op : HostOp} {rest : List HostOp} {s : State} {c : Bool} {e : State × Bool}
    (h : runOps (op :: rest) s c = .next e) :
    ∃ t, issue op s = .next t ∧ runOps rest t (c && keepsClean op t) = .next e := by
  unfold runOps at h
  split at h
  · rename_i t ht
    exact ⟨t, ht, h⟩
  · cases h
  · cases h

/-- A run cut in two: its first part is a run, and the second goes on from where that ended. -/
theorem runOps_append_next {xs ys : List HostOp} {s : State} {c : Bool} {e : State × Bool}
    (h : runOps (xs ++ ys) s c = .next e) : ∃ t c', runOps xs s c = .next (t, c') ∧ runOps ys t c' = .next e := by
  induction xs generalizing s c with
  | nil => exact ⟨s, c, rfl, h⟩
  | cons op xs ih =>
    obtain ⟨t, h₁, h₂⟩ := runOps_cons_next h
    obtain ⟨t', c', h₃, h₄⟩ := ih h₂
    exact ⟨t', c', by simp only [runOps, h₁, h₃], h₄⟩

/-- What a run's parts are, when it ends. -/
theorem runFrom_next {s : State} {ops : List HostOp} {r : RunResult} (h : runFrom s ops = .next r) :
    runOps ops { s with hostOps := [] } true = .next (r.final, r.clean) ∧
      r.values = r.final.replies.drop s.replies.length := by
  unfold runFrom at h
  split at h
  · rename_i t c ht
    cases h
    exact ⟨ht, rfl⟩
  · cases h
  · cases h

/-- A machine behind the host's interface, one step on. -/
theorem run_succ (M : Host.Core) {s t : M.State} (k : Nat) (h : M.step s = .next t) : M.run (k + 1) s = M.run k t := by
  simp only [Host.Core.run, h]

theorem core_run_succ {s t : State} (k : Nat) (h : step s = .next t) :
    Sys2Proof.core.run (k + 1) s = Sys2Proof.core.run k t := run_succ Sys2Proof.core k h

/-- A run of the operations is a run of the block. -/
theorem runFrom_of_runOps {s : State} {ops : List HostOp} {e : State × Bool}
    (h : runOps ops { s with hostOps := [] } true = .next e) :
    runFrom s ops = .next ⟨e.1, e.1.replies.drop s.replies.length, e.2⟩ := by
  unfold runFrom
  rw [h]

end Sys2Proof.Machine
end

