-- ==== Sys2Proof/Laws/Value.lean ====
section
/-! SUPPORT. The coded stream read as one number: coding narrows an interval the number stays in, so a decoder that reads the
number finds the symbols that were coded (41_range_encoder.md R141, R145, R149; 42_range_decoder.md R162, R164). -/

namespace Sys2Proof.Machine

/-- Reading two byte lists as one number. -/
theorem bytesValue_append (xs ys : List Byte) :
    bytesValue (xs ++ ys) = bytesValue xs * 256 ^ ys.length + bytesValue ys := by
  rw [bytesValue, List.foldl_append, bytesValue_foldl]; rfl

theorem drainBytes_length (n : Nat) (r : CoderReg) : (drainBytes n r).length = n := by
  induction n generalizing r with
  | zero => rfl
  | succ n ih => simp [drainBytes, ih]

/-- Draining shifts the register out of the top. -/
theorem drainBytes_value (n : Nat) (r : CoderReg) :
    ∃ c, c < 2 ^ 56 ∧ r.toNat * 256 ^ n = bytesValue (drainBytes n r) * 2 ^ 56 + c := by
  induction n generalizing r with
  | zero => exact ⟨r.toNat, r.isLt, by simp [drainBytes, bytesValue]⟩
  | succ n ih =>
    obtain ⟨c, h₁, h₂⟩ := ih (r <<< 8)
    refine ⟨c, h₁, ?_⟩
    have h₃ : r.toNat * 256 = r.toNat / 2 ^ 48 * 2 ^ 56 + (r <<< 8).toNat := by
      rw [shiftLeft8_toNat]
      omega
    rw [drainBytes, bytesValue_cons, drainBytes_length, topByte_toNat, pow_succ']
    linear_combination 256 ^ n * h₃ + h₂

/-- The bytes a flush drains are the register `low`, most significant byte first (41_range_encoder.md R149). -/
theorem bytesValue_drain (r : CoderReg) : bytesValue (drainBytes 7 r) = r.toNat := by
  obtain ⟨c, h₁, h₂⟩ := drainBytes_value 7 r
  omega

/-- A renormalisation moves bits out of `low` and never widens the scaled interval (41_range_encoder.md R145, R146). -/
theorem RenormRun.value {low range low' range' : Nat} {out : List Byte} (h : RenormRun low range out low' range') :
   LoopInterval low range →
   low * 256 ^ out.length = bytesValue out * 2 ^ 56 + low' ∧ range' ≤ range * 256 ^ out.length := by
  have ht : ∀ {low range}, LoopInterval low range → (BitVec.ofNat 8 (low / 2^48)).toNat = low / 2^48 := by
    intro low range h
    have := h.pos; have := h.fits
    rw [BitVec.toNat_ofNat]; omega
  induction h with
  | stop => intro _; simp [bytesValue]
  | @caseA low range out l r hs _ ih =>
    intro hl
    obtain ⟨h1, h2, h3⟩ := hl.caseA hs
    obtain ⟨i1, i2⟩ := ih h3
    rw [h2] at i2
    rw [bytesValue_cons, List.length_cons, pow_succ, ht hl]
    generalize hP : 256 ^ out.length = P at *
    constructor
    · have : low * 256 = low / 2^48 * 2^56 + low * 256 % 2^56 := by omega
      calc low * (P * 256) = (low * 256) * P := by ring
        _ = (low / 2^48 * 2^56 + low * 256 % 2^56) * P := by rw [← this]
        _ = low / 2^48 * P * 2^56 + low * 256 % 2^56 * P := by ring
        _ = _ := by rw [i1]; ring
    · calc _ ≤ _ := i2
        _ = _ := by ring
  | @caseB low range out l r hs hr _ ih =>
    intro hl
    obtain ⟨h0, h0', h1, h2, h3⟩ := hl.caseB hs hr
    obtain ⟨i1, i2⟩ := ih h3
    rw [h2] at i2
    rw [bytesValue_cons, List.length_cons, pow_succ, ht hl]
    generalize hP : 256 ^ out.length = P at *
    constructor
    · have : low * 256 = low / 2^48 * 2^56 + low * 256 % 2^56 := by omega
      calc low * (P * 256) = (low * 256) * P := by ring
        _ = (low / 2^48 * 2^56 + low * 256 % 2^56) * P := by rw [← this]
        _ = low / 2^48 * P * 2^56 + low * 256 % 2^56 * P := by ring
        _ = _ := by rw [i1]; ring
    · calc _ ≤ _ := i2
        _ ≤ range * 256 * P := Nat.mul_le_mul_right _ (Nat.mul_le_mul_right _ h0')
        _ = _ := by ring

/-- Coding a symbol: the bytes transferred and the new `low`, read as one number, are the narrowed interval's lower end
scaled, and the new interval lies inside the narrowed one (41_range_encoder.md R141, R145). -/
theorem CodesSymbol.value {m : FreqModel} {low range : CoderReg} (hi : Interval.Inv ⟨low, range⟩) (hm : m.Inv)
    {s : Nat} (hs : s ≤ 256) {out : List Byte} {l r : Nat} (h : CodesSymbol m low.toNat range.toNat s out l r) :
   (low.toNat + m.F s * (range.toNat / m.total)) * 256 ^ out.length = bytesValue out * 2^56 + l ∧
   bytesValue out * 2^56 + l + r ≤ (low.toNat + m.F (s+1) * (range.toNat / m.total)) * 256 ^ out.length ∧
   low.toNat + m.F (s+1) * (range.toNat / m.total) ≤ low.toNat + range.toNat := by
  have h1 := narrow_loopInterval hi hm hs
  obtain ⟨h2, h3⟩ := narrow_toNat hi hm hs
  obtain ⟨_, _, h4, h5⟩ := narrow_inside hi hm hs
  rw [h2, h3] at h1 h4 h5
  unfold unitWidth at h4
  simp only at *
  obtain ⟨v1, v2⟩ := RenormRun.value h h1
  refine ⟨v1, ?_, by rw [h4] at h5; exact h5⟩
  rw [← v1, ← h4]
  generalize low.toNat + m.F s * (range.toNat / m.total) = a at *
  generalize range.toNat / m.total * (m.F (s + 1) - m.F s) = c at *
  rw [Nat.add_mul]
  omega

/-- The bytes appended and the final `low`, read as one number, lie in the scaled interval of the first encoder. -/
theorem EncodesAll.value {e e' : Encoder} {bs out : List Byte} (h : EncodesAll e bs out e') (hi : e.Inv) :
   e.low.toNat * 256 ^ out.length ≤ bytesValue out * 2^56 + e'.low.toNat ∧
   bytesValue out * 2^56 + e'.low.toNat + e'.range.toNat ≤ (e.low.toNat + e.range.toNat) * 256 ^ out.length := by
  induction h with
  | nil => simp [bytesValue]
  | @cons e e1 e2 b bs o os hb hbs ih =>
    obtain ⟨i1, i2⟩ := ih (hb.inv hi).2.1
    obtain ⟨_, _, l, r, hc, rfl⟩ := hb
    have hbl := b.isLt
    obtain ⟨v1, v2, v3⟩ := CodesSymbol.value hi.interval hi.freq (by omega) hc
    simp only at i1 i2
    rw [bytesValue_append, List.length_append, pow_add]
    generalize 256 ^ os.length = Q at *
    generalize 256 ^ o.length = P at *
    have w1 : e.low.toNat * P ≤ bytesValue o * 2^56 + l.toNat := by rw [← v1]; exact Nat.mul_le_mul_right _ (by omega)
    have w2 : bytesValue o * 2^56 + l.toNat + r.toNat ≤ (e.low.toNat + e.range.toNat) * P := v2.trans (Nat.mul_le_mul_right _ v3)
    have w1' := Nat.mul_le_mul_right Q w1
    have w2' := Nat.mul_le_mul_right Q w2
    constructor
    · linear_combination w1' + i1
    · linear_combination w2' + i2

/-- The leading bytes of a list, as a number. -/
theorem take_value (xs : List Byte) (k K : Nat) (h : xs.length = k + K) :
    bytesValue (xs.take k) = bytesValue xs / 256 ^ K := by
  have h1 := bytesValue_append (xs.take k) (xs.drop k)
  rw [List.take_append_drop] at h1
  have h2 := bytesValue_lt (xs.drop k)
  have h3 : (xs.drop k).length = K := by simp; omega
  rw [h3] at h1 h2
  rw [h1, Nat.mul_comm, Nat.mul_add_div (by positivity), Nat.div_eq_of_lt h2]; omega

/-- A run of encodes that ended with no fault encoded every byte (41_range_encoder.md R150). -/
theorem encodeRun_ok {bs : List Byte} : ∀ {e e' : Encoder} {out : List Byte} {p : Nat}, e.Inv →
    encodeRun bs e = ⟨e', out, p, .ok .ok⟩ → EncodesAll e bs out e' ∧ p = bs.length := by
  induction bs with
  | nil => intro e e' out p _ h; cases h; exact ⟨.nil, rfl⟩
  | cons b bs ih =>
    intro e e' out p hi h
    unfold encodeRun at h
    rcases encodeByte_cases hi b with ⟨_, hb⟩ | ⟨_, _, hb⟩ | ⟨o, e1, he, hb⟩ <;> rw [hb] at h
    · simp at h
    · simp at h
    · rcases hr : encodeRun bs e1 with ⟨a1, a2, a3, a4⟩
      simp only [hr, EncodeRun.mk.injEq] at h
      obtain ⟨rfl, rfl, rfl, rfl⟩ := h
      obtain ⟨h1, h2⟩ := ih (he.inv hi).2.1 hr
      exact ⟨.cons he h1, by simp [h2]⟩

/-- After a byte was encoded the encoder is written and not flushed (41_range_encoder.md R148). -/
theorem EncodesAll.written {e e' : Encoder} {bs out : List Byte} (h : EncodesAll e bs out e') :
    bs ≠ [] → e'.written = true ∧ e'.flushed = false := by
  induction h with
  | nil => simp
  | @cons e e1 e2 b bs o os hb hbs ih =>
    intro _
    by_cases hbn : bs = []
    · subst hbn; cases hbs; obtain ⟨_, _, l, r, _, rfl⟩ := hb; exact ⟨rfl, rfl⟩
    · exact ih hbn

/-- A decoder in the encoder's state, whose window and input stand where the encoder's output begins, finds the encoded bytes
one after the other and takes as many input bytes as the encoder appended (42_range_decoder.md R164). -/
theorem decodes_of_encodes {e e' : Encoder} {bs out : List Byte} (h : EncodesAll e bs out e') : e.Inv →
   ∀ (stream post : List Byte) (q pos : Nat) (d : Decoder), stream.drop q = out ++ drainBytes 7 e'.low ++ post →
     d.low = e.low → d.range = e.range → d.freq = e.freq → q ≤ stream.length →
     PrefixLoaded stream d pos (bytesValue ((stream.drop q).take 7)) (q + 7) →
     ∃ d' pos', DecodesAll stream d pos bs d' pos' ∧ (bs ≠ [] → pos' = q + 7 + out.length) := by
  induction h with
  | nil => intro hi stream post q pos d _ _ _ _ _ _; exact ⟨d, pos, .nil, by simp⟩
  | @cons e e1 e2 b bs o os hb hbs ih =>
    intro hi stream post q pos d hS hl hr hf hq hP
    have hi1 := (hb.inv hi).2.1
    obtain ⟨j1, j2⟩ := EncodesAll.value hbs hi1
    obtain ⟨_, ht, l, r, hc, rfl⟩ := hb
    have hbl := b.isLt
    have hu := unitWidth_pos hi.interval hi.freq
    obtain ⟨v1, v2, v3⟩ := CodesSymbol.value hi.interval hi.freq (by omega) hc
    simp only at j1 j2
    have hlow := e.low.isLt
    have hfit := hi.interval.fits
    simp only at hfit
    set S := stream.drop q with hSd
    set R := o ++ os ++ drainBytes 7 e2.low with hR
    have hRl : R.length = 7 + (o.length + os.length) := by simp [hR, drainBytes_length]; omega
    have hRv : bytesValue R = bytesValue o * 256 ^ (os.length + 7) + (bytesValue os * 2^56 + e2.low.toNat) := by
      rw [hR, List.append_assoc, bytesValue_append, bytesValue_append, bytesValue_drain, List.length_append,
        drainBytes_length, show 256 ^ 7 = 2 ^ 56 by norm_num]
    have hS7 : S.take 7 = R.take 7 := by rw [hS, List.take_append_of_le_length (by omega)]
    have hcode : bytesValue (S.take 7) = bytesValue R / 256 ^ (o.length + os.length) := by rw [hS7]; exact take_value R 7 _ hRl
    set unit := e.range.toNat / e.freq.total with hunit
    have hpos : 0 < 256 ^ (o.length + os.length) := by positivity
    have hr2 : 1 ≤ e2.range.toNat := by
      have : e2.Inv := (encodeRun_of_encodes hbs hi1).2
      have := this.interval.wide
      simp only at this; omega
    have x1 : e.low.toNat + e.freq.F b.toNat * unit ≤ bytesValue (S.take 7) := by
      rw [hcode, Nat.le_div_iff_mul_le hpos, hRv, pow_add, pow_add]
      have w1' := Nat.mul_le_mul_right (256 ^ os.length) (le_of_eq v1)
      generalize 256 ^ os.length = Q at *
      generalize 256 ^ o.length = P at *
      linear_combination w1' + j1
    have x2 : bytesValue (S.take 7) < e.low.toNat + e.freq.F (b.toNat + 1) * unit := by
      rw [hcode, Nat.div_lt_iff_lt_mul hpos, hRv, pow_add, pow_add]
      have w1' := Nat.mul_le_mul_right (256 ^ os.length) v2
      generalize 256 ^ os.length = Q at *
      generalize 256 ^ o.length = P at *
      linear_combination w1' + j2 + hr2
    have hSl : S.length = 7 + (o.length + os.length) + post.length := by rw [hS, List.length_append, hRl]
    have hSl' : S.length = stream.length - q := by rw [hSd, List.length_drop]
    have hunit' : unitWidth e.freq e.range = unit := rfl
    rw [hunit'] at hu
    have hcnt : decodeCount d (bytesValue (S.take 7)) = (bytesValue (S.take 7) - e.low.toNat) / unit := by
      unfold decodeCount
      rw [hl, hr, hf]
      congr 1
      omega
    have hdrop7 : stream.drop (q + 7) = S.drop 7 := by rw [hSd, List.drop_drop]
    have hdropk : stream.drop (q + o.length) = os ++ drainBytes 7 e2.low ++ post := by
      rw [← List.drop_drop, ← hSd, hS, hR, List.append_assoc, List.append_assoc, List.drop_left, List.append_assoc]
    set d1 : Decoder := { d with
      low := l
      range := r
      code := BitVec.ofNat 56 (bytesValue (S.take 7) * 256 ^ o.length + bytesValue ((stream.drop (q+7)).take o.length))
      initialized := true
      freq := d.freq.update (b.toNat + 1) } with hd1
    have hD : DecodesByte stream d pos b d1 (q + 7 + o.length) := by
      refine ⟨hf ▸ ht, _, _, hP, ?_, ?_, o, l, r, ?_, by omega, rfl, rfl⟩
      · rw [hcnt, hf, Nat.le_div_iff_mul_le (by omega)]; omega
      · rw [hcnt, hf, Nat.div_lt_iff_lt_mul (by omega)]; omega
      · rw [hl, hr, hf]; exact hc
    have hnew : d1.code.toNat = bytesValue ((stream.drop (q + o.length)).take 7) := by
      simp only [hd1, BitVec.toNat_ofNat, hdrop7]
      have a1 : bytesValue (S.take 7) * 256 ^ o.length + bytesValue ((S.drop 7).take o.length) = bytesValue (S.take (7 + o.length)) := by
        rw [List.take_add, bytesValue_append]; congr 3; simp; omega
      have a2 : bytesValue (S.take (7 + o.length)) = bytesValue (S.take o.length) * 256 ^ 7 + bytesValue ((S.drop o.length).take 7) := by
        rw [Nat.add_comm, List.take_add, bytesValue_append]; congr 3; simp; omega
      have a3 := bytesValue_lt ((S.drop o.length).take 7)
      have a4 : ((S.drop o.length).take 7).length = 7 := by simp; omega
      rw [a4] at a3
      rw [a1, a2, hSd, List.drop_drop] at *
      omega
    obtain ⟨d', pos', h1, h2⟩ := ih hi1 stream post (q + o.length) (q + 7 + o.length) d1 hdropk rfl rfl
      (by simp [hd1, hf]) (by omega) (by
      unfold PrefixLoaded
      rw [if_pos rfl, ← hnew]; exact ⟨rfl, by omega⟩)
    refine ⟨d', pos', .cons hD h1, fun _ => ?_⟩
    by_cases hbn : bs = []
    · subst hbn; cases h1; cases hbs; simp
    · rw [h2 hbn, List.length_append]; omega

end Sys2Proof.Machine
end

