-- ==== Sys2Proof/Tests/Slice0.lean ====
section
/-! SUPPORT. The model's own tests. Expected results are the spec's: words from 30_encoding.md R94, vectors from
95_test_vectors.md (V numbers), rule texts. Then, for every statement with hypotheses, a state that meets them. -/

namespace Sys2Proof.Tests
open Sys2Proof.Machine

/-! ### Well-formedness: an ill-formed term for each check, refused -/

theorem test_wellFormed_aw_zero : Params.wellFormed ⟨0, []⟩ = false := by decide
theorem test_wellFormed_aw_33 : Params.wellFormed ⟨33, []⟩ = false := by decide
theorem test_wellFormed_aw_bounds : Params.wellFormed ⟨1, []⟩ = true ∧ Params.wellFormed ⟨32, []⟩ = true := by decide
theorem test_wellFormed_bufRead_outside : HostOp.wellFormed ⟨16, []⟩ (.bufRead 0x10000) = false := by decide
theorem test_wellFormed_bufWrite_outside : HostOp.wellFormed ⟨16, []⟩ (.bufWrite 0x10000 0#8) = false := by decide
theorem test_wellFormed_last_address : HostOp.wellFormed ⟨16, []⟩ (.bufWrite 0xFFFF 0#8) = true := by decide

/-! ### Words, written out bit by bit as `OPC`, `ZERO`, `ARG` (R92, R94) -/

theorem test_decode_nop : decode 0b00000000_0000000000000000_00000000#32 = some .nop := by decide
theorem test_decode_encb : decode 0b00000001_0000000000000000_01100001#32 = some (.encb 0x61#8) := by decide
theorem test_decode_encf : decode 0b00000010_0000000000000000_00000000#32 = some .encf := by decide
theorem test_decode_encblk : decode 0b00000011_0000000000000000_00000000#32 = some .encblk := by decide
theorem test_decode_erst : decode 0b00000100_0000000000000000_00000000#32 = some .erst := by decide
theorem test_decode_decb : decode 0b00010000_0000000000000000_00000000#32 = some .decb := by decide
theorem test_decode_decblk : decode 0b00010001_0000000000000000_00000000#32 = some .decblk := by decide
theorem test_decode_drst : decode 0b00010010_0000000000000000_00000000#32 = some .drst := by decide
theorem test_decode_zfwd : decode 0b00100000_0000000000000000_00000000#32 = some .zfwd := by decide
theorem test_decode_zinv : decode 0b00100001_0000000000000000_00000000#32 = some .zinv := by decide
/-- V82, and the bits next to each field's edge. -/
theorem test_decode_illegal : [0x05000000#32, 0xFF000000#32, 0x01000100#32, 0x01800000#32, 0x02000001#32, 0x22000000#32,
    0x13000000#32, 0x00000080#32].all (fun w => decode w == none) = true := by decide
theorem test_decodeTableWord : decodeTableWord 32 0x01000061 = some (.encb 0x61#8) ∧
    decodeTableWord 32 0x20000000 = some .zfwd := by decide

/-! ### Small states -/

/-- A state after reset with an input stream, bytes of `BUF` from address 0 on, and a register file. -/
def small (stream : List Nat) (bytes : List Nat) (regs : Regs) : State :=
  { State.reset with
    params := ⟨16, stream.map (BitVec.ofNat 8)⟩
    buf := Memory.writeList [] 0 (bytes.map (BitVec.ofNat 8))
    regs := regs }

/-- A register file with the regions given (`SRC_BASE`, `SRC_LEN`, `DST_BASE`, `DST_LEN`, `SIZE`). -/
def regions (srcBase srcLen dstBase dstLen size : Nat) : Regs :=
  { Regs.initial with
    srcBase := BitVec.ofNat 32 srcBase
    srcLen := BitVec.ofNat 32 srcLen
    dstBase := BitVec.ofNat 32 dstBase
    dstLen := BitVec.ofNat 32 dstLen
    size := BitVec.ofNat 32 size }

/-- An outcome is a next state that passes a check. -/
def passes (o : Host.Outcome State Fault Refusal) (check : State → Bool) : Bool :=
  match o with
  | .next t => check t
  | .fault _ => false
  | .refused _ => false

theorem next_of_passes {o : Host.Outcome State Fault Refusal} {check : State → Bool} (h : passes o check = true) :
    ∃ t, o = .next t ∧ check t = true := by
  cases o with
  | next t => exact ⟨t, rfl, h⟩
  | fault _ => exact absurd h (by simp [passes])
  | refused _ => exact absurd h (by simp [passes])

/-- The state a command leaves; the state itself where it answers none. -/
def after (i : Instr) (s : State) : State :=
  match exec i s with
  | .next t => t
  | .fault _ => s
  | .refused _ => s

/-- Status, `CONSUMED`, `PRODUCED` and the first bytes of the destination region. -/
def shows (s : State) (status consumed produced : Nat) (dst : List Nat) : Bool :=
  s.regs.status.toNat == status && s.regs.consumed.toNat == consumed && s.regs.produced.toNat == produced &&
    (List.range dst.length).map (fun i => s.buf.read (s.regs.dstBase.toNat + i)) == dst.map fun b => some (BitVec.ofNat 8 b)

/-! ### One step each, from the spec's vectors -/

/-- V80: a step that reads `ID`. -/
theorem test_regRead_id : passes (step { State.reset with hostOps := [.regRead 0x00#8] })
    (fun t => t.replies == [.reg 0x4B5A0001#32] && t.hostOps == []) = true := by decide +kernel
/-- V81: a configuration register stores all 32 bits. -/
theorem test_regWrite_srcBase : passes (step { State.reset with hostOps := [.regWrite 0x10#8 0xFFFFFFFF#32] })
    (fun t => t.regs.srcBase == 0xFFFFFFFF#32) = true := by decide +kernel
/-- V82: an illegal word sets the status to 8. -/
theorem test_step_illegal : passes (step (State.reset.withFetchWord 32 0x01000100)) (fun t => t.regs.status == 8#32) = true := by
  decide +kernel
/-- R200. -/
theorem test_nop : passes (step ({ State.reset with regs := { Regs.initial with status := 6#32 } }.withFetchWord 32 0))
    (fun t => t.regs.status == 0#32) = true := by decide +kernel
/-- V20: the first ENCB 0x00 emits one byte. -/
theorem test_encb_zero : passes (step (State.reset.withFetchWord 32 0x01000000))
    (fun t => t.outStream == [.byte 0x00#8] && t.enc.low == 0#56 && t.enc.range == 0xFF00FF00FF0000#56 &&
      t.enc.written && t.enc.freq.total == 258) = true := by decide +kernel
/-- V25, the third step: a forced narrowing. The unit before it has the model after two 0x41. -/
theorem test_encb_forced : passes (exec (.encb 0x41#8) { State.reset with enc :=
      { Encoder.initial with
        low := 0x40FF7F82798E01#56, range := 0x0001FA0DE23D82#56, written := true
        freq := (FreqModel.initial.update 0x42).update 0x42 } })
    (fun t => t.outStream == [.byte 0x40#8] && t.enc.low == 0xFFFE82FE70D300#56 && t.enc.range == 0x00017D018F2D00#56) =
    true := by decide +kernel
/-- V23, the last line: the drain. -/
theorem test_encf_drains : passes (exec .encf { State.reset with enc :=
      { Encoder.initial with low := 0x9CFA5976EB3900#56, range := 0x00FA18A7294500#56, written := true } })
    (fun t => t.outStream == [.byte 0x9C#8, .byte 0xFA#8, .byte 0x59#8, .byte 0x76#8, .byte 0xEB#8, .byte 0x39#8,
      .byte 0x00#8, .flush] && t.enc.low == 0#56 && t.enc.range == 0x00FA18A7294500#56 && t.enc.flushed) = true := by
  decide +kernel
/-- V29: after reset ENCF does nothing. -/
theorem test_encf_fresh : passes (exec .encf State.reset) (fun t => t.outStream == [] && t.ustat == 0#32) = true := by
  decide +kernel
/-- V30: ENCBLK of `61 62 63`. -/
theorem test_encblk : passes (exec .encblk (small [] [0x61, 0x62, 0x63] (regions 0 3 0 0 0)))
    (fun t => t.outStream == [.byte 0x61#8, .byte 0x01#8] && shows t 0 3 2 [] && t.enc.low == 0x9CFA5976EB3900#56) =
    true := by decide +kernel
/-- V30: `SIZE` above `SRC_LEN`. -/
theorem test_encblk_size : passes (exec .encblk (small [] [0x61, 0x62, 0x63] (regions 0 3 0 0 4)))
    (fun t => t.outStream == [] && shows t 1 0 0 []) = true := by decide +kernel
/-- V29: ERST. -/
theorem test_erst : passes (exec .erst { State.reset with enc := { Encoder.initial with written := true, flushed := true } })
    (fun t => t.ustat == 0#32 && t.enc.range == 0xFFFFFFFFFFFFFF#56) = true := by decide +kernel
/-- V40, the first DECB. -/
theorem test_decb : passes (exec .decb (small [0x61, 0x01, 0x9C, 0xFA, 0x59, 0x76, 0xEB, 0x39, 0x00] [] Regs.initial))
    (fun t => t.regs.result == 0x61#32 && t.inPos == 7 && t.dec.low == 0x609F609F609F00#56 &&
      t.dec.code == 0x61019CFA5976EB#56 && t.regs.status == 0#32) = true := by decide +kernel
/-- V45: the terminal symbol with more input. -/
theorem test_decb_corrupt : passes (exec .decb (small (List.replicate 8 0xFF) [] Regs.initial))
    (fun t => t.regs.status == 3#32 && t.inPos == 7 && t.ustat == 0x138#32 && t.dec.code == 0#56) = true := by
  decide +kernel
/-- V48: DECBLK of the cut stream stores one byte and stops. -/
theorem test_decblk_cut : passes (exec .decblk
      (small [0x61, 0x01, 0x9C, 0xFA, 0x59, 0x76, 0xEB] [] (regions 0 0 0x40 3 0)))
    (fun t => shows t 5 7 1 [0x61] && t.buf.read 0x41 == none && t.dec.err && t.dec.freq.total == 258) = true := by
  decide +kernel
/-- V48: a destination region outside `BUF`. -/
theorem test_decblk_region : passes (exec .decblk (small [0x61] [] (regions 0 0 0xFFFF 2 0)))
    (fun t => shows t 1 0 0 [] && !t.dec.err && t.inPos == 0) = true := by decide +kernel
/-- V49: DRST clears the latch and leaves the cursor. -/
theorem test_drst : passes (exec .drst { small (List.replicate 7 0xFF) [] Regs.initial with
      inPos := 7, dec := { Decoder.initial with err := true, errcode := 2#4 } })
    (fun t => t.ustat == 0#32 && t.inPos == 7) = true := by decide +kernel
/-- V50: escapes and literals. -/
theorem test_zfwd_escapes : passes (exec .zfwd (small [] [0xFE, 0xFF, 0x01, 0xFD] (regions 0 4 0x100 6 0)))
    (fun t => shows t 0 4 6 [0xFF, 0x00, 0xFF, 0x01, 0x02, 0xFE]) = true := by decide +kernel
/-- V53: the literal after the run does not fit. -/
theorem test_zfwd_space : passes (exec .zfwd (small [] [0x00, 0x00, 0x05] (regions 0 3 0x100 1 0)))
    (fun t => shows t 4 2 1 [0x01]) = true := by decide +kernel
/-- V64: a run code of three bits. -/
theorem test_zinv_run : passes (exec .zinv (small [] [0x00, 0x01, 0x01] (regions 0 3 0x100 10 0)))
    (fun t => shows t 0 3 10 (List.replicate 10 0)) = true := by decide +kernel
/-- V72: the byte after an escape is its operand, not a run bit. -/
theorem test_zinv_escape : passes (exec .zinv (small [] [0xFF, 0x00, 0x06] (regions 0 3 0x100 2 0)))
    (fun t => shows t 0 3 2 [0xFE, 0x05]) = true := by decide +kernel

/-! ### States the statements' hypotheses are met in

Each theorem named `witness_…` gives a state and operands that meet all hypotheses of the statement it names, a clause at
a time where there are several. -/

/-- A frequency model whose total is `2^40 - below`: all of the weight but 257 on symbol 15. -/
def heavyModel (below : Nat) : FreqModel where
  deltaFreq := counterFile 258 fun i => i % 16
  baseFreq  := counterFile 17 fun i => if i = 0 then 0 else 16 * i + (2 ^ 40 - below - 257)

theorem heavyModel_inv_0 : (heavyModel 0).Inv :=
  ⟨by decide +kernel, by decide +kernel, by decide +kernel, by decide +kernel, by decide +kernel⟩
theorem heavyModel_inv_1 : (heavyModel 1).Inv :=
  ⟨by decide +kernel, by decide +kernel, by decide +kernel, by decide +kernel, by decide +kernel⟩
theorem heavyModel_total : (heavyModel 0).total = 2 ^ 40 ∧ (heavyModel 1).total = 2 ^ 40 - 1 := by decide +kernel
theorem heavyModel_room : (heavyModel 1).total + 1 ≤ 2 ^ 40 ∧ 2 ^ 40 < (heavyModel 1).total + 2 := by decide +kernel
theorem initial_room : FreqModel.initial.total + 0 ≤ 2 ^ 40 ∧ FreqModel.initial.total < 2 ^ 40 := by decide +kernel

/-- An encoder or a decoder after reset with another model. -/
def heavyEncoder (below : Nat) : Encoder := { Encoder.initial with freq := heavyModel below }
def heavyDecoder (below : Nat) : Decoder := { Decoder.initial with freq := heavyModel below }

theorem heavyEncoder_inv_1 : (heavyEncoder 1).Inv := ⟨initial_interval_inv, heavyModel_inv_1, by decide⟩
theorem heavyDecoder_inv_0 : (heavyDecoder 0).Inv :=
  ⟨initial_interval_inv, heavyModel_inv_0, fun _ => rfl, fun h => absurd h (by decide)⟩

theorem small_inv (stream : List Nat) (regs : Regs) (hs : regs.status.toNat ≤ 8) (hr : regs.result.toNat < 256) :
    (small stream [] regs).Inv :=
  ⟨Encoder.initial_inv, Decoder.initial_inv, hs, hr, List.Pairwise.nil, fun _ h => absurd h (by simp [small, Memory.writeList]),
    Nat.zero_le _, by simp [small, Params.wellFormed]⟩

theorem reset_inv : State.reset.Inv := small_inv [] Regs.initial (by decide) (by decide)

/-- The state after a command whose step is a next state. -/
theorem exec_after {i : Instr} {s : State} {check : State → Bool} (h : passes (exec i s) check = true) :
    exec i s = .next (after i s) ∧ check (after i s) = true := by
  obtain ⟨t, h₁, h₂⟩ := next_of_passes h
  simp [after, h₁, h₂]

/-- A decode step found a byte; a decode step raised a code. -/
def foundByte (e : DecodeEnd) : Option Byte :=
  match e with
  | .byte _ _ b => some b
  | .raised _ _ => none
  | .crashed _ => none
def raisedCode (e : DecodeEnd) : Option (StatusCode × Nat) :=
  match e with
  | .byte _ _ _ => none
  | .raised c p => some (c, p)
  | .crashed _ => none

theorem decodes_of_found {stream : List Byte} {d : Decoder} {pos : Nat} {b : Byte} (h : d.Inv) (hp : pos ≤ stream.length)
    (hx : foundByte (decodeSymbol stream d pos) = some b) : ∃ d' pos', DecodesByte stream d pos b d' pos' := by
  cases hd : decodeSymbol stream d pos with
  | byte d' pos' b' =>
    rw [hd] at hx
    cases hx
    exact ⟨d', pos', decodesByte_of_symbol h hp hd⟩
  | raised c p => rw [hd] at hx; cases hx
  | crashed f => rw [hd] at hx; cases hx

theorem faults_of_raised {stream : List Byte} {d : Decoder} {pos pos' : Nat} {c : StatusCode} (h : d.Inv)
    (hp : pos ≤ stream.length) (hx : raisedCode (decodeSymbol stream d pos) = some (c, pos')) :
    DecodeFaults stream d pos c pos' := by
  cases hd : decodeSymbol stream d pos with
  | byte d' p b' => rw [hd] at hx; cases hx
  | raised c' p =>
    rw [hd] at hx
    cases hx
    exact decodeFaults_of_symbol h hp hd
  | crashed f => rw [hd] at hx; cases hx

/-- The coded stream of V23 and V40, as bytes. -/
def v40 : List Nat := [0x61, 0x01, 0x9C, 0xFA, 0x59, 0x76, 0xEB, 0x39, 0x00]

theorem witness_DecodeEncodeRoundTrip :
    (Instr.encb 0xFF#8).wellFormed = true ∧ decode 0x010000FF#32 = some (.encb 0xFF#8) := by decide

/-- One word for each of the three ways to be illegal, at the fields' edges. -/
theorem witness_IllegalWordOnlySetsStatus :
    (0x05000000#32).extractLsb' 24 8 ∉ [0x00#8, 0x01#8, 0x02#8, 0x03#8, 0x04#8, 0x10#8, 0x11#8, 0x12#8, 0x20#8, 0x21#8] ∧
    (0x01000100#32).extractLsb' 8 16 ≠ 0#16 ∧ (0x01800000#32).extractLsb' 8 16 ≠ 0#16 ∧
    ((0x00000080#32).extractLsb' 24 8 ≠ 0x01#8 ∧ (0x00000080#32).extractLsb' 0 8 ≠ 0#8) := by decide

theorem witness_StepRunsDecodedCommand :
    (State.reset.withFetchWord 32 0x01000061).hostOps = .regWrite 0x04#8 0x01000061#32 :: [] ∧
      decode 0x01000061#32 = some (.encb 0x61#8) := ⟨rfl, by decide⟩

theorem witness_StepPerformsNextOperation :
    State.reset.hostOps = [] ∧ ({ State.reset with hostOps := [.reset] } : State).hostOps = .reset :: [] := ⟨rfl, rfl⟩

/-- A value at every offset of the register file, and 0 at a reserved, an unaligned and the last offset. -/
theorem witness_RegReadReturnsRegister :
    [0x00#8, 0x04#8, 0x08#8, 0x0C#8, 0x10#8, 0x14#8, 0x18#8, 0x1C#8, 0x20#8, 0x24#8, 0x28#8, 0x2C#8, 0x30#8, 0x01#8,
      0xFF#8].map (small [0xAA] [] ⟨0x18#32, 0x161#32, 1#32, 2#32, 3#32, 4#32, 5#32, 6#32, 7#32⟩).regValue =
    [0x4B5A0001#32, 0#32, 8#32, 0x61#32, 1#32, 2#32, 3#32, 4#32, 5#32, 6#32, 7#32, 0x100#32, 0#32, 0#32, 0#32] := by
  decide +kernel

theorem witness_RegWriteStoresOrDispatches :
    decode 0x04000000#32 = some .erst ∧ decode 0x04000001#32 = none ∧
      (∀ off ∈ [0x00#8, 0x08#8, 0x24#8, 0x2C#8, 0x11#8, 0xFF#8],
        off ∉ [0x04#8, 0x10#8, 0x14#8, 0x18#8, 0x1C#8, 0x20#8]) := by decide

theorem witness_BufWriteThenRead : 0 < 2 ^ State.reset.params.aw ∧ 0xFFFF < 2 ^ State.reset.params.aw := by decide

/-- A written byte at the last address, an unwritten one at address 0, and the first address outside. -/
theorem witness_BufReadReturnsLatestByte :
    ({ State.reset with buf := [(0xFFFF, 7#8)] } : State).buf.read 0xFFFF = some 7#8 ∧
    ({ State.reset with buf := [(0xFFFF, 7#8)] } : State).buf.read 0 = none ∧ 2 ^ State.reset.params.aw ≤ 0x10000 := by
  decide

theorem witness_EncbCodesByte :
    State.reset.enc.Inv ∧ State.reset.enc.flushed = false ∧ State.reset.enc.freq.total < 2 ^ 40 :=
  ⟨Encoder.initial_inv, rfl, initial_room.2⟩

theorem witness_EncbAdaptsModel :
    ∃ s t : State, s.enc.Inv ∧ exec (.encb 0xFF#8) s = .next t ∧ t.regs.status = 0#32 := by
  obtain ⟨t, h₁, h₂⟩ := next_of_passes (o := exec (.encb 0xFF#8) State.reset) (check := fun t => t.regs.status == 0#32)
    (by decide +kernel)
  exact ⟨State.reset, t, Encoder.initial_inv, h₁, by simpa using h₂⟩

/-- A flushed encoder and a source byte. -/
def flushedState : State :=
  { small [] [0x61] (regions 0 1 0 0 0) with enc := { Encoder.initial with written := true, flushed := true } }

theorem witness_FlushedEncoderRefusesBytes :
    flushedState.enc.flushed = true ∧ SourceRegion flushedState 1 ∧
      ∃ t, exec .encf flushedState = .next t :=
  ⟨rfl, by unfold SourceRegion; decide +kernel, _, rfl⟩

theorem witness_FrequencyBoundStopsCoding :
    ∃ s : State, s.enc.flushed = false ∧ 2 ^ 40 ≤ s.enc.freq.total ∧ SourceRegion s 1 ∧ s.dec.err = false ∧
      2 ^ 40 ≤ s.dec.freq.total ∧ DestRegion s ∧ 1 ≤ s.regs.dstLen.toNat :=
  ⟨{ small [] [0x61] (regions 0 1 0xFFFF 1 0) with enc := heavyEncoder 0, dec := heavyDecoder 0 }, rfl,
    heavyModel_total.1.ge, by unfold SourceRegion; decide +kernel, rfl, heavyModel_total.1.ge,
    by unfold DestRegion; decide +kernel, by decide +kernel⟩

theorem witness_EncfDrainsLowOnce :
    (∃ e : Encoder, e.written = true ∧ e.flushed = false) ∧ State.reset.enc.written = false ∧
      flushedState.enc.flushed = true := ⟨⟨{ Encoder.initial with written := true }, rfl, rfl⟩, rfl, rfl⟩

/-- An encoder after ENCF meets the invariant. -/
theorem flushed_inv : ({ Encoder.initial with written := true, flushed := true } : Encoder).Inv :=
  ⟨initial_interval_inv, FreqModel.initial_inv, fun _ => rfl⟩

/-- A region of one byte at the top of `BUF`, an empty one, and an empty one with the encoder flushed. -/
theorem witness_EncblkEncodesRegion :
    (∃ s : State, s.enc.Inv ∧ SourceRegion s 1 ∧ s.enc.flushed = false ∧ s.enc.freq.total + 1 ≤ 2 ^ 40) ∧
    (∃ s : State, s.enc.Inv ∧ SourceRegion s 0 ∧ s.enc.flushed = false ∧ s.enc.freq.total + 0 ≤ 2 ^ 40) ∧
    ∃ s : State, s.enc.Inv ∧ SourceRegion s 0 ∧ s.enc.flushed = true ∧ s.enc.freq.total + 0 ≤ 2 ^ 40 :=
  ⟨⟨{ small [] [] (regions 0xFFFF 1 0 0 0) with enc := heavyEncoder 1 }, heavyEncoder_inv_1,
      by unfold SourceRegion; decide +kernel, rfl, heavyModel_room.1⟩,
    ⟨small [] [] (regions 0 0 0 0 0), Encoder.initial_inv, by unfold SourceRegion; decide +kernel, rfl, initial_room.1⟩,
    { flushedState with regs := Regs.initial }, flushed_inv, by unfold SourceRegion; decide +kernel, rfl, initial_room.1⟩

theorem witness_EncblkStopsAtFrequencyBound :
    ∃ s : State, s.enc.Inv ∧ SourceRegion s 2 ∧ s.enc.flushed = false ∧ 2 ^ 40 < s.enc.freq.total + 2 :=
  ⟨{ small [] [0x61, 0x62] (regions 0 2 0 0 0) with enc := heavyEncoder 1 }, heavyEncoder_inv_1,
    by unfold SourceRegion; decide +kernel, rfl, heavyModel_room.2⟩

theorem witness_DecbDeliversByte :
    ∃ (s : State) (b : Byte) (d : Decoder) (pos : Nat), s.dec.Inv ∧ s.inPos ≤ s.params.inStream.length ∧
      s.dec.err = false ∧ DecodesByte s.params.inStream s.dec s.inPos b d pos := by
  obtain ⟨d, pos, h⟩ := decodes_of_found (stream := v40.map (BitVec.ofNat 8)) (pos := 0) (b := 0x61#8)
    Decoder.initial_inv (by decide) (by decide +kernel)
  exact ⟨small v40 [] Regs.initial, 0x61#8, d, pos, Decoder.initial_inv, by decide, rfl, h⟩

/-- One stream for each fault: full model, no prefix (V47), end of stream (V44), corrupt (V45), no byte to transfer. -/
theorem witness_DecbFaultLatches :
    DecodeFaults [] (heavyDecoder 0) 0 .freq 0 ∧ (heavyDecoder 0).Inv ∧
    DecodeFaults [0x61#8, 0x02#8, 0x03#8] Decoder.initial 0 .io 3 ∧
    DecodeFaults (List.replicate 7 0xFF#8) Decoder.initial 0 .eos 7 ∧
    DecodeFaults (List.replicate 8 0xFF#8) Decoder.initial 0 .corrupt 7 ∧
    DecodeFaults (List.replicate 7 0x00#8) Decoder.initial 0 .io 7 ∧ Decoder.initial.Inv :=
  ⟨.freq heavyModel_total.1.ge, heavyDecoder_inv_0,
    faults_of_raised Decoder.initial_inv (by decide) (by decide +kernel),
    faults_of_raised Decoder.initial_inv (by decide) (by decide +kernel),
    faults_of_raised Decoder.initial_inv (by decide) (by decide +kernel),
    faults_of_raised Decoder.initial_inv (by decide) (by decide +kernel), Decoder.initial_inv⟩

theorem witness_LatchedDecoderOnlyReports :
    ∃ s : State, s.dec.err = true ∧ Instr.nop ≠ .drst ∧ ∃ t, exec .nop s = .next t :=
  ⟨{ State.reset with dec := { Decoder.initial with err := true, errcode := 5#4 } }, rfl, by decide, _, rfl⟩

/-- How a run of decode steps ended, where the model does not stop. -/
def runCodeOf (r : DecodeRun) : Option StatusCode :=
  match r.code with
  | .ok c => some c
  | .error _ => none

theorem run_found_or_faults {stream : List Byte} {d : Decoder} {pos : Nat} (n : Nat) (h : d.Inv) (hp : pos ≤ stream.length) :
    (runCodeOf (decodeRun stream n d pos) = some .ok →
      ∃ bs d' pos', bs.length = n ∧ DecodesAll stream d pos bs d' pos') ∧
    (runCodeOf (decodeRun stream n d pos) ≠ some .ok →
      ∃ bs d' pos' c pos'', bs.length < n ∧ DecodesAll stream d pos bs d' pos' ∧ DecodeFaults stream d' pos' c pos'') := by
  rcases decodeAll_or_faults n h hp with h₁ | ⟨bs, d', pos', c, pos'', h₁, h₂, h₃⟩
  · obtain ⟨bs, d', pos', hl, hd⟩ := h₁
    exact ⟨fun _ => ⟨bs, d', pos', hl, hd⟩, fun hx => absurd (by rw [← hl, (decodeRun_of_decodes hd h hp).1]; rfl) hx⟩
  · refine ⟨fun hx => ?_, fun _ => ⟨bs, d', pos', c, pos'', h₁, h₂, h₃⟩⟩
    obtain ⟨k, rfl⟩ : ∃ k, n = bs.length + (k + 1) := ⟨n - bs.length - 1, by omega⟩
    rw [decodeRun_of_faults h₂ h₃ h hp k] at hx
    cases hx
    exact absurd (h₃.bounds (h₂.inv h hp).2.2.2).2.2 (by decide)

/-- One byte stored at the last address of `BUF`, and an empty region. -/
theorem witness_DecblkFillsRegion :
    (∃ (s : State) (bs : List Byte) (d : Decoder) (pos : Nat), s.dec.Inv ∧ s.inPos ≤ s.params.inStream.length ∧
      s.dec.err = false ∧ DestRegion s ∧ bs.length = s.regs.dstLen.toNat ∧ s.regs.dstLen = 1#32 ∧
      DecodesAll s.params.inStream s.dec s.inPos bs d pos) ∧
    DestRegion State.reset ∧ ([] : List Byte).length = State.reset.regs.dstLen.toNat ∧
      DecodesAll State.reset.params.inStream State.reset.dec State.reset.inPos [] State.reset.dec State.reset.inPos := by
  refine ⟨?_, by unfold DestRegion; decide, rfl, .nil⟩
  obtain ⟨bs, d, pos, hl, hd⟩ := (run_found_or_faults (stream := v40.map (BitVec.ofNat 8)) (d := Decoder.initial) (pos := 0) 1
    Decoder.initial_inv (by decide)).1 (by decide +kernel)
  exact ⟨small v40 [] (regions 0 0 0xFFFF 1 0), bs, d, pos, Decoder.initial_inv, by decide, rfl,
    by unfold DestRegion; decide, hl, rfl, hd⟩

/-- V47's cut stream: one byte, then no byte to transfer. -/
theorem witness_DecblkKeepsPartialProgress :
    ∃ (s : State) (bs : List Byte) (d : Decoder) (pos pos' : Nat) (c : StatusCode), s.dec.Inv ∧
      s.inPos ≤ s.params.inStream.length ∧ s.dec.err = false ∧ DestRegion s ∧ bs.length < s.regs.dstLen.toNat ∧
      DecodesAll s.params.inStream s.dec s.inPos bs d pos ∧ DecodeFaults s.params.inStream d pos c pos' := by
  obtain ⟨bs, d, pos, c, pos', hl, hd, hf⟩ := (run_found_or_faults (stream := (v40.take 7).map (BitVec.ofNat 8))
    (d := Decoder.initial) (pos := 0) 2 Decoder.initial_inv (by decide)).2 (by decide +kernel)
  exact ⟨small (v40.take 7) [] (regions 0 0 0x40 2 0), bs, d, pos, pos', c, Decoder.initial_inv, by decide, rfl,
    by unfold DestRegion; decide, hl, hd, hf⟩

theorem witness_DecoderMirrorsEncoder :
    ∃ s t u : State, s.Inv ∧ s.enc.low = s.dec.low ∧ s.enc.range = s.dec.range ∧ s.enc.freq = s.dec.freq ∧
      s.dec.err = false ∧ exec .decb s = .next t ∧ t.regs.status = 0#32 ∧
      exec (.encb (t.regs.result.extractLsb' 0 8)) s = .next u ∧ u.regs.status = 0#32 := by
  obtain ⟨t, h₁, h₂⟩ := next_of_passes (o := exec .decb (small v40 [] Regs.initial))
    (check := fun t => t.regs.status == 0#32 && t.regs.result == 0x61#32) (by decide +kernel)
  obtain ⟨u, h₃, h₄⟩ := next_of_passes (o := exec (.encb 0x61#8) (small v40 [] Regs.initial))
    (check := fun t => t.regs.status == 0#32) (by decide +kernel)
  rw [Bool.and_eq_true, beq_iff_eq, beq_iff_eq] at h₂
  refine ⟨_, t, u, small_inv v40 Regs.initial (by decide) (by decide), rfl, rfl, rfl, rfl, h₁, h₂.1, ?_, by simpa using h₄⟩
  rw [h₂.2]
  exact h₃

/-- V22: the region `FF`, its stream `FE 01 FE 01 FE 01 00`, read between two other bytes. -/
theorem witness_RangeCoderRoundTrip :
    ∃ (s s₁ s₂ u : State) (code before after : List Byte), s.enc = State.reset.enc ∧ SourceRegion s 1 ∧
      exec .encblk s = .next s₁ ∧ s₁.regs.status = 0#32 ∧ exec .encf s₁ = .next s₂ ∧
      s₂.outStream = s.outStream ++ code.map .byte ++ [.flush] ∧ u.dec = State.reset.dec ∧
      u.params.inStream = before ++ code ++ after ∧ u.inPos = before.length ∧ DestRegion u ∧ u.regs.dstLen.toNat = 1 := by
  obtain ⟨h₁, h₂⟩ := exec_after (i := .encblk) (s := small [] [0xFF] (regions 0 1 0 0 0))
    (check := fun t => t.regs.status == 0#32) (by decide +kernel)
  obtain ⟨h₃, h₄⟩ := exec_after (i := .encf) (s := after .encblk (small [] [0xFF] (regions 0 1 0 0 0)))
    (check := fun t => t.outStream == [.byte 0xFE#8, .byte 0x01#8, .byte 0xFE#8, .byte 0x01#8, .byte 0xFE#8, .byte 0x01#8,
      .byte 0x00#8, .flush]) (by decide +kernel)
  exact ⟨small [] [0xFF] (regions 0 1 0 0 0), _, _, { small [0xAA, 0xFE, 0x01, 0xFE, 0x01, 0xFE, 0x01, 0x00, 0xBB] [] (regions 0 0 0xFFFF 1 0) with inPos := 1 },
    [0xFE#8, 0x01#8, 0xFE#8, 0x01#8, 0xFE#8, 0x01#8, 0x00#8], [0xAA#8], [0xBB#8], rfl, by unfold SourceRegion; decide +kernel,
    h₁, by simpa using h₂, h₃, beq_iff_eq.1 h₄, rfl, rfl, rfl, by unfold DestRegion; decide, rfl⟩

theorem not_overlap {s : State} (h : s.overlaps = false) : ¬ Overlap s := by
  rw [← overlaps_iff, h]
  simp

/-- The first unit of a source, as the relation sees it. -/
theorem units_one {unit : List Byte → Option ZltUnit} {rel : List Byte → Nat → List Byte → Prop} (ha : UnitAgrees unit rel)
    {src : List Byte} {u : ZltUnit} (h : unit src = some u) : Units rel src u.taken u.out.toList := by
  have := Units.cons (ha.sound _ _ h) (Units.nil (unit := rel) (src := src.drop u.taken))
  rwa [List.append_nil] at this

theorem mustStop_small {unit : List Byte → Option ZltUnit} {rel : List Byte → Nat → List Byte → Prop} (ha : UnitAgrees unit rel)
    {src : List Byte} {taken room : Nat} (h : taken < src.length)
    (hu : (match unit (src.drop taken) with | none => true | some u => decide (room < u.out.size)) = true) :
    MustStop rel src taken room := by
  refine mustStop_of_unit ha h fun u hx => ?_
  rw [hx] at hu
  simpa using hu

/-- A region of three bytes with room for the longest output. -/
theorem witness_ZfwdTransformsRegion :
    ∃ (s : State) (out : List Byte), SourceRegion s 3 ∧ DestRegion s ∧ ¬ Overlap s ∧
      Units ForwardUnit (s.bufSlice s.regs.srcBase.toNat 3) 3 out ∧ out.length ≤ s.regs.dstLen.toNat := by
  obtain ⟨out, h₁, h₂⟩ := ForwardUnit.units_exist 3
    ((small [] [0x00, 0x00, 0x05] (regions 0 3 3 6 0)).bufSlice 0 3) (by simp)
  rw [State.bufSlice_length] at h₁ h₂
  exact ⟨small [] [0x00, 0x00, 0x05] (regions 0 3 3 6 0), out, by unfold SourceRegion; decide +kernel,
    by unfold DestRegion; decide, not_overlap (by decide), h₁, h₂⟩

/-- V53. -/
theorem witness_ZfwdStopsBeforeUnplacedUnit :
    ∃ (s : State) (out : List Byte), SourceRegion s 3 ∧ DestRegion s ∧ ¬ Overlap s ∧
      Units ForwardUnit (s.bufSlice s.regs.srcBase.toNat 3) 2 out ∧ out.length ≤ s.regs.dstLen.toNat ∧
      MustStop ForwardUnit (s.bufSlice s.regs.srcBase.toNat 3) 2 (s.regs.dstLen.toNat - out.length) :=
  ⟨small [] [0x00, 0x00, 0x05] (regions 0 3 0x100 1 0), [0x01#8], by unfold SourceRegion; decide +kernel,
    by unfold DestRegion; decide, not_overlap (by decide),
    units_one forwardUnit_agrees (u := ⟨2, .bytes [0x01#8]⟩) (by decide +kernel), by decide,
    mustStop_small forwardUnit_agrees (by decide +kernel) (by decide +kernel)⟩

/-- V65: an exact fit. -/
theorem witness_ZinvRestoresRegion :
    ∃ (s : State) (out : List Byte), SourceRegion s 2 ∧ DestRegion s ∧ ¬ Overlap s ∧
      Units InverseUnit (s.bufSlice s.regs.srcBase.toNat 2) 2 out ∧ out.length ≤ s.regs.dstLen.toNat :=
  ⟨small [] [0x01, 0x00] (regions 0 2 2 5 0), List.replicate 5 0#8, by unfold SourceRegion; decide +kernel,
    by unfold DestRegion; decide, not_overlap (by decide),
    units_one inverseUnit_agrees (u := ⟨2, .zeros 5⟩) (by decide +kernel), by decide⟩

/-- The three ways to stop: V66 (no room), V73 (a run code of 31 bytes), V69 (an escape with no operand). -/
theorem witness_ZinvStopsBeforeUnplacedUnit :
    (∃ s : State, SourceRegion s 2 ∧ DestRegion s ∧ ¬ Overlap s ∧
      Units InverseUnit (s.bufSlice s.regs.srcBase.toNat 2) 0 [] ∧
      MustStop InverseUnit (s.bufSlice s.regs.srcBase.toNat 2) 0 (s.regs.dstLen.toNat - 0)) ∧
    (∃ s : State, SourceRegion s 31 ∧ DestRegion s ∧ ¬ Overlap s ∧
      Units InverseUnit (s.bufSlice s.regs.srcBase.toNat 31) 0 [] ∧
      MustStop InverseUnit (s.bufSlice s.regs.srcBase.toNat 31) 0 (s.regs.dstLen.toNat - 0)) ∧
    ∃ s : State, SourceRegion s 2 ∧ DestRegion s ∧ ¬ Overlap s ∧
      Units InverseUnit (s.bufSlice s.regs.srcBase.toNat 2) 1 [0x05#8] ∧ 1 ≤ s.regs.dstLen.toNat ∧
      MustStop InverseUnit (s.bufSlice s.regs.srcBase.toNat 2) 1 (s.regs.dstLen.toNat - 1) :=
  ⟨⟨small [] [0x01, 0x00] (regions 0 2 0x100 4 0), by unfold SourceRegion; decide +kernel, by unfold DestRegion; decide,
      not_overlap (by decide), .nil, mustStop_small inverseUnit_agrees (by decide +kernel) (by decide +kernel)⟩,
    ⟨small [] (List.replicate 31 0x01) (regions 0 31 0x100 16 0), by unfold SourceRegion; decide +kernel,
      by unfold DestRegion; decide, not_overlap (by decide), .nil,
      mustStop_small inverseUnit_agrees (by decide +kernel) (by decide +kernel)⟩,
    small [] [0x06, 0xFF] (regions 0 2 0x100 4 0), by unfold SourceRegion; decide +kernel, by unfold DestRegion; decide,
      not_overlap (by decide), units_one inverseUnit_agrees (u := ⟨1, .bytes [0x05#8]⟩) (by decide +kernel), by decide,
      mustStop_small inverseUnit_agrees (by decide +kernel) (by decide +kernel)⟩

/-- V51, then the inverse of its output in another region. -/
theorem witness_ZltRoundTrip :
    ∃ s t u : State, SourceRegion s 3 ∧
      (∀ (xs ys : List Byte) (k : Nat),
        s.bufSlice s.regs.srcBase.toNat 3 = xs ++ List.replicate k 0#8 ++ ys → k ≤ 2 ^ 31 - 2) ∧
      exec .zfwd s = .next t ∧ t.regs.status = 0#32 ∧ SourceRegion u t.regs.produced.toNat ∧ DestRegion u ∧ ¬ Overlap u ∧
      3 ≤ u.regs.dstLen.toNat ∧
      u.bufSlice u.regs.srcBase.toNat t.regs.produced.toNat =
        t.bufSlice t.regs.dstBase.toNat t.regs.produced.toNat := by
  refine ⟨small [] [0x00, 0x00, 0x05] (regions 0 3 0x100 2 0), _, small [] [0x01, 0x06] (regions 0 2 0x100 3 0),
    by unfold SourceRegion; decide +kernel, fun xs ys k h => ?_, rfl, by decide +kernel,
    by unfold SourceRegion; decide +kernel, by unfold DestRegion; decide, not_overlap (by decide), by decide,
    by decide +kernel⟩
  have := congrArg List.length h
  simp only [State.bufSlice_length, List.length_append, List.length_replicate] at this
  omega

/-- Two states that differ in a unit, in a reply and in a byte outside the source. -/
theorem witness_ZltDependsOnSourceOnly :
    ∃ s t : State, s ≠ t ∧ s.params.aw = t.params.aw ∧ s.regs.srcBase = t.regs.srcBase ∧ s.regs.srcLen = t.regs.srcLen ∧
      s.regs.dstBase = t.regs.dstBase ∧ s.regs.dstLen = t.regs.dstLen ∧ s.regs.size = t.regs.size ∧
      ∀ a, s.regs.srcBase.toNat ≤ a → a < s.regs.srcBase.toNat + s.regs.srcLen.toNat → s.bufByte a = t.bufByte a :=
  ⟨small [] [0x00, 0x00, 0x05] (regions 0 3 0x100 2 0),
    { small [1] [0x00, 0x00, 0x05, 0x07] (regions 0 3 0x100 2 0) with inPos := 1, replies := [.byte 0#8] },
    fun h => absurd (congrArg State.inPos h) (by decide), rfl, rfl, rfl, rfl, rfl, rfl, by decide +kernel⟩

/-- Each reason once, one byte past the limit. -/
theorem witness_UnusableRegionsAreRefused :
    2 ^ 16 < (regions 0xFFFF 2 0 0 0).srcBase.toNat + (regions 0xFFFF 2 0 0 0).srcLen.toNat ∧
    (regions 0 3 0 0 4).srcLen.toNat < (regions 0 3 0 0 4).size.toNat ∧
    2 ^ 16 < (regions 0 0 0xFFFF 2 0).dstBase.toNat + (regions 0 0 0xFFFF 2 0).dstLen.toNat ∧
    Overlap (small [] [] (regions 0 3 2 4 0)) ∧ State.reset.dec.err = false ∧ State.reset.params.aw = 16 :=
  ⟨by decide, by decide, by decide, (overlaps_iff _).1 (by decide), rfl, rfl⟩

theorem witness_LocateFindsLargestSymbol : FreqModel.initial.Inv ∧ FreqModel.initial.locate 255 = 255 ∧
    FreqModel.initial.locate 256 = 256 := ⟨FreqModel.initial_inv, by decide +kernel, by decide +kernel⟩

/-- A count inside a block, and the last block, which holds the terminal symbol alone. -/
theorem witness_TwoLevelSearchAgrees :
    (∀ p ∈ [(97, 6, 97), (256, 16, 256)],
      p.2.1 ≤ 16 ∧ counterAt FreqModel.initial.baseFreq p.2.1 ≤ p.1 ∧
      (∀ i, i ≤ 16 → counterAt FreqModel.initial.baseFreq i ≤ p.1 → i ≤ p.2.1) ∧
      16 * p.2.1 ≤ p.2.2 ∧ p.2.2 ≤ min (16 * p.2.1 + 15) 256 ∧
      counterAt FreqModel.initial.deltaFreq p.2.2 ≤ p.1 - counterAt FreqModel.initial.baseFreq p.2.1 ∧
      ∀ y, 16 * p.2.1 ≤ y → y ≤ min (16 * p.2.1 + 15) 256 →
        counterAt FreqModel.initial.deltaFreq y ≤ p.1 - counterAt FreqModel.initial.baseFreq p.2.1 → y ≤ p.2.2) ∧
    FreqModel.initial.Inv := by
  refine ⟨fun p hp => ?_, FreqModel.initial_inv⟩
  simp only [List.mem_cons, List.not_mem_nil, or_false] at hp
  rcases hp with rfl | rfl
  · exact ⟨by decide, by decide +kernel, by decide +kernel, by decide, by decide, by decide +kernel,
      fun y h₁ h₂ h₃ => by
        have hb : counterAt FreqModel.initial.baseFreq 6 = 96 := by decide +kernel
        have hd : counterAt FreqModel.initial.deltaFreq y = y % 16 % 2 ^ 41 :=
          counterAt_counterFile 258 _ y (by simp only at h₂; omega)
        simp only [hb, hd] at *
        omega⟩
  · exact ⟨by decide, by decide +kernel, by decide +kernel, by decide, by decide, by decide +kernel,
      fun y h₁ h₂ _ => by simp only at *; omega⟩

/-- A boundary inside the interval, and the upper end `2^56`. -/
theorem witness_ForcedRangeEndsAtBoundary :
    ∀ iv ∈ [(⟨0x40FFFE82FE70D3#56, 0x000005DC93EAF6#56⟩ : Interval), ⟨0xFFFFFFFFFFFFFE#56, 2#56⟩],
      1 ≤ iv.range.toNat ∧ iv.low.toNat + iv.range.toNat ≤ 2 ^ 56 ∧
      (iv.low.toNat + iv.range.toNat = 2 ^ 56 → 2 ^ 56 - 2 ^ 48 ≤ iv.low.toNat) ∧
      settled iv = false ∧ iv.range.toNat < 2 ^ 40 := by decide

theorem witness_CommandsWriteListedRegisters :
    (∃ t, exec .nop State.reset = .next t) ∧
    ∃ t, exec .decb State.reset = .next t ∧ t.regs.status ≠ 0#32 := by
  refine ⟨⟨_, rfl⟩, ?_⟩
  obtain ⟨t, h₁, h₂⟩ := next_of_passes (o := exec .decb State.reset) (check := fun t => t.regs.status != 0#32)
    (by decide +kernel)
  exact ⟨t, h₁, by simpa using h₂⟩

theorem witness_CommandsStayInTheirUnit : ∃ t, exec .nop State.reset = .next t := ⟨_, rfl⟩

theorem witness_BufWrittenOnlyInDestination :
    (∃ t, exec .nop State.reset = .next t) ∧ ∃ t, exec .zfwd State.reset = .next t := ⟨⟨_, rfl⟩, _, rfl⟩

theorem witness_StreamsOnlyAdvance :
    ∃ s t : State, s.Inv ∧ step s = .next t ∧ s.hostOps.head? ≠ some .reset :=
  ⟨State.reset, State.reset, reset_inv, rfl, by decide⟩

/-- Every code from 1 to 7 is some command's last status, from a state that meets the invariant. -/
theorem witness_StatusCodesComeFromTable :
    ∀ c ∈ [1#32, 2#32, 3#32, 4#32, 5#32, 6#32, 7#32], ∃ (i : Instr) (s t : State), s.Inv ∧ exec i s = .next t ∧
      t.regs.status = c := by
  have key : ∀ {c : Word} (i : Instr) (s : State), s.Inv → passes (exec i s) (fun t => t.regs.status == c) = true →
      ∃ (i : Instr) (s t : State), s.Inv ∧ exec i s = .next t ∧ t.regs.status = c := by
    intro c i s hs hp
    obtain ⟨t, h₁, h₂⟩ := next_of_passes hp
    exact ⟨i, s, t, hs, h₁, by simpa using h₂⟩
  have plain : ∀ stream : List Nat, (small stream [] Regs.initial).Inv := fun stream =>
    small_inv stream Regs.initial (by decide) (by decide)
  intro c hc
  simp only [List.mem_cons, List.not_mem_nil, or_false] at hc
  rcases hc with rfl | rfl | rfl | rfl | rfl | rfl | rfl
  · exact key .encblk (small [] [] (regions 0 0 0 0 1)) (small_inv [] _ (by decide) (by decide)) (by decide +kernel)
  · exact key .decb (small (List.replicate 7 0xFF) [] Regs.initial) (plain _) (by decide +kernel)
  · exact key .decb (small (List.replicate 8 0xFF) [] Regs.initial) (plain _) (by decide +kernel)
  · refine key .zinv { small [] [] (regions 0 1 0x100 0 0) with buf := [(0, 0x05#8)] }
      ⟨Encoder.initial_inv, Decoder.initial_inv, by decide, by decide, by decide, by decide, Nat.zero_le _, by decide⟩
      (by decide +kernel)
  · exact key .decb (small [] [] Regs.initial) (plain _) (by decide +kernel)
  · refine key (.encb 0#8) { State.reset with enc := { Encoder.initial with written := true, flushed := true } }
      ⟨flushed_inv, Decoder.initial_inv, by decide, by decide, by decide,
        by decide, Nat.zero_le _, by decide⟩ (by decide +kernel)
  · refine key (.encb 0#8) { State.reset with enc := heavyEncoder 0 }
      ⟨⟨initial_interval_inv, heavyModel_inv_0, by decide⟩, Decoder.initial_inv, by decide, by decide, by decide,
        by decide, Nat.zero_le _, by decide⟩ (by decide +kernel)

theorem witness_StepKeepsInvariant : ∃ s t : State, s.Inv ∧ step s = .next t := ⟨State.reset, State.reset, reset_inv, rfl⟩

theorem witness_StepAlwaysCompletes :
    ∃ s : State, s.Inv ∧ s.hostOps.head? = some (.bufWrite 0xFFFF 1#8) ∧
      ∀ op, s.hostOps.head? = some op → op.wellFormed s.params = true :=
  ⟨{ State.reset with hostOps := [.bufWrite 0xFFFF 1#8] },
    ⟨Encoder.initial_inv, Decoder.initial_inv, by decide, by decide, by decide, by decide, Nat.zero_le _, by decide⟩, rfl,
    fun op h => by cases h; decide⟩

/-- A run ended, with a result that passes a check. -/
def runPasses (o : Host.Outcome RunResult Fault Refusal) (check : RunResult → Bool) : Bool :=
  match o with
  | .next r => check r
  | .fault _ => false
  | .refused _ => false

theorem run_of_passes {o : Host.Outcome RunResult Fault Refusal} {check : RunResult → Bool} (h : runPasses o check = true) :
    ∃ r, o = .next r ∧ check r = true := by
  cases o with
  | next r => exact ⟨r, rfl, h⟩
  | fault _ => exact absurd h (by simp [runPasses])
  | refused _ => exact absurd h (by simp [runPasses])

/-- P1, its middle: an ENCB after a flush, then ENCF. The last status is 0, and the run is not clean. -/
theorem test_run_fault_is_not_clean : runPasses (runFrom flushedState
      [.regWrite 0x04#8 0x01000064#32, .regRead 0x08#8, .regWrite 0x04#8 0x02000000#32, .regRead 0x08#8])
    (fun r => r.values == [.reg 6#32, .reg 0#32] && r.final.regs.status == 0#32 && !r.clean) = true := by decide +kernel

/-- Reads and a register write in a state whose status is not 0, with no command, leave the run clean. -/
theorem test_run_without_command_is_clean : runPasses (runFrom { State.reset with regs := { Regs.initial with status := 6#32 } }
      [.regRead 0x08#8, .regWrite 0x10#8 1#32, .bufWrite 0xFFFF 7#8, .bufRead 0xFFFF])
    (fun r => r.values == [.reg 6#32, .byte 7#8] && r.clean) = true := by decide +kernel

theorem witness_RunIsIteratedStep :
    ∃ (s : State) (r : RunResult), runFrom s [.regWrite 0x04#8 0#32, .regRead 0x00#8] = .next r ∧
      r.values = [.reg 0x4B5A0001#32] := by
  obtain ⟨r, h₁, h₂⟩ := run_of_passes (o := runFrom State.reset [.regWrite 0x04#8 0#32, .regRead 0x00#8])
    (check := fun r => r.values == [.reg 0x4B5A0001#32]) (by decide +kernel)
  exact ⟨_, r, h₁, by simpa using h₂⟩

/-- Each side of the equivalence: a clean run, and one that is not although its last command succeeds. -/
theorem witness_RunIsCleanWhenNoCommandFaults :
    (∃ (s : State) (r : RunResult), runFrom s [.regWrite 0x04#8 0#32] = .next r ∧ r.clean = true) ∧
    ∃ (s : State) (r : RunResult), runFrom s [.regWrite 0x04#8 0x01000064#32, .regWrite 0x04#8 0x02000000#32] = .next r ∧
      r.clean = false ∧ r.final.regs.status = 0#32 := by
  obtain ⟨r, h₁, h₂⟩ := run_of_passes (o := runFrom State.reset [.regWrite 0x04#8 0#32])
    (check := fun r => r.clean) (by decide +kernel)
  obtain ⟨q, h₃, h₄⟩ := run_of_passes (o := runFrom flushedState [.regWrite 0x04#8 0x01000064#32, .regWrite 0x04#8 0x02000000#32])
    (check := fun r => !r.clean && r.final.regs.status == 0#32) (by decide +kernel)
  exact ⟨⟨_, r, h₁, h₂⟩, _, q, h₃, by simpa using h₄⟩

/-- The last address of `BUF`, written and read. -/
theorem witness_RunAlwaysEnds :
    State.reset.Inv ∧ ∀ op ∈ [.bufWrite 0xFFFF 1#8, .bufRead 0xFFFF, .regWrite 0x04#8 0x01000061#32, .reset],
      HostOp.wellFormed State.reset.params op = true := ⟨reset_inv, by decide⟩

end Sys2Proof.Tests
end

section
/-! Proofs of the statements of 00_scope.md: one step performs one host operation. -/

namespace Sys2Proof.Machine

/-- With no operation pending the block waits for the host (70_reset_and_hazards.md R247). -/
theorem step_of_nonePending {s : State} (h : s.hostOps = []) : step s = .next s := by
  rw [step, serveHost, h]

/-- The operation the host issued first is taken off the list and performed (00_scope.md R14, 30_encoding.md R90). -/
theorem step_of_pending {s : State} {op : HostOp} {rest : List HostOp} (h : s.hostOps = op :: rest) :
    step s = perform op { s with hostOps := rest } := by
  rw [step, serveHost, h]

/-- Settles O6: the two cases of the list of pending operations. -/
theorem stepPerformsNextOperation : Obligations.StepPerformsNextOperation := by
  intro s
  exact ⟨step_of_nonePending, fun _ _ => step_of_pending⟩

end Sys2Proof.Machine
end

section
/-! Proofs of the statements of 10_state.md: what every step keeps of the state, and which parts of it a command can change. -/

namespace Sys2Proof.Machine

/-! ### The reset state -/

/-- `deltaFreq[i] = i & 15` after reset (10_state.md R34). -/
theorem FreqModel.initial_deltaFreq {i : Nat} (hi : i ≤ 257) : counterAt FreqModel.initial.deltaFreq i = i % 16 := by
  rw [FreqModel.initial, counterAt_counterFile _ _ _ (by omega)]
  omega

/-- `baseFreq[i] = i << 4` after reset (10_state.md R34). -/
theorem FreqModel.initial_baseFreq {i : Nat} (hi : i ≤ 16) : counterAt FreqModel.initial.baseFreq i = 16 * i := by
  rw [FreqModel.initial, counterAt_counterFile _ _ _ (by omega)]
  omega

theorem FreqModel.initial_total : FreqModel.initial.total = 257 := FreqModel.initial_F (Nat.le_refl 257)

/-- Settles O12: the counters by their formulas, every other value by reading it off the reset state. -/
theorem resetStateHoldsListedValues : Obligations.ResetStateHoldsListedValues :=
  ⟨rfl, rfl, rfl, rfl, rfl, rfl, rfl, rfl, rfl, rfl,
    fun _ hi => ⟨FreqModel.initial_deltaFreq hi, FreqModel.initial_deltaFreq hi⟩,
    fun _ hi => ⟨FreqModel.initial_baseFreq hi, FreqModel.initial_baseFreq hi⟩,
    FreqModel.initial_total, FreqModel.initial_total, rfl, rfl, rfl, rfl⟩

/-- Settles O44: both units meet their invariants at reset, and every other field is empty or 0. -/
theorem resetMeetsInvariant : Obligations.ResetMeetsInvariant where
  enc := Encoder.initial_inv
  dec := Decoder.initial_inv
  status := by decide
  result := by decide
  bufWf := State.reset_wf
  bufIn _ hc := absurd hc List.not_mem_nil
  cursor := Nat.le_refl 0
  params := by decide

/-! ### The invariant under the state's updates -/

namespace State.Inv

variable {s : State}

theorem setCode (h : s.Inv) {c : BitVec 4} (hc : c.toNat ≤ 8) : (s.setCode c).Inv where
  enc := h.enc
  dec := h.dec
  status := by
    rw [State.setCode_status, BitVec.toNat_setWidth]
    omega
  result := h.result
  bufWf := h.bufWf
  bufIn := h.bufIn
  cursor := h.cursor
  params := h.params

theorem finish (h : s.Inv) (c : StatusCode) : (s.finish c).Inv :=
  h.setCode (by cases c <;> decide)

theorem setCounts (h : s.Inv) (c p : Word) : (s.setCounts c p).Inv :=
  ⟨h.enc, h.dec, h.status, h.result, h.bufWf, h.bufIn, h.cursor, h.params⟩

theorem refuseArgs (h : s.Inv) : s.refuseArgs.Inv := (h.setCounts 0 0).finish .inval

theorem reply (h : s.Inv) (r : Reply) : (s.reply r).Inv :=
  ⟨h.enc, h.dec, h.status, h.result, h.bufWf, h.bufIn, h.cursor, h.params⟩

theorem setOps (h : s.Inv) (ops : List HostOp) : State.Inv { s with hostOps := ops } :=
  ⟨h.enc, h.dec, h.status, h.result, h.bufWf, h.bufIn, h.cursor, h.params⟩

theorem storeReg (h : s.Inv) (off : BitVec 8) (v : Word) : (s.storeReg off v).Inv := by
  obtain ⟨_, _, _, _, _, hs⟩ := s.storeReg_frame off v
  rw [hs]
  exact ⟨h.enc, h.dec, h.status, h.result, h.bufWf, h.bufIn, h.cursor, h.params⟩

theorem setResult (h : s.Inv) (b : Byte) : State.Inv { s with regs := { s.regs with result := b.zeroExtend 32 } } where
  enc := h.enc
  dec := h.dec
  status := h.status
  result := by
    have := b.isLt
    rw [BitVec.toNat_setWidth]
    omega
  bufWf := h.bufWf
  bufIn := h.bufIn
  cursor := h.cursor
  params := h.params

theorem setEncoder (h : s.Inv) {e : Encoder} (he : e.Inv) (out : List OutEvent) :
    State.Inv { s with enc := e, outStream := out } :=
  ⟨he, h.dec, h.status, h.result, h.bufWf, h.bufIn, h.cursor, h.params⟩

theorem setDecoder (h : s.Inv) {d : Decoder} (hd : d.Inv) {pos : Nat} (hp : pos ≤ s.params.inStream.length) :
    State.Inv { s with dec := d, inPos := pos } :=
  ⟨h.enc, hd, h.status, h.result, h.bufWf, h.bufIn, hp, h.params⟩

/-- Bytes stored inside `BUF` keep its canonical form and its size (10_state.md R51, 20_memory.md R60). -/
theorem store (h : s.Inv) {a : Nat} {bs : List Byte} (hfit : a + bs.length ≤ s.params.bufSize) :
    State.Inv { s with buf := s.buf.writeList a bs } where
  enc := h.enc
  dec := h.dec
  status := h.status
  result := h.result
  bufWf := Memory.wf_writeList a bs h.bufWf
  bufIn c hc := by
    rcases Memory.mem_writeList hc with ⟨_, hlt⟩ | hmem
    · exact Nat.lt_of_lt_of_le hlt hfit
    · exact h.bufIn c hmem
  cursor := h.cursor
  params := h.params

/-- The reset event keeps nothing of the block's state but the run's parameters (70_reset_and_hazards.md R245). -/
theorem resetEvent (h : s.Inv) : s.resetEvent.Inv :=
  have hr := resetMeetsInvariant
  ⟨hr.enc, hr.dec, hr.status, hr.result, hr.bufWf, fun _ hc => absurd hc List.not_mem_nil, Nat.zero_le _, h.params⟩

end State.Inv

/-! ### What the encoder's commands keep -/

theorem encodeByte_coded_inv {e e' : Encoder} {b : Byte} {out : List Byte} (h : e.Inv)
    (hb : encodeByte b e = .coded e' out) : e'.Inv := by
  rcases encodeByte_cases h b with ⟨_, hr⟩ | ⟨_, _, hr⟩ | ⟨_, _, he, hr⟩ <;> rw [hr] at hb <;> cases hb
  exact (he.inv h).2.1

theorem encodeRun_inv {bs : List Byte} {e : Encoder} (h : e.Inv) : (encodeRun bs e).enc.Inv := by
  obtain ⟨_, _, _, _, hr, _, _, hi⟩ := encodeRun_spec bs h
  rw [hr]
  exact hi

/-- A flush empties `low` and leaves `range`: the interval stays inside `2^56` (41_range_encoder.md R149). -/
theorem Encoder.Inv.flush {e : Encoder} (h : e.Inv) (hw : e.written = true) :
    Encoder.Inv { e with flushed := true, low := 0#56 } where
  interval := by
    have hlt := e.range.isLt
    exact ⟨h.interval.wide, by simp only [BitVec.toNat_ofNat]; omega, by simp only [BitVec.toNat_ofNat]; omega⟩
  freq := h.freq
  flags _ := hw

theorem execEncb_inv {b : Byte} {s t : State} (h : s.Inv) (ht : execEncb b s = .next t) : t.Inv := by
  rcases execEncb_next ht with ⟨e, out, hb, rfl⟩ | rfl | rfl
  · exact (h.setEncoder (encodeByte_coded_inv h.enc hb) _).finish _
  · exact h.finish _
  · exact h.finish _

theorem execEncf_inv {s t : State} (h : s.Inv) (ht : execEncf s = .next t) : t.Inv := by
  unfold execEncf at ht
  split_ifs at ht with hc <;> cases ht
  · rw [Bool.and_eq_true] at hc
    exact (h.setEncoder (h.enc.flush hc.1) _).finish _
  · exact h.finish _

theorem execEncblk_inv {s t : State} (h : s.Inv) (ht : execEncblk s = .next t) : t.Inv := by
  rcases execEncblk_next ht with rfl | ⟨n, e, out, p, c, _, _, hr, rfl⟩
  · exact h.refuseArgs
  · have he := encodeRun_inv (bs := s.bufSlice s.regs.srcBase.toNat n) h.enc
    rw [hr] at he
    exact ((h.setEncoder he _).setCounts _ _).finish _

/-! ### What the decoder's commands keep

From a state that meets the invariant a command keeps it, and the input cursor does not go back. -/

/-- The latch codes fit `STATUS.CODE`, and so does the clear latch's 0 (60_exceptions.md R226). -/
theorem Decoder.Inv.errcode_le {d : Decoder} (h : d.Inv) : d.errcode.toNat ≤ 8 := by
  cases he : d.err with
  | false => rw [h.noFault he]; decide
  | true =>
    have hall : ∀ c ∈ [2#4, 3#4, 5#4, 7#4], c.toNat ≤ 8 := by decide
    exact hall _ (h.latched he)

theorem decodeRun_keeps {stream : List Byte} {n : Nat} {d d' : Decoder} {pos pos' : Nat} {bs : List Byte}
    {code : Except Fault StatusCode} (h : d.Inv) (hp : pos ≤ stream.length)
    (hr : decodeRun stream n d pos = ⟨d', pos', bs, code⟩) : d'.Inv ∧ pos ≤ pos' ∧ pos' ≤ stream.length := by
  rcases decodeAll_or_faults n h hp with ⟨bs₁, _, _, hn, hall⟩ | ⟨bs₁, _, _, c, _, hn, hall, hf⟩
  · obtain ⟨heq, hkeep⟩ := decodeRun_of_decodes hall h hp
    rw [hn, hr] at heq
    cases heq
    exact hkeep
  · obtain ⟨k, rfl⟩ : ∃ k, n = bs₁.length + (k + 1) := ⟨n - bs₁.length - 1, by omega⟩
    rw [decodeRun_of_faults hall hf h hp k] at hr
    cases hr
    obtain ⟨hi, _, h₁, h₂⟩ := hall.inv h hp
    obtain ⟨h₃, h₄, hc⟩ := hf.bounds h₂
    exact ⟨hi.latch hc, h₁.trans h₃, h₄⟩

theorem execDecb_keeps {s t : State} (h : s.Inv) (ht : execDecb s = .next t) : t.Inv ∧ s.inPos ≤ t.inPos := by
  rcases execDecb_next ht with ⟨_, rfl⟩ | ⟨_, d, pos, b, hb, rfl⟩ | ⟨_, c, pos, _, hf, rfl⟩
  · exact ⟨h.setCode h.dec.errcode_le, Nat.le_refl _⟩
  · obtain ⟨hd, _, _, h₁, h₂⟩ := (decodesByte_of_symbol h.dec h.cursor hb).inv h.dec h.cursor
    exact ⟨((h.setDecoder hd h₂).setResult b).finish _, h₁⟩
  · obtain ⟨h₁, h₂, hc⟩ := (decodeFaults_of_symbol h.dec h.cursor hf).bounds h.cursor
    exact ⟨(h.setDecoder (h.dec.latch hc) h₂).finish _, h₁⟩

theorem execDecblk_keeps {s t : State} (h : s.Inv) (ht : execDecblk s = .next t) : t.Inv ∧ s.inPos ≤ t.inPos := by
  rcases execDecblk_next ht with ⟨_, rfl⟩ | ⟨_, rfl⟩ | ⟨_, hdst, d, pos, bs, c, hr, _, hlen, rfl⟩
  · exact ⟨(h.setCounts 0 0).setCode h.dec.errcode_le, Nat.le_refl _⟩
  · exact ⟨h.refuseArgs, Nat.le_refl _⟩
  · obtain ⟨hd, h₁, h₂⟩ := decodeRun_keeps h.dec h.cursor hr
    have hfit : s.regs.dstBase.toNat + bs.length ≤ s.params.bufSize := (Nat.add_le_add_left hlen _).trans hdst
    exact ⟨(((h.setDecoder hd h₂).store hfit).setCounts _ _).finish _, h₁⟩

/-! ### What the transform, the host's operations and the step keep -/

theorem zltCommand_inv (unit : List Byte → Option ZltUnit) {s : State} (h : s.Inv) : (zltCommand unit s).Inv := by
  rcases zltCommand_form unit s with heq | ⟨n, r, _, hdst, _, _, hlen, heq⟩ <;> rw [heq]
  · exact h.refuseArgs
  · have hfit : s.regs.dstBase.toNat + r.out.length ≤ s.params.bufSize := (Nat.add_le_add_left hlen _).trans hdst
    exact ((h.store hfit).setCounts _ _).finish _

/-- Every command keeps the invariant (10_state.md R26, R33, R35; 60_exceptions.md R226). -/
theorem exec_inv {i : Instr} {s t : State} (h : s.Inv) (ht : exec i s = .next t) : t.Inv := by
  cases i with
  | nop => cases ht; exact h.finish _
  | encb b => exact execEncb_inv h ht
  | encf => exact execEncf_inv h ht
  | encblk => exact execEncblk_inv h ht
  | erst => cases ht; exact (h.setEncoder Encoder.initial_inv _).finish _
  | decb => exact (execDecb_keeps h ht).1
  | decblk => exact (execDecblk_keeps h ht).1
  | drst => cases ht; exact (h.setDecoder Decoder.initial_inv h.cursor).finish _
  | zfwd => cases ht; exact zltCommand_inv forwardUnit h
  | zinv => cases ht; exact zltCommand_inv inverseUnit h

/-- What an operation of the host can do: run a command or find the word illegal, store a register, append a reply, store a
byte, or reset the block (30_encoding.md R90, 44_system.md R201 to R204). -/
theorem perform_next {op : HostOp} {s t : State} (h : perform op s = .next t) :
    (∃ i, exec i s = .next t) ∨ t = s.finish .illcmd ∨ (∃ off v, t = s.storeReg off v) ∨ (∃ r, t = s.reply r) ∨
    (∃ a b, a < s.params.bufSize ∧ t = { s with buf := s.buf.write a b }) ∨ (op = .reset ∧ t = s.resetEvent) := by
  cases op with
  | regRead off => cases h; exact .inr (.inr (.inr (.inl ⟨_, rfl⟩)))
  | regWrite off v =>
    simp only [perform, regWriteOp, dispatch] at h
    split_ifs at h
    · split at h
      · exact .inl ⟨_, h⟩
      · cases h; exact .inr (.inl rfl)
    · cases h; exact .inr (.inr (.inl ⟨off, v, rfl⟩))
  | bufRead a =>
    simp only [perform, bufReadOp] at h
    split_ifs at h
    cases h
    exact .inr (.inr (.inr (.inl ⟨_, rfl⟩)))
  | bufWrite a b =>
    simp only [perform, bufWriteOp] at h
    split_ifs at h with ha
    cases h
    exact .inr (.inr (.inr (.inr (.inl ⟨a, b, ha, rfl⟩))))
  | reset => cases h; exact .inr (.inr (.inr (.inr (.inr ⟨rfl, rfl⟩))))

/-- Every operation of the host keeps the invariant (30_encoding.md R90). -/
theorem perform_inv {op : HostOp} {s t : State} (h : s.Inv) (ht : perform op s = .next t) : t.Inv := by
  rcases perform_next ht with ⟨i, hi⟩ | rfl | ⟨off, v, rfl⟩ | ⟨r, rfl⟩ | ⟨a, b, ha, rfl⟩ | ⟨rfl, rfl⟩
  · exact exec_inv h hi
  · exact h.finish _
  · exact h.storeReg off v
  · exact h.reply r
  · exact h.store (a := a) (bs := [b]) ha
  · exact h.resetEvent

/-- Settles O45: a step waits, or performs one operation of the host. -/
theorem stepKeepsInvariant : Obligations.StepKeepsInvariant := by
  intro s t h ht
  cases hops : s.hostOps with
  | nil =>
    rw [step_of_nonePending hops] at ht
    cases ht
    exact h
  | cons op rest =>
    rw [step_of_pending hops] at ht
    exact perform_inv (h.setOps rest) ht

/-! ### Which parts of the state a command changes -/

theorem zltCommand_frame (unit : List Byte → Option ZltUnit) (s : State) :
    ∃ m r, zltCommand unit s = { s with buf := m, regs := r } := by
  rcases zltCommand_form unit s with h | ⟨_, _, _, _, _, _, _, h⟩ <;> exact ⟨_, _, h⟩

/-- What a command can change, by its unit: the transform and NOP only `BUF` and registers, the encoder's commands their unit
and the output they append to, the decoder's their unit, the input cursor and `BUF` (10_state.md R20). -/
theorem exec_frame {i : Instr} {s t : State} (h : exec i s = .next t) :
    (i ∈ [.nop, .zfwd, .zinv] ∧ ∃ m r, t = { s with buf := m, regs := r }) ∨
    (((∃ b, i = .encb b) ∨ i ∈ [.encf, .encblk]) ∧
      ∃ e events r, t = { s with enc := e, outStream := s.outStream ++ events, regs := r }) ∨
    (i = .erst ∧ ∃ e r, t = { s with enc := e, regs := r }) ∨
    (i ∈ [.decb, .decblk] ∧ ∃ d pos m r, t = { s with dec := d, inPos := pos, buf := m, regs := r }) ∨
    (i = .drst ∧ ∃ d r, t = { s with dec := d, regs := r }) := by
  cases i with
  | nop =>
    cases h
    exact .inl ⟨by decide, _, _, rfl⟩
  | encb b =>
    refine .inr (.inl ⟨.inl ⟨b, rfl⟩, ?_⟩)
    rcases execEncb_next h with ⟨_, _, _, rfl⟩ | rfl | rfl
    · exact ⟨_, _, _, rfl⟩
    · exact ⟨_, [], _, by rw [List.append_nil]; rfl⟩
    · exact ⟨_, [], _, by rw [List.append_nil]; rfl⟩
  | encf =>
    obtain ⟨_, _, rfl⟩ := execEncf_next h
    exact .inr (.inl ⟨.inr (by decide), _, _, _, rfl⟩)
  | encblk =>
    refine .inr (.inl ⟨.inr (by decide), ?_⟩)
    rcases execEncblk_next h with rfl | ⟨_, _, _, _, _, _, _, _, rfl⟩
    · exact ⟨_, [], _, by rw [List.append_nil]; rfl⟩
    · exact ⟨_, _, _, rfl⟩
  | erst =>
    cases h
    exact .inr (.inr (.inl ⟨rfl, _, _, rfl⟩))
  | decb =>
    refine .inr (.inr (.inr (.inl ⟨by decide, ?_⟩)))
    rcases execDecb_next h with ⟨_, rfl⟩ | ⟨_, _, _, _, _, rfl⟩ | ⟨_, _, _, _, _, rfl⟩ <;> exact ⟨_, _, _, _, rfl⟩
  | decblk =>
    refine .inr (.inr (.inr (.inl ⟨by decide, ?_⟩)))
    rcases execDecblk_next h with ⟨_, rfl⟩ | ⟨_, rfl⟩ | ⟨_, _, _, _, _, _, _, _, _, rfl⟩ <;> exact ⟨_, _, _, _, rfl⟩
  | drst =>
    cases h
    exact .inr (.inr (.inr (.inr ⟨rfl, _, _, rfl⟩)))
  | zfwd =>
    cases h
    exact .inl ⟨by decide, zltCommand_frame forwardUnit s⟩
  | zinv =>
    cases h
    exact .inl ⟨by decide, zltCommand_frame inverseUnit s⟩

/-- Settles O40: each clause is about a field that the command's unit does not have. -/
theorem commandsStayInTheirUnit : Obligations.CommandsStayInTheirUnit := by
  intro i s t h
  rcases exec_frame h with ⟨-, _, _, rfl⟩ | ⟨hi, _, _, _, rfl⟩ | ⟨rfl, _, _, rfl⟩ | ⟨hi, _, _, _, _, rfl⟩ |
    ⟨rfl, _, _, rfl⟩
  · simp
  · rcases hi with ⟨b, rfl⟩ | hi
    · simp
    · exact ⟨fun _ hn => absurd (List.mem_append_left [Instr.erst] hi) hn, fun _ hn => absurd hi hn, fun _ => rfl, fun _ => rfl,
        rfl, rfl, rfl, rfl⟩
  · simp
  · exact ⟨fun _ _ => rfl, fun _ _ => rfl, fun hn => absurd (List.mem_append_left [Instr.drst] hi) hn, fun hn => absurd hi hn,
      rfl, rfl, rfl, rfl⟩
  · simp

/-! ### Which host registers a command writes -/

theorem zltCommand_regs (unit : List Byte → Option ZltUnit) (s : State) :
    ∃ c k p, (zltCommand unit s).regs = { s.regs with status := c, consumed := k, produced := p } := by
  rcases zltCommand_form unit s with h | ⟨_, _, _, _, _, _, _, h⟩ <;> rw [h] <;> exact ⟨_, _, _, rfl⟩

/-- The registers after a command: the status is written; a block command writes its two counts too, and a DECB that ends
with status 0 its result (10_state.md R49). -/
theorem exec_regs {i : Instr} {s t : State} (h : exec i s = .next t) :
    (∃ c, t.regs = { s.regs with status := c }) ∨
    (i ∈ [.encblk, .decblk, .zfwd, .zinv] ∧
      ∃ c k p, t.regs = { s.regs with status := c, consumed := k, produced := p }) ∨
    (i = .decb ∧ ∃ v, t.regs = { s.regs with status := 0#32, result := v }) := by
  cases i with
  | nop => cases h; exact .inl ⟨_, rfl⟩
  | encb b => rcases execEncb_next h with ⟨_, _, _, rfl⟩ | rfl | rfl <;> exact .inl ⟨_, rfl⟩
  | encf =>
    obtain ⟨_, _, rfl⟩ := execEncf_next h
    exact .inl ⟨_, rfl⟩
  | encblk =>
    rcases execEncblk_next h with rfl | ⟨_, _, _, _, _, _, _, _, rfl⟩ <;>
      exact .inr (.inl ⟨by decide, _, _, _, rfl⟩)
  | erst => cases h; exact .inl ⟨_, rfl⟩
  | decb =>
    rcases execDecb_next h with ⟨_, rfl⟩ | ⟨_, _, _, _, _, rfl⟩ | ⟨_, _, _, _, _, rfl⟩
    · exact .inl ⟨_, rfl⟩
    · exact .inr (.inr ⟨rfl, _, rfl⟩)
    · exact .inl ⟨_, rfl⟩
  | decblk =>
    rcases execDecblk_next h with ⟨_, rfl⟩ | ⟨_, rfl⟩ | ⟨_, _, _, _, _, _, _, _, _, rfl⟩ <;>
      exact .inr (.inl ⟨by decide, _, _, _, rfl⟩)
  | drst => cases h; exact .inl ⟨_, rfl⟩
  | zfwd => cases h; exact .inr (.inl ⟨by decide, zltCommand_regs forwardUnit s⟩)
  | zinv => cases h; exact .inr (.inl ⟨by decide, zltCommand_regs inverseUnit s⟩)

/-- Settles O39: each form of the registers after a command writes only what is listed for it. -/
theorem commandsWriteListedRegisters : Obligations.CommandsWriteListedRegisters := by
  intro i s t h
  rcases exec_regs h with ⟨c, hr⟩ | ⟨hi, c, k, p, hr⟩ | ⟨rfl, v, hr⟩ <;> rw [hr]
  · exact ⟨rfl, rfl, rfl, rfl, rfl, fun _ => rfl, fun _ => ⟨rfl, rfl⟩⟩
  · exact ⟨rfl, rfl, rfl, rfl, rfl, fun _ => rfl, fun hn => absurd hi hn⟩
  · simp

/-! ### The streams -/

/-- A command appends to the output or leaves it (10_state.md R50). -/
theorem exec_outStream {i : Instr} {s t : State} (h : exec i s = .next t) : s.outStream <+: t.outStream := by
  rcases exec_frame h with ⟨_, _, _, rfl⟩ | ⟨_, _, events, _, rfl⟩ | ⟨_, _, _, rfl⟩ | ⟨_, _, _, _, _, rfl⟩ |
    ⟨_, _, _, rfl⟩
  · exact List.prefix_rfl
  · exact List.prefix_append _ events
  · exact List.prefix_rfl
  · exact List.prefix_rfl
  · exact List.prefix_rfl

/-- A command takes input bytes in order or leaves the cursor (20_memory.md R69). -/
theorem exec_inPos_le {i : Instr} {s t : State} (hs : s.Inv) (h : exec i s = .next t) : s.inPos ≤ t.inPos := by
  by_cases hi : i ∈ [.decb, .decblk]
  · rcases List.mem_pair.1 hi with rfl | rfl
    · exact (execDecb_keeps hs h).2
    · exact (execDecblk_keeps hs h).2
  · obtain ⟨_, _, _, hpos, _⟩ := commandsStayInTheirUnit i s t h
    exact (hpos hi).ge

/-- No operation of the host but the reset event takes back output or input bytes (30_encoding.md R90, 20_memory.md R80). -/
theorem perform_streams {op : HostOp} {s t : State} (hs : s.Inv) (h : perform op s = .next t) (hop : op ≠ .reset) :
    s.outStream <+: t.outStream ∧ s.inPos ≤ t.inPos := by
  rcases perform_next h with ⟨i, hi⟩ | rfl | ⟨off, v, rfl⟩ | ⟨r, rfl⟩ | ⟨a, b, _, rfl⟩ | ⟨hr, _⟩
  · exact ⟨exec_outStream hi, exec_inPos_le hs hi⟩
  · exact ⟨List.prefix_rfl, Nat.le_refl _⟩
  · obtain ⟨_, _, _, _, _, hstore⟩ := s.storeReg_frame off v
    rw [hstore]
    exact ⟨List.prefix_rfl, Nat.le_refl _⟩
  · exact ⟨List.prefix_rfl, Nat.le_refl _⟩
  · exact ⟨List.prefix_rfl, Nat.le_refl _⟩
  · exact absurd hr hop

/-- Settles O42: the step waits, or performs an operation that is not the reset event. -/
theorem streamsOnlyAdvance : Obligations.StreamsOnlyAdvance := by
  intro s t hs ht hreset
  have hcursor : t.inPos ≤ t.params.inStream.length := (stepKeepsInvariant s t hs ht).cursor
  cases hops : s.hostOps with
  | nil =>
    rw [step_of_nonePending hops] at ht
    cases ht
    exact ⟨⟨[], (List.append_nil _).symm⟩, Nat.le_refl _, hcursor, rfl⟩
  | cons op rest =>
    rw [step_of_pending hops] at ht
    have hparams : t.params = s.params := (perform_replies ht).2.2
    have hop : op ≠ .reset := fun hc => hreset (by rw [hops, hc]; rfl)
    obtain ⟨⟨events, hout⟩, hpos⟩ := perform_streams (hs.setOps rest) ht hop
    exact ⟨⟨events, hout.symm⟩, hpos, hparams ▸ hcursor, hparams⟩

/-! ### The step and the command words -/

/-- A write of a word that decodes runs its command (44_system.md R202, R204). -/
theorem perform_command {w : Word} {i : Instr} (hw : decode w = some i) (s : State) :
    perform (.regWrite 0x04#8 w) s = exec i s := by
  simp only [perform, regWriteOp, dispatch, hw, if_true]

/-- Settles O5: the step performs the write, and the write runs the command. -/
theorem stepRunsDecodedCommand : Obligations.StepRunsDecodedCommand := by
  intro s w rest i hops hw
  rw [step_of_pending hops, perform_command hw]

end Sys2Proof.Machine
end

section
/-! Proofs of the statements of 20_memory.md: what a command can change of `BUF`. -/

namespace Sys2Proof.Machine

/-- From `s` to `t` some bytes were stored from `DST_BASE` on, at most `DST_LEN` of them, and `PRODUCED` counts them; a
refused command stores none (20_memory.md R73, 44_system.md R207). -/
def StoresProduced (s t : State) : Prop :=
  ∃ bs : List Byte, bs.length ≤ s.regs.dstLen.toNat ∧ t.regs.produced = BitVec.ofNat 32 bs.length ∧
    t.buf = s.buf.writeList s.regs.dstBase.toNat bs

theorem storesProduced_nothing {s t : State} (hp : t.regs.produced = 0#32) (hbuf : t.buf = s.buf) :
    StoresProduced s t :=
  ⟨[], Nat.zero_le _, hp, hbuf⟩

theorem execDecblk_storesProduced {s t : State} (h : execDecblk s = .next t) : StoresProduced s t := by
  rcases execDecblk_next h with ⟨_, rfl⟩ | ⟨_, rfl⟩ | ⟨_, _, _, _, bs, _, _, _, hlen, rfl⟩
  · exact storesProduced_nothing rfl rfl
  · exact storesProduced_nothing rfl rfl
  · exact ⟨bs, hlen, rfl, rfl⟩

theorem zltCommand_storesProduced (unit : List Byte → Option ZltUnit) (s : State) :
    StoresProduced s (zltCommand unit s) := by
  rcases zltCommand_form unit s with h | ⟨_, r, _, _, _, _, hlen, h⟩ <;> rw [h]
  · exact storesProduced_nothing rfl rfl
  · exact ⟨r.out, hlen, rfl, rfl⟩

/-- `DST_LEN` is a 32-bit register, so `PRODUCED` holds the count of the stored bytes exactly, and no address outside them
changes. -/
theorem StoresProduced.frame {s t : State} (h : StoresProduced s t) :
    t.regs.produced.toNat ≤ s.regs.dstLen.toNat ∧
    ∀ a, a < s.regs.dstBase.toNat ∨ s.regs.dstBase.toNat + t.regs.produced.toNat ≤ a →
      t.buf.read a = s.buf.read a := by
  obtain ⟨bs, hlen, hproduced, hbuf⟩ := h
  have hcount : t.regs.produced.toNat = bs.length := by
    rw [hproduced, BitVec.toNat_ofNat, Nat.mod_eq_of_lt (hlen.trans_lt s.regs.dstLen.isLt)]
  rw [hcount, hbuf]
  exact ⟨hlen, fun a ha => s.buf.read_writeList_outside _ a bs ha⟩

/-- What a command does to `BUF`: DECBLK, ZFWD and ZINV store the bytes they produce, the others leave it as it is
(20_memory.md R60). -/
theorem exec_buf {i : Instr} {s t : State} (h : exec i s = .next t) :
    (i ∉ [.decblk, .zfwd, .zinv] ∧ t.buf = s.buf) ∨ (i ∈ [.decblk, .zfwd, .zinv] ∧ StoresProduced s t) := by
  cases i with
  | nop => cases h; exact .inl ⟨by decide, rfl⟩
  | encb b =>
    refine .inl ⟨by simp, ?_⟩
    rcases execEncb_next h with ⟨_, _, _, rfl⟩ | rfl | rfl <;> rfl
  | encf =>
    obtain ⟨_, _, rfl⟩ := execEncf_next h
    exact .inl ⟨by decide, rfl⟩
  | encblk =>
    refine .inl ⟨by decide, ?_⟩
    rcases execEncblk_next h with rfl | ⟨_, _, _, _, _, _, _, _, rfl⟩ <;> rfl
  | erst => cases h; exact .inl ⟨by decide, rfl⟩
  | decb =>
    refine .inl ⟨by decide, ?_⟩
    rcases execDecb_next h with ⟨_, rfl⟩ | ⟨_, _, _, _, _, rfl⟩ | ⟨_, _, _, _, _, rfl⟩ <;> rfl
  | decblk => exact .inr ⟨by decide, execDecblk_storesProduced h⟩
  | drst => cases h; exact .inl ⟨by decide, rfl⟩
  | zfwd => cases h; exact .inr ⟨by decide, zltCommand_storesProduced forwardUnit s⟩
  | zinv => cases h; exact .inr ⟨by decide, zltCommand_storesProduced inverseUnit s⟩

/-- Settles O41: a command leaves `BUF`, or stores what it produces and leaves the rest of it. -/
theorem bufWrittenOnlyInDestination : Obligations.BufWrittenOnlyInDestination := by
  intro i s t h
  rcases exec_buf h with ⟨hi, hbuf⟩ | ⟨hi, hstores⟩
  · exact ⟨fun _ => hbuf, fun hin => absurd hin hi⟩
  · exact ⟨fun hn => absurd hi hn, fun _ => hstores.frame⟩

end Sys2Proof.Machine
end

section
/-! Proofs of the statements of 30_encoding.md: `encode` and `decode` are inverse to each other, so the rows of the opcode
map are the words of the commands, and the illegal words are the words of no command. -/

namespace Sys2Proof

/-! ### Decoding the word of a command -/

/-- The fields of a word of format `C` (30_encoding.md R92). -/
@[simp] theorem argField_commandWord (opc : BitVec 8) (arg : Byte) : argField (commandWord opc arg) = arg := by
  have := arg.isLt
  rw [← BitVec.toNat_inj, argField_toNat, commandWord_toNat]
  omega

@[simp] theorem opcField_commandWord (opc : BitVec 8) (arg : Byte) : opcField (commandWord opc arg) = opc := by
  have := arg.isLt
  rw [← BitVec.toNat_inj, opcField_toNat, commandWord_toNat]
  omega

/-- A word whose `ZERO` is 0 is made of its `OPC` and its `ARG`. -/
theorem commandWord_of_zeroField {w : Word} (h : zeroField w = 0#16) : commandWord (opcField w) (argField w) = w := by
  rw [← BitVec.toNat_inj, zeroField_toNat, BitVec.toNat_ofNat] at h
  rw [← BitVec.toNat_inj, commandWord_toNat, opcField_toNat, argField_toNat]
  omega

/-- The decoder reads every command back from its word; ENCB's is the one word that depends on an operand. -/
theorem decode_encode (i : Instr) : decode (encode i) = some i := by
  cases i with
  | encb b =>
    have hnop : commandWord 0x01#8 b ≠ 0x00000000#32 := fun h =>
      absurd (congrArg opcField h) (by rw [opcField_commandWord]; decide)
    rw [encode, decode_eq_ite, if_neg hnop, argField_commandWord, if_pos rfl]
  | nop | encf | encblk | erst | decb | decblk | drst | zfwd | zinv => decide

/-- In every branch that answers, the test that was passed says that `w` is the word of the command. -/
theorem encode_of_decode {w : Word} {i : Instr} (h : decode w = some i) : encode i = w := by
  rw [decode_eq_ite] at h
  split_ifs at h <;> cases h <;> exact Eq.symm ‹w = _›

theorem decode_eq_some_iff {w : Word} {i : Instr} : decode w = some i ↔ w = encode i :=
  ⟨fun h => (encode_of_decode h).symm, fun h => h ▸ decode_encode i⟩

theorem decode_eq_none_iff {w : Word} : decode w = none ↔ ∀ i, encode i ≠ w := by
  rw [Option.eq_none_iff_forall_ne_some]
  exact forall_congr' fun _ => not_congr (decode_eq_some_iff.trans eq_comm)

/-- Settles O1: the operand's type makes every command well-formed, so both halves are about `decode` and `encode` alone. -/
theorem decodeEncodeRoundTrip : Obligations.DecodeEncodeRoundTrip :=
  ⟨fun i _ => decode_encode i, fun _ i h => ⟨by cases i <;> rfl, encode_of_decode h⟩⟩

/-! ### The rows of the opcode map -/

/-- A row whose mask is all ones is selected by the word of its command alone (30_encoding.md R94). -/
theorem decode_eq_some_iff_and_ones {w : Word} {i : Instr} : decode w = some i ↔ w &&& 0xFFFFFFFF#32 = encode i := by
  rw [decode_eq_some_iff, and_ones]

/-- ENCB's row leaves `ARG` free (30_encoding.md R94). -/
theorem decode_eq_encb_iff {w : Word} {b : Byte} :
    decode w = some (.encb b) ↔ w &&& 0xFFFFFF00#32 = 0x01000000#32 ∧ b = argField w := by
  rw [decode_eq_some_iff, and_encbMask_iff, encode]
  constructor
  · rintro rfl
    simp
  · rintro ⟨hw, rfl⟩
    exact hw

/-- Settles O2: ENCB's row by its mask, every other row as the word of its command. -/
theorem opcodeMapSelectsCommand : Obligations.OpcodeMapSelectsCommand := fun _ =>
  ⟨decode_eq_some_iff_and_ones, fun _ => decode_eq_encb_iff, decode_eq_some_iff_and_ones, decode_eq_some_iff_and_ones,
    decode_eq_some_iff_and_ones, decode_eq_some_iff_and_ones, decode_eq_some_iff_and_ones, decode_eq_some_iff_and_ones,
    decode_eq_some_iff_and_ones, decode_eq_some_iff_and_ones⟩

/-! ### Illegal words -/

/-- The column `OPC` of the opcode map (30_encoding.md R94). -/
def listedOpcodes : List (BitVec 8) := opTable.map fun r => opcField r.value

theorem listedOpcodes_eq : listedOpcodes =
    [0x00#8, 0x01#8, 0x02#8, 0x03#8, 0x04#8, 0x10#8, 0x11#8, 0x12#8, 0x20#8, 0x21#8] := by decide

/-- The unused fields of the word of a command are 0, for all commands. -/
theorem encode_unusedFields (i : Instr) : Laws.ZeroField.Statement i := by
  cases i with
  | nop => exact Laws.ZeroField.nop
  | encb b => exact Laws.ZeroField.encb b
  | encf => exact Laws.ZeroField.encf
  | encblk => exact Laws.ZeroField.encblk
  | erst => exact Laws.ZeroField.erst
  | decb => exact Laws.ZeroField.decb
  | decblk => exact Laws.ZeroField.decblk
  | drst => exact Laws.ZeroField.drst
  | zfwd => exact Laws.ZeroField.zfwd
  | zinv => exact Laws.ZeroField.zinv

theorem opcField_encode_encb (b : Byte) : opcField (encode (.encb b)) = 0x01#8 := opcField_commandWord _ b

theorem opcField_encode_mem (i : Instr) : opcField (encode i) ∈ listedOpcodes := by
  cases i with
  | encb b => rw [opcField_encode_encb]; decide
  | nop | encf | encblk | erst | decb | decblk | drst | zfwd | zinv => decide

/-- Every listed `OPC` with nothing in the other fields is the word of a command. -/
theorem exists_encode_eq_commandWord {opc : BitVec 8} (h : opc ∈ listedOpcodes) : ∃ i, encode i = commandWord opc 0#8 := by
  simp only [listedOpcodes_eq, List.mem_cons, List.not_mem_nil, or_false] at h
  rcases h with rfl | rfl | rfl | rfl | rfl | rfl | rfl | rfl | rfl | rfl
  exacts [⟨.nop, rfl⟩, ⟨.encb 0#8, rfl⟩, ⟨.encf, rfl⟩, ⟨.encblk, rfl⟩, ⟨.erst, rfl⟩, ⟨.decb, rfl⟩, ⟨.decblk, rfl⟩,
    ⟨.drst, rfl⟩, ⟨.zfwd, rfl⟩, ⟨.zinv, rfl⟩]

/-- The words of the commands by their fields: the converse of the three causes of 30_encoding.md R95. -/
theorem exists_encode_eq_iff {w : Word} : (∃ i, encode i = w) ↔
    opcField w ∈ listedOpcodes ∧ zeroField w = 0#16 ∧ (opcField w = 0x01#8 ∨ argField w = 0#8) := by
  constructor
  · rintro ⟨i, rfl⟩
    obtain ⟨hzero, harg⟩ := encode_unusedFields i
    refine ⟨opcField_encode_mem i, hzero, ?_⟩
    by_cases hencb : ∃ b, i = .encb b
    · obtain ⟨b, rfl⟩ := hencb
      exact .inl (opcField_encode_encb b)
    · exact .inr (harg (not_exists.1 hencb))
  · rintro ⟨hopc, hzero, hencb | harg⟩
    · exact ⟨.encb (argField w), by rw [encode, ← hencb, commandWord_of_zeroField hzero]⟩
    · obtain ⟨i, hi⟩ := exists_encode_eq_commandWord hopc
      exact ⟨i, by rw [hi, ← harg, commandWord_of_zeroField hzero]⟩

/-- The illegal words (30_encoding.md R95). -/
theorem decode_eq_none_iff_fields {w : Word} : decode w = none ↔
    opcField w ∉ listedOpcodes ∨ zeroField w ≠ 0#16 ∨ (opcField w ≠ 0x01#8 ∧ argField w ≠ 0#8) := by
  rw [decode_eq_none_iff, ← not_exists, exists_encode_eq_iff]
  tauto

/-- A write of an illegal word raises `IllegalCommand` (44_system.md R204, 60_exceptions.md R224). -/
theorem perform_illegal {w : Word} (hw : decode w = none) (s : Machine.State) :
    Machine.perform (.regWrite 0x04#8 w) s = .next (s.finish .illcmd) := by
  simp only [Machine.perform, Machine.regWriteOp, Machine.dispatch, hw, if_true]

/-- Settles O3: the illegal words by their fields, and `IllegalCommand` writes the status code 8 alone. -/
theorem illegalWordOnlySetsStatus : Obligations.IllegalWordOnlySetsStatus := by
  intro w
  exact ⟨listedOpcodes_eq ▸ decode_eq_none_iff_fields, perform_illegal⟩

/-! ### Sample words -/

/-- Settles O4: the legal words are the words of their commands, the illegal ones have the named cause of R95. -/
theorem sampleWordsDecode : Obligations.SampleWordsDecode := by
  refine ⟨decode_encode .nop, decode_encode (.encb 0xFF#8), decode_encode (.encb 0x61#8), decode_encode .encf,
    decode_encode .encblk, decode_encode .erst, decode_encode .decb, decode_encode .decblk, decode_encode .drst,
    decode_encode .zfwd, decode_encode .zinv, ?unlisted, ?unlisted', ?zero, ?arg, ?arg', ?arg''⟩ <;>
    rw [decode_eq_none_iff_fields]
  case unlisted | unlisted' => exact .inl (by decide)
  case zero => exact .inr (.inl (by decide))
  case arg | arg' | arg'' => exact .inr (.inr (by decide))

end Sys2Proof
end

section
/-! Proofs of the statements of 40_frequency_model.md: what `locate` finds and how the two-level search of the counter files
finds it, and what a successful ENCB does to the frequencies. -/

namespace Sys2Proof.Machine

/-! ### The symbol `locate` finds -/

namespace FreqModel

theorem Inv.F_locate_le {m : FreqModel} (h : m.Inv) (t : Nat) : m.F (m.locate t) ≤ t :=
  m.F_locateFrom_le t Config.term (h.F_zero.trans_le (Nat.zero_le t))

theorem le_locate (m : FreqModel) {t x : Nat} (hx : x ≤ 256) (ht : m.F x ≤ t) : x ≤ m.locate t :=
  Nat.le_of_not_lt fun hlt => Nat.not_lt_of_le ht (m.lt_F_of_locateFrom_lt t Config.term x hx hlt)

/-- The terminal symbol's sub-interval starts at `total - 1` and has no end (40_frequency_model.md R124). -/
theorem Inv.locate_eq_term_iff {m : FreqModel} (h : m.Inv) {t : Nat} : m.locate t = 256 ↔ m.total - 1 ≤ t where
  mp heq := by
    have hF := h.F_locate_le t
    have hterm := h.F_term
    rw [heq] at hF
    omega
  mpr := h.locate_term

end FreqModel

/-- Settles O36: the scan from the top stops at the largest such symbol, and `F(256) = total - 1`. -/
theorem locateFindsLargestSymbol : Obligations.LocateFindsLargestSymbol := by
  intro m h t
  exact ⟨m.locate_le t, h.F_locate_le t, fun _ => m.le_locate, h.locate_eq_term_iff⟩

/-! ### The two-level search -/

namespace FreqModel

theorem F_eq_of_mem_block (m : FreqModel) {blk x : Nat} (hlo : 16 * blk ≤ x) (hhi : x ≤ 16 * blk + 15) :
    m.F x = counterAt m.baseFreq blk + counterAt m.deltaFreq x := by
  rw [FreqModel.F, show x / 16 = blk by omega]

/-- `baseFreq` holds `F` at the first symbol of each block (10_state.md R33). -/
theorem Inv.F_blockStart {m : FreqModel} (h : m.Inv) {blk : Nat} (hblk : blk ≤ 16) :
    m.F (16 * blk) = counterAt m.baseFreq blk := by
  rw [m.F_eq_of_mem_block (Nat.le_refl _) (by omega), h.blockStart blk hblk, Nat.add_zero]

end FreqModel

/-- Settles O37: `F` of the symbol found is at most `t`, and `F` of the symbol after it exceeds `t`: inside the block because
the search of `deltaFreq` passed it over, at the next block's start because the search of `baseFreq` did. -/
theorem twoLevelSearchAgrees : Obligations.TwoLevelSearchAgrees := by
  intro m h t blk x hblk hbase hblkMax hlo hhi hdelta hxMax
  have hFx := m.F_eq_of_mem_block hlo (by omega)
  refine h.locate_eq (by omega) (by omega) fun hx => ?_
  rcases Nat.lt_or_ge x (16 * blk + 15) with hinside | hlast
  · have hFnext := m.F_eq_of_mem_block (x := x + 1) (blk := blk) (by omega) (by omega)
    have hpassed : ¬ counterAt m.deltaFreq (x + 1) ≤ t - counterAt m.baseFreq blk := fun hle =>
      absurd (hxMax (x + 1) (by omega) (by omega) hle) (by omega)
    omega
  · have hFnext := h.F_blockStart (blk := blk + 1) (by omega)
    have hpassed : ¬ counterAt m.baseFreq (blk + 1) ≤ t := fun hle =>
      absurd (hblkMax (blk + 1) (by omega) hle) (by omega)
    rw [show x + 1 = 16 * (blk + 1) by omega]
    omega

/-! ### The frequencies after a successful ENCB -/

/-- Every fault's status code differs from success's (60_exceptions.md R215). -/
theorem State.finish_status_eq_zero_iff {s : State} {c : StatusCode} : (s.finish c).regs.status = 0#32 ↔ c = .ok := by
  rw [State.finish_status]
  cases c <;> decide

/-- ENCB ends with status 0 only by coding its byte (41_range_encoder.md R148). -/
theorem execEncb_encodes_of_status_zero {b : Byte} {s t : State} (hs : s.enc.Inv) (h : execEncb b s = .next t)
    (hstatus : t.regs.status = 0#32) : ∃ out, EncodesByte s.enc b out t.enc := by
  rcases encodeByte_cases hs b with ⟨_, hr⟩ | ⟨_, _, hr⟩ | ⟨out, e, he, hr⟩ <;> rw [execEncb, hr] at h <;> cases h
  · exact absurd (State.finish_status_eq_zero_iff.1 hstatus) (by decide)
  · exact absurd (State.finish_status_eq_zero_iff.1 hstatus) (by decide)
  · exact ⟨out, he⟩

/-- Coding a byte raises `F` strictly above the byte (40_frequency_model.md R127, R128). -/
theorem EncodesByte.F_eq {e e' : Encoder} {b : Byte} {out : List Byte} (he : EncodesByte e b out e') (h : e.Inv) {j : Nat}
    (hj : j ≤ 257) : e'.freq.F j = e.freq.F j + if b.toNat < j then 1 else 0 := by
  obtain ⟨_, hlt, _, _, _, rfl⟩ := he
  exact h.freq.F_update hlt hj

/-- Settles O15: `F` after ENCB gives the total at symbol 257 and a symbol's frequency as a difference. -/
theorem encbAdaptsModel : Obligations.EncbAdaptsModel := by
  intro s t b hs ht hstatus
  obtain ⟨out, he⟩ := execEncb_encodes_of_status_zero hs ht hstatus
  refine ⟨fun j => he.F_eq hs, (he.inv hs).2.2.2, fun x hx => ?_⟩
  have hincr := hs.freq.increasing x hx
  rw [he.F_eq hs (by omega), he.F_eq hs (by omega)]
  split_ifs <;> omega

end Sys2Proof.Machine
end

section
/-! Proofs of the statements of 41_range_encoder.md: what the encoder's commands do from a state that meets the encoder's
invariant, what a forced narrowing cuts, what the unit resets restore, and that no step of the block stops. -/

namespace Sys2Proof.Machine

/-! ### The commands by the outcome of their unit's step

Each command's answer, once the unit's own function is known. -/

theorem execEncb_of_encodes {s : State} {b : Byte} {out : List Byte} {e : Encoder} (he : EncodesByte s.enc b out e)
    (h : s.enc.Inv) :
    execEncb b s = .next (State.finish { s with enc := e, outStream := outBytes s.outStream out } .ok) := by
  rw [execEncb, encodeByte_of_encodes he h]

theorem execEncb_of_raises {s : State} {b : Byte} {c : StatusCode} (hb : encodeByte b s.enc = .raised c) :
    execEncb b s = .next (s.finish c) := by
  rw [execEncb, hb]

theorem execEncf_drains {s : State} (hw : s.enc.written = true) (hf : s.enc.flushed = false) :
    execEncf s = .next (State.finish { s with
      enc := { s.enc with flushed := true, low := 0#56 }
      outStream := outFlush (outBytes s.outStream (drainBytes 7 s.enc.low)) } .ok) := by
  rw [execEncf, hw, hf]
  rfl

theorem execEncf_idle {s : State} (h : s.enc.written = false ∨ s.enc.flushed = true) :
    execEncf s = .next (s.finish .ok) := by
  rw [execEncf, if_neg]
  rcases h with h | h <;> simp [h]

theorem execEncblk_of_run {s : State} {n k : Nat} {e : Encoder} {out : List Byte} {c : StatusCode} (hn : SourceRegion s n)
    (hr : encodeRun (s.bufSlice s.regs.srcBase.toNat n) s.enc = ⟨e, out, k, .ok c⟩) :
    execEncblk s = .next (State.finish (State.setCounts { s with enc := e, outStream := outBytes s.outStream out }
      (countWord k) (countWord out.length)) c) := by
  simp only [execEncblk, sourceCount_of_region hn, hr]

theorem execEncblk_refuses {s : State} (h : s.sourceCount = none) : execEncblk s = .next s.refuseArgs := by
  rw [execEncblk, h]

theorem execDecb_latched {s : State} (he : s.dec.err = true) : execDecb s = .next (s.setCode s.dec.errcode) := by
  rw [execDecb, if_pos he]

theorem execDecb_of_decodes {s : State} {b : Byte} {d : Decoder} {pos : Nat} (h : s.dec.Inv)
    (hp : s.inPos ≤ s.params.inStream.length) (he : s.dec.err = false)
    (hd : DecodesByte s.params.inStream s.dec s.inPos b d pos) :
    execDecb s = .next (State.finish
      { s with dec := d, inPos := pos, regs := { s.regs with result := b.zeroExtend 32 } } .ok) := by
  rw [execDecb, he, if_neg Bool.false_ne_true, decodeSymbol_of_decodes hd h hp]

theorem execDecb_of_faults {s : State} {c : StatusCode} {pos : Nat} (h : s.dec.Inv)
    (hp : s.inPos ≤ s.params.inStream.length) (he : s.dec.err = false)
    (hd : DecodeFaults s.params.inStream s.dec s.inPos c pos) :
    execDecb s = .next (State.finish { s with dec := s.dec.latch c, inPos := pos } c) := by
  rw [execDecb, he, if_neg Bool.false_ne_true, decodeSymbol_of_faults hd h hp]

theorem execDecblk_latched {s : State} (he : s.dec.err = true) :
    execDecblk s = .next ((s.setCounts 0 0).setCode s.dec.errcode) := by
  rw [execDecblk, if_pos he]

theorem execDecblk_refuses {s : State} (he : s.dec.err = false) (hdst : ¬ DestRegion s) :
    execDecblk s = .next s.refuseArgs := by
  rw [execDecblk, he, if_neg Bool.false_ne_true, if_neg (mt (destFits_iff s).1 hdst)]

theorem execDecblk_of_run {s : State} {d : Decoder} {pos : Nat} {bs : List Byte} {c : StatusCode}
    (he : s.dec.err = false) (hdst : DestRegion s)
    (hr : decodeRun s.params.inStream s.regs.dstLen.toNat s.dec s.inPos = ⟨d, pos, bs, .ok c⟩) :
    execDecblk s = .next (State.finish (State.setCounts
      { s with dec := d, inPos := pos, buf := s.buf.writeList s.regs.dstBase.toNat bs }
      (BitVec.ofNat 32 (pos - s.inPos)) (BitVec.ofNat 32 bs.length)) c) := by
  rw [execDecblk, he, if_neg Bool.false_ne_true, if_pos ((destFits_iff s).2 hdst)]
  simp only [hr]

/-! ### Every step completes -/

/-- A run of decode steps between commands ends with a status code (42_range_decoder.md R166). -/
theorem decodeRun_completes (stream : List Byte) (n : Nat) {d : Decoder} {pos : Nat} (h : d.Inv)
    (hp : pos ≤ stream.length) : ∃ d' pos' bs c, decodeRun stream n d pos = ⟨d', pos', bs, .ok c⟩ := by
  rcases decodeAll_or_faults n h hp with ⟨bs, _, _, rfl, hall⟩ | ⟨bs, _, _, _, _, hlt, hall, hf⟩
  · exact ⟨_, _, _, _, (decodeRun_of_decodes hall h hp).1⟩
  · obtain ⟨k, rfl⟩ : ∃ k, n = bs.length + (k + 1) := ⟨n - bs.length - 1, by omega⟩
    exact ⟨_, _, _, _, decodeRun_of_faults hall hf h hp k⟩

theorem execEncb_completes {s : State} (h : s.enc.Inv) (b : Byte) : ∃ t, execEncb b s = .next t := by
  rcases encodeByte_cases h b with ⟨_, hr⟩ | ⟨_, _, hr⟩ | ⟨_, _, he, _⟩
  · exact ⟨_, execEncb_of_raises hr⟩
  · exact ⟨_, execEncb_of_raises hr⟩
  · exact ⟨_, execEncb_of_encodes he h⟩

theorem execEncf_completes (s : State) : ∃ t, execEncf s = .next t := by
  cases hw : s.enc.written with
  | false => exact ⟨_, execEncf_idle (.inl hw)⟩
  | true =>
    cases hf : s.enc.flushed with
    | false => exact ⟨_, execEncf_drains hw hf⟩
    | true => exact ⟨_, execEncf_idle (.inr hf)⟩

theorem execEncblk_completes {s : State} (h : s.enc.Inv) : ∃ t, execEncblk s = .next t := by
  cases hn : s.sourceCount with
  | none => exact ⟨_, execEncblk_refuses hn⟩
  | some n =>
    obtain ⟨_, _, _, _, hr, _⟩ := encodeRun_spec (s.bufSlice s.regs.srcBase.toNat n) h
    exact ⟨_, execEncblk_of_run (region_of_sourceCount hn) hr⟩

theorem execDecb_completes {s : State} (h : s.dec.Inv) (hp : s.inPos ≤ s.params.inStream.length) :
    ∃ t, execDecb s = .next t := by
  cases he : s.dec.err with
  | true => exact ⟨_, execDecb_latched he⟩
  | false =>
    rcases decodes_or_faults h hp with ⟨_, _, _, hd⟩ | ⟨_, _, hd⟩
    · exact ⟨_, execDecb_of_decodes h hp he hd⟩
    · exact ⟨_, execDecb_of_faults h hp he hd⟩

theorem execDecblk_completes {s : State} (h : s.dec.Inv) (hp : s.inPos ≤ s.params.inStream.length) :
    ∃ t, execDecblk s = .next t := by
  cases he : s.dec.err with
  | true => exact ⟨_, execDecblk_latched he⟩
  | false =>
    by_cases hdst : DestRegion s
    · obtain ⟨_, _, _, _, hr⟩ := decodeRun_completes s.params.inStream s.regs.dstLen.toNat h hp
      exact ⟨_, execDecblk_of_run he hdst hr⟩
    · exact ⟨_, execDecblk_refuses he hdst⟩

/-- No command divides by zero or renormalises for ever, and none is refused (41_range_encoder.md R143, R146). -/
theorem exec_completes {s : State} (h : s.Inv) (i : Instr) : ∃ t, exec i s = .next t := by
  cases i with
  | encb b => exact execEncb_completes h.enc b
  | encf => exact execEncf_completes s
  | encblk => exact execEncblk_completes h.enc
  | decb => exact execDecb_completes h.dec h.cursor
  | decblk => exact execDecblk_completes h.dec h.cursor
  | nop | erst | drst | zfwd | zinv => exact ⟨_, rfl⟩

/-- An operation the host can form completes (30_encoding.md R90). -/
theorem perform_completes {s : State} (h : s.Inv) {op : HostOp} (hop : op.wellFormed s.params = true) :
    ∃ t, perform op s = .next t := by
  cases op with
  | regRead off => exact ⟨_, rfl⟩
  | regWrite off v =>
    by_cases hoff : off = 0x04#8
    · subst hoff
      cases hv : decode v with
      | none => exact ⟨_, perform_illegal hv s⟩
      | some i => exact perform_command hv s ▸ exec_completes h i
    · exact ⟨_, if_neg hoff⟩
  | bufRead addr => exact ⟨_, if_pos (of_decide_eq_true hop)⟩
  | bufWrite addr b => exact ⟨_, if_pos (of_decide_eq_true hop)⟩
  | reset => exact ⟨_, rfl⟩

/-- Settles O46: a step waits, or performs an operation the host can form. -/
theorem stepAlwaysCompletes : Obligations.StepAlwaysCompletes := by
  intro s h hwf
  cases hops : s.hostOps with
  | nil => exact ⟨s, step_of_nonePending hops⟩
  | cons op rest =>
    rw [step_of_pending hops]
    exact perform_completes (h.setOps rest) (hwf op (by rw [hops]; rfl))

/-! ### ENCB -/

/-- Settles O14: between the two faults the byte can be coded, and ENCB answers what the spec's relation says. -/
theorem encbCodesByte : Obligations.EncbCodesByte := by
  intro s b h hf ht
  obtain ⟨out, e, he⟩ := EncodesByte.exists h b hf ht
  obtain ⟨hlen, hinv, _⟩ := he.inv h
  exact ⟨out, e, he, hlen, hinv, execEncb_of_encodes he h⟩

/-! ### ENCF -/

/-- The top byte after a shift is the byte that was `k` bits lower (00_scope.md R7). -/
theorem topByte_shiftLeft (r : CoderReg) {k : Nat} (hk : k ≤ 48) : topByte (r <<< k) = r.extractLsb' (48 - k) 8 := by
  ext i hi
  have hin : ¬ 48 + i < k := by omega
  have hpos : 48 + i - k = 48 - k + i := by omega
  have hbit : 48 + i < 56 := by omega
  have hbit' : 48 - k + i < 56 := by omega
  simp [topByte, hin, hpos, hbit, BitVec.getLsbD_eq_getElem hbit']

/-- The drained bytes of a register, top byte first (41_range_encoder.md R149). -/
theorem drainBytes_seven (r : CoderReg) : drainBytes 7 r = [r.extractLsb' 48 8, r.extractLsb' 40 8, r.extractLsb' 32 8,
    r.extractLsb' 24 8, r.extractLsb' 16 8, r.extractLsb' 8 8, r.extractLsb' 0 8] := by
  simp only [drainBytes, ← BitVec.shiftLeft_add, topByte_shiftLeft, Nat.reduceAdd, Nat.reduceLeDiff, Nat.reduceSub]
  rfl

/-- Settles O18: ENCF's one test, and the seven bytes written out. -/
theorem encfDrainsLowOnce : Obligations.EncfDrainsLowOnce := by
  refine fun s => ⟨fun hw hf => (execEncf_drains hw hf).trans ?_, execEncf_idle⟩
  rw [drainBytes_seven, outBytes, outFlush, List.append_assoc]
  rfl

/-! ### ENCBLK -/

/-- Bytes the model has room for can all be coded; no byte needs no unflushed encoder (41_range_encoder.md R150, R225). -/
theorem encodesAll_exists_of_room {e : Encoder} {bs : List Byte} (h : e.Inv) (hf : e.flushed = false ∨ bs = [])
    (hroom : e.freq.total + bs.length ≤ 2 ^ 40) : ∃ out e', EncodesAll e bs out e' := by
  rcases hf with hf | rfl
  · exact EncodesAll.exists bs h hf hroom
  · exact ⟨[], e, .nil⟩

/-- Settles O19: the bytes can all be coded, so the run of encode steps codes them all and ends with status 0. -/
theorem encblkEncodesRegion : Obligations.EncblkEncodesRegion := by
  intro s n h hn hf hroom
  obtain ⟨out, e, he⟩ := encodesAll_exists_of_room (bs := s.bufSlice s.regs.srcBase.toNat n) h
    (hf.imp_right fun h0 => by rw [h0]; rfl) (by rwa [State.bufSlice_length])
  obtain ⟨hr, hinv⟩ := encodeRun_of_encodes he h
  rw [State.bufSlice_length] at hr
  refine ⟨out, e, countWord out.length, he, hinv, countWord_of_lt, ?_⟩
  rw [← countWord_of_lt hn.lt]
  exact execEncblk_of_run hn hr

/-- A run of encode steps over more bytes than the model has room for (41_range_encoder.md R150, R251). -/
theorem encodeRun_stops_full {e : Encoder} {bs : List Byte} (h : e.Inv) (hf : e.flushed = false)
    (hroom : 2 ^ 40 < e.freq.total + bs.length) : ∃ out e', EncodesAll e (bs.take (2 ^ 40 - e.freq.total)) out e' ∧
      encodeRun bs e = ⟨e', out, 2 ^ 40 - e.freq.total, .ok .freq⟩ := by
  have hbound := h.freq.bounded
  generalize hk : 2 ^ 40 - e.freq.total = k
  have hlen : (bs.take k).length = k := List.length_take_of_le (by omega)
  obtain ⟨out, e', he⟩ := EncodesAll.exists (bs.take k) h hf (by omega)
  obtain ⟨htotal, hflushed⟩ := he.total h
  have hsplit : bs = bs.take k ++ bs[k] :: bs.drop (k + 1) := by
    rw [← List.drop_eq_getElem_cons, List.take_append_drop]
  refine ⟨out, e', he, ?_⟩
  have hrun := encodeRun_full he h (by omega) (hflushed hf) bs[k] (bs.drop (k + 1))
  rwa [← hsplit, hlen] at hrun

/-- Settles O20: the run of encode steps stops at the byte the model has no room for. -/
theorem encblkStopsAtFrequencyBound : Obligations.EncblkStopsAtFrequencyBound := by
  intro s n h hn hf hroom
  obtain ⟨out, e, he, hr⟩ := encodeRun_stops_full (bs := s.bufSlice s.regs.srcBase.toNat n) h hf
    (by rwa [State.bufSlice_length])
  have hlt : 2 ^ 40 - s.enc.freq.total < 2 ^ 32 := by
    have := hn.lt
    omega
  refine ⟨out, e, countWord out.length, he, countWord_of_lt, ?_⟩
  rw [← countWord_of_lt hlt]
  exact execEncblk_of_run hn hr

/-! ### The forced narrowing -/

theorem renormRange_forced {iv : Interval} (h : settled iv = false) :
    (renormRange iv).toNat = (2 ^ 40 - iv.low.toNat % 2 ^ 40) % 2 ^ 40 := by
  rw [renormRange, h, if_neg Bool.false_ne_true, forcedRange_toNat]

/-- Settles O38: a forced iteration leaves an interval that ends at `2^56`, so before its shift it ended at a multiple of
`2^48`. -/
theorem forcedRangeEndsAtBoundary : Obligations.ForcedRangeEndsAtBoundary := by
  intro iv hpos hfits hedge hs hr
  have hnot : ¬ Settled iv.low.toNat iv.range.toNat := by rw [← settled_iff, hs]; exact Bool.false_ne_true
  obtain ⟨hge, hle, hend, hshift, _⟩ := LoopInterval.caseB ⟨hpos, hfits, hedge⟩ hnot hr
  rw [renormRange_forced hs]
  generalize (2 ^ 40 - iv.low.toNat % 2 ^ 40) % 2 ^ 40 = f at *
  exact ⟨iv.low.toNat + f, by omega, by omega, by omega, by omega, hge, hle⟩

/-! ### The unit resets -/

/-- Settles O21: each unit's reset value, and its counters by their formulas. -/
theorem unitResetsRestoreUnit : Obligations.UnitResetsRestoreUnit := fun _ =>
  ⟨⟨Encoder.initial, rfl, rfl, rfl, rfl, rfl, fun _ => FreqModel.initial_deltaFreq, fun _ => FreqModel.initial_baseFreq⟩,
    Decoder.initial, rfl, rfl, rfl, rfl, rfl, rfl, rfl, fun _ => FreqModel.initial_deltaFreq,
    fun _ => FreqModel.initial_baseFreq⟩

end Sys2Proof.Machine
end

section
/-! Proofs of the statements of 42_range_decoder.md: what DECB and DECBLK answer where the spec's relations find bytes or
raise a fault, that the decoder moves as the encoder does, and the round trip. -/

namespace Sys2Proof.Machine

/-! ### DECB -/

/-- Settles O22: DECB's answer once the decode step is known. -/
theorem decbDeliversByte : Obligations.DecbDeliversByte :=
  fun _ _ _ _ h hp he hd => execDecb_of_decodes h hp he hd

theorem DecodeFaults.code_mem {stream : List Byte} {d : Decoder} {pos pos' : Nat} {c : StatusCode}
    (hd : DecodeFaults stream d pos c pos') : c ∈ [.eos, .corrupt, .io, .freq] := by
  cases hd <;> decide

/-- Settles O23: DECB's answer once the decode step has raised its fault. -/
theorem decbFaultLatches : Obligations.DecbFaultLatches :=
  fun _ _ _ h hp he hd => ⟨hd.code_mem, execDecb_of_faults h hp he hd⟩

/-! ### DECBLK -/

/-- Settles O25: the run of decode steps finds exactly the bytes asked for. -/
theorem decblkFillsRegion : Obligations.DecblkFillsRegion := by
  intro s bs d pos h hp he hdst hlen hd
  have hr := (decodeRun_of_decodes hd h hp).1
  rw [hlen] at hr
  refine ⟨_, s.buf.stored_writeList _ bs, (execDecblk_of_run he hdst hr).trans ?_⟩
  rw [hlen, BitVec.ofNat_toNat, BitVec.setWidth_eq]
  rfl

/-- Settles O26: the run of decode steps stops at the fault, with bytes still to decode. -/
theorem decblkKeepsPartialProgress : Obligations.DecblkKeepsPartialProgress := by
  intro s bs d pos pos' c h hp he hdst hlt hd hf
  obtain ⟨k, hk⟩ := Nat.exists_eq_add_of_lt hlt
  have hr := decodeRun_of_faults hd hf h hp k
  rw [← Nat.add_assoc, ← hk] at hr
  exact ⟨_, s.buf.stored_writeList _ bs, execDecblk_of_run he hdst hr⟩

/-! ### The decoder mirrors the encoder -/

/-- DECB with no latch set ends with status 0 only by finding a byte (42_range_decoder.md R165). -/
theorem execDecb_decodes_of_status_zero {s t : State} (h : s.dec.Inv) (hp : s.inPos ≤ s.params.inStream.length)
    (he : s.dec.err = false) (ht : execDecb s = .next t) (hstatus : t.regs.status = 0#32) :
    ∃ b : Byte, t.regs.result = b.zeroExtend 32 ∧ DecodesByte s.params.inStream s.dec s.inPos b t.dec t.inPos := by
  rcases decodes_or_faults h hp with ⟨b, d, pos, hd⟩ | ⟨c, pos, hd⟩
  · cases ht.symm.trans (execDecb_of_decodes h hp he hd)
    exact ⟨b, rfl, hd⟩
  · cases ht.symm.trans (execDecb_of_faults h hp he hd)
    obtain rfl := State.finish_status_eq_zero_iff.1 hstatus
    exact absurd hd.code_mem (by decide)

/-- The output of an ENCB that codes its byte (41_range_encoder.md R148). -/
theorem execEncb_outStream {s t : State} {b : Byte} {out : List Byte} {e : Encoder} (he : EncodesByte s.enc b out e)
    (h : s.enc.Inv) (ht : execEncb b s = .next t) : t.outStream = outBytes s.outStream out := by
  cases ht.symm.trans (execEncb_of_encodes he h)
  rfl

/-- The cursor after `InitCode` (42_range_decoder.md R161). -/
theorem PrefixLoaded.pos_eq {stream : List Byte} {d : Decoder} {pos code pos₁ : Nat}
    (h : PrefixLoaded stream d pos code pos₁) : pos₁ = pos + if d.initialized then 0 else 7 := by
  unfold PrefixLoaded at h
  split_ifs at h ⊢
  · exact h.2
  · exact h.2.2

/-- From equal intervals and models, finding a byte and coding it are one narrowing, one renormalisation and one update, with
an input byte for each output byte (42_range_decoder.md R163). -/
theorem DecodesByte.mirrors {stream out : List Byte} {d d' : Decoder} {e e' : Encoder} {pos pos' : Nat} {b : Byte}
    (hd : DecodesByte stream d pos b d' pos') (he : EncodesByte e b out e') (hlow : e.low = d.low)
    (hrange : e.range = d.range) (hfreq : e.freq = d.freq) :
    e'.low = d'.low ∧ e'.range = d'.range ∧ e'.freq = d'.freq ∧
      pos' = pos + (if d.initialized then 0 else 7) + out.length := by
  obtain ⟨_, _, _, _, hcode, rfl⟩ := he
  obtain ⟨_, _, pos₁, hprefix, _, _, _, _, _, hcode', _, rfl, rfl⟩ := hd
  rw [hlow, hrange, hfreq] at hcode
  obtain ⟨rfl, hl, hr⟩ := hcode.unique hcode'
  exact ⟨BitVec.eq_of_toNat_eq hl, BitVec.eq_of_toNat_eq hr, by rw [hfreq], by rw [hprefix.pos_eq]⟩

/-- The byte DECB delivers reads back from `RESULT` (10_state.md R44). -/
theorem extractLsb'_zeroExtend_byte (b : Byte) : (b.zeroExtend 32).extractLsb' 0 8 = b := by
  apply BitVec.eq_of_toNat_eq
  have hlt := b.isLt
  simp only [BitVec.extractLsb'_toNat, BitVec.toNat_setWidth]
  omega

/-- Settles O27: both commands end with status 0 only by the relations that mirror each other. -/
theorem decoderMirrorsEncoder : Obligations.DecoderMirrorsEncoder := by
  intro s t u h hlow hrange hfreq herr ht htok hu huok
  obtain ⟨b, hb, hd⟩ := execDecb_decodes_of_status_zero h.dec h.cursor herr ht htok
  rw [hb, extractLsb'_zeroExtend_byte] at hu
  obtain ⟨out, he⟩ := execEncb_encodes_of_status_zero h.enc hu huok
  have hlen : u.outStream.length - s.outStream.length = out.length := by
    simp [execEncb_outStream he h.enc hu, outBytes]
  rw [hlen]
  exact hd.mirrors he hlow hrange hfreq

/-! ### The round trip -/

/-- ENCBLK ends with status 0 only by coding its whole region (41_range_encoder.md R150). -/
theorem execEncblk_encodes_of_status_zero {s t : State} {n : Nat} (h : s.enc.Inv) (hn : SourceRegion s n)
    (ht : execEncblk s = .next t) (hstatus : t.regs.status = 0#32) :
    ∃ out, EncodesAll s.enc (s.bufSlice s.regs.srcBase.toNat n) out t.enc ∧ t.outStream = outBytes s.outStream out := by
  obtain ⟨k, out, e, c, hr, -⟩ := encodeRun_spec (s.bufSlice s.regs.srcBase.toNat n) h
  cases ht.symm.trans (execEncblk_of_run hn hr)
  obtain rfl := State.finish_status_eq_zero_iff.1 hstatus
  exact ⟨out, (encodeRun_ok h hr).1, rfl⟩

/-- What a flush after a region adds to the output: the region's bytes, the drained register and the flush event
(41_range_encoder.md R149). -/
theorem execEncf_outStream {s t : State} (hw : s.enc.written = true) (hf : s.enc.flushed = false)
    (ht : execEncf s = .next t) : t.outStream = outFlush (outBytes s.outStream (drainBytes 7 s.enc.low)) := by
  cases ht.symm.trans (execEncf_drains hw hf)
  rfl

/-- The bytes of an output stream are determined by its events. -/
theorem bytes_eq_of_events_eq {events : List OutEvent} {xs ys : List Byte}
    (h : outFlush (outBytes events xs) = events ++ ys.map .byte ++ [.flush]) : xs = ys := by
  rw [outFlush, outBytes] at h
  have hinj : Function.Injective OutEvent.byte := fun _ _ => OutEvent.byte.inj
  exact hinj.list_map (List.append_cancel_left (List.append_cancel_right h))

theorem outBytes_append (events : List OutEvent) (xs ys : List Byte) :
    outBytes (outBytes events xs) ys = outBytes events (xs ++ ys) := by
  simp [outBytes]

/-- A fresh decoder whose input holds the flushed stream of a fresh encoder finds the encoded bytes and takes the whole
stream (42_range_decoder.md R164). -/
theorem decodesAll_flushed_stream {e : Encoder} {bs out : List Byte} (he : EncodesAll Encoder.initial bs out e)
    (hbs : bs ≠ []) (before after : List Byte) :
    ∃ d, DecodesAll (before ++ (out ++ drainBytes 7 e.low) ++ after) Decoder.initial before.length bs d
      (before.length + (out ++ drainBytes 7 e.low).length) := by
  have hlen : (out ++ drainBytes 7 e.low).length = out.length + 7 := by rw [List.length_append, drainBytes_length]
  generalize hstream : before ++ (out ++ drainBytes 7 e.low) ++ after = stream
  have hdrop : stream.drop before.length = out ++ drainBytes 7 e.low ++ after := by
    rw [← hstream, List.append_assoc, List.drop_left]
  have hfit : before.length + 7 ≤ stream.length := by
    rw [← hstream, List.length_append, List.length_append, hlen]
    omega
  obtain ⟨d, pos, hd, hpos⟩ := decodes_of_encodes he Encoder.initial_inv stream after before.length before.length
    Decoder.initial hdrop rfl rfl rfl (by omega) ⟨hfit, rfl, rfl⟩
  obtain rfl := hpos hbs
  exact ⟨d, by rwa [hlen, Nat.add_comm out.length, ← Nat.add_assoc]⟩

/-- Settles O28: the region and the flush append one coded stream, which a fresh decoder reads back. -/
theorem rangeCoderRoundTrip : Obligations.RangeCoderRoundTrip := by
  intro s s₁ s₂ u n code before after henc hn hpos hblk hok hflush hout hdec hin hcursor hdst hlen
  have hinv : s.enc.Inv := henc ▸ Encoder.initial_inv
  obtain ⟨out, he, hout₁⟩ := execEncblk_encodes_of_status_zero hinv hn hblk hok
  have hbs : s.bufSlice s.regs.srcBase.toNat n ≠ [] := List.ne_nil_of_length_pos (by rwa [State.bufSlice_length])
  obtain ⟨hw, hf⟩ := he.written hbs
  obtain rfl : out ++ drainBytes 7 s₁.enc.low = code := by
    rw [execEncf_outStream hw hf hflush, hout₁, outBytes_append] at hout
    exact bytes_eq_of_events_eq hout
  rw [henc] at he
  obtain ⟨d, hd⟩ := decodesAll_flushed_stream he hbs before after
  rw [← hin, ← hcursor] at hd
  obtain ⟨m, hm, hrun⟩ := decblkFillsRegion u (s.bufSlice s.regs.srcBase.toNat n) d _ (hdec ▸ Decoder.initial_inv)
    (by simp [hin, hcursor]) (by rw [hdec]; rfl) hdst (by rw [State.bufSlice_length, hlen]) (by rw [hdec]; exact hd)
  rw [Nat.add_sub_cancel_left, hcursor] at hrun
  have hcount : u.regs.dstLen = BitVec.ofNat 32 n := by rw [← hlen, BitVec.ofNat_toNat, BitVec.setWidth_eq]
  exact ⟨m, d, hm, hcount ▸ hrun⟩

end Sys2Proof.Machine
end

section
/-! Proofs of the statements of 43_zlt.md: what ZFWD and ZINV answer where the spec's units can be placed or not, the round
trip, and what the two commands depend on. -/

namespace Sys2Proof.Machine

/-! ### The command by the outcome of its loop -/

/-- On usable regions the command stores what the loop produced and counts it (43_zlt.md R182). -/
theorem zltCommand_of_run {unit : List Byte → Option ZltUnit} {s : State} {n taken : Nat} {out : List Byte} {placed : Bool}
    (hsrc : SourceRegion s n) (hdst : DestRegion s) (hover : ¬ Overlap s)
    (hrun : zltRun unit n (s.bufSlice s.regs.srcBase.toNat n) s.regs.dstLen.toNat = ⟨taken, out, placed⟩) :
    ∃ m : Memory, Stored s.buf m s.regs.dstBase.toNat out ∧ zltCommand unit s = { s with
      buf := m
      regs := { s.regs with
        status := if placed then 0#32 else 4#32
        consumed := BitVec.ofNat 32 taken
        produced := BitVec.ofNat 32 out.length } } := by
  refine ⟨_, s.buf.stored_writeList s.regs.dstBase.toNat out, ?_⟩
  rw [zltCommand, (zltCount_eq_some_iff s n).2 ⟨hsrc, hdst, hover⟩]
  simp only [hrun]
  cases placed <;> rfl

section
variable {unit : List Byte → Option ZltUnit} {rel : List Byte → Nat → List Byte → Prop} {s : State} {n taken : Nat}
  {out : List Byte}

/-- Units that make up the whole source and fit are all placed (43_zlt.md R186, R190). -/
theorem zltCommand_of_units (ha : UnitAgrees unit rel) (hsrc : SourceRegion s n) (hdst : DestRegion s) (hover : ¬ Overlap s)
    (hunits : Units rel (s.bufSlice s.regs.srcBase.toNat n) n out) (hlen : out.length ≤ s.regs.dstLen.toNat) :
    ∃ m : Memory, Stored s.buf m s.regs.dstBase.toNat out ∧ zltCommand unit s = { s with
      buf := m
      regs := { s.regs with
        status := 0#32, consumed := BitVec.ofNat 32 n, produced := BitVec.ofNat 32 out.length } } :=
  zltCommand_of_run hsrc hdst hover ((zltRun_of_units ha hunits (by simp) hlen).1 (by simp))

/-- The command stops with `NoSpace` after the placed units where the next one cannot be placed (43_zlt.md R182). -/
theorem zltCommand_of_mustStop (ha : UnitAgrees unit rel) (hsrc : SourceRegion s n) (hdst : DestRegion s)
    (hover : ¬ Overlap s) (hunits : Units rel (s.bufSlice s.regs.srcBase.toNat n) taken out)
    (hlen : out.length ≤ s.regs.dstLen.toNat)
    (hstop : MustStop rel (s.bufSlice s.regs.srcBase.toNat n) taken (s.regs.dstLen.toNat - out.length)) :
    ∃ m : Memory, Stored s.buf m s.regs.dstBase.toNat out ∧ zltCommand unit s = { s with
      buf := m
      regs := { s.regs with
        status := 4#32, consumed := BitVec.ofNat 32 taken, produced := BitVec.ofNat 32 out.length } } :=
  zltCommand_of_run hsrc hdst hover ((zltRun_of_units ha hunits (by simp) hlen).2 hstop)

/-- Status 0 means that the regions are usable and the whole source was transformed: a refusal ends with status 1, and a
stop before the end of the source with status 4. -/
theorem units_of_zltCommand_status_zero (ha : UnitAgrees unit rel) (hsrc : SourceRegion s n)
    (hstatus : (zltCommand unit s).regs.status = 0#32) :
    DestRegion s ∧ ¬ Overlap s ∧
      ∃ out, Units rel (s.bufSlice s.regs.srcBase.toNat n) n out ∧ out.length ≤ s.regs.dstLen.toNat := by
  rcases zltCommand_form unit s with hrefused | ⟨_, _, _, hdst, hover, -⟩
  · rw [hrefused, State.refuseArgs_status] at hstatus
    exact absurd hstatus (by decide)
  · obtain ⟨taken, out, hunits, hlen, hall | hstop⟩ :=
      units_or_stop ha n (s.bufSlice s.regs.srcBase.toNat n) s.regs.dstLen.toNat (by simp)
    · rw [State.bufSlice_length] at hall
      exact ⟨hdst, hover, out, hall ▸ hunits, hlen⟩
    · obtain ⟨m, -, hend⟩ := zltCommand_of_mustStop ha hsrc hdst hover hunits hlen hstop
      rw [hend] at hstatus
      exact absurd (show 4#32 = 0#32 from hstatus) (by decide)

end

/-! ### ZFWD and ZINV -/

/-- Settles O29: a forward unit stands at the head of every non-empty source, and ZFWD places them all where they fit. -/
theorem zfwdTransformsRegion : Obligations.ZfwdTransformsRegion := by
  intro s n hsrc hdst hover
  refine ⟨?_, fun out hunits hlen => ?_⟩
  · simpa using ForwardUnit.units_exist n (s.bufSlice s.regs.srcBase.toNat n) (by simp)
  · obtain ⟨m, hm, hend⟩ := zltCommand_of_units forwardUnit_agrees hsrc hdst hover hunits hlen
    exact ⟨m, hm, congrArg Host.Outcome.next hend⟩

/-- Settles O30: the loop ends before the unit that does not fit. -/
theorem zfwdStopsBeforeUnplacedUnit : Obligations.ZfwdStopsBeforeUnplacedUnit := by
  intro s n taken out hsrc hdst hover hunits hlen hstop
  obtain ⟨m, hm, hend⟩ := zltCommand_of_mustStop forwardUnit_agrees hsrc hdst hover hunits hlen hstop
  exact ⟨m, hm, congrArg Host.Outcome.next hend⟩

/-- Settles O31: ZINV places all units of its source. -/
theorem zinvRestoresRegion : Obligations.ZinvRestoresRegion := by
  intro s n out hsrc hdst hover hunits hlen
  obtain ⟨m, hm, hend⟩ := zltCommand_of_units inverseUnit_agrees hsrc hdst hover hunits hlen
  exact ⟨m, hm, congrArg Host.Outcome.next hend⟩

/-- Settles O32: the loop ends before a unit that does not fit, and where no unit stands at all. -/
theorem zinvStopsBeforeUnplacedUnit : Obligations.ZinvStopsBeforeUnplacedUnit := by
  intro s n taken out hsrc hdst hover hunits hlen hstop
  obtain ⟨m, hm, hend⟩ := zltCommand_of_mustStop inverseUnit_agrees hsrc hdst hover hunits hlen hstop
  exact ⟨m, hm, congrArg Host.Outcome.next hend⟩

/-! ### The round trip -/

/-- The host reads back the bytes that were stored (20_memory.md R63). -/
theorem Stored.bufSlice_eq {before : Memory} {s : State} {base : Nat} {bytes : List Byte}
    (h : Stored before s.buf base bytes) : s.bufSlice base bytes.length = bytes := by
  refine List.ext_getElem (s.bufSlice_length base _) fun i _ hi => ?_
  rw [State.bufSlice_getElem, State.bufByte_eq, h.1 i hi, Option.getD_some]

/-- Settles O33: the units ZFWD placed are, read from its output, inverse units that stand for its source. -/
theorem zltRoundTrip : Obligations.ZltRoundTrip := by
  intro s t u n hsrc hlong ht hok husrc hudst huover hroom hcopy
  obtain rfl : zltCommand forwardUnit s = t := Host.Outcome.next.inj ht
  obtain ⟨hdst, hover, out, hunits, hlen⟩ := units_of_zltCommand_status_zero forwardUnit_agrees hsrc hok
  obtain ⟨m, hstored, hend⟩ := zltCommand_of_units forwardUnit_agrees hsrc hdst hover hunits hlen
  have hcount : (BitVec.ofNat 32 out.length).toNat = out.length := by
    rw [BitVec.toNat_ofNat, Nat.mod_eq_of_lt (hlen.trans_lt s.regs.dstLen.isLt)]
  rw [hend] at husrc hcopy ⊢
  simp only [hcount] at husrc hcopy ⊢
  have hout : u.bufSlice u.regs.srcBase.toNat out.length = out := hcopy.trans (Stored.bufSlice_eq hstored)
  have hinverse := (inverse_of_forward hunits (s.bufSlice_length _ n).symm hlong).1
  obtain ⟨m', hstored', hinv⟩ := zinvRestoresRegion u out.length (s.bufSlice s.regs.srcBase.toNat n) husrc hudst huover
    (by rwa [hout]) (by rwa [State.bufSlice_length])
  rw [State.bufSlice_length] at hinv
  exact ⟨m', hstored', hinv⟩

/-! ### What the commands depend on -/

theorem State.bufSlice_congr {s t : State} {a n : Nat} (h : ∀ b, a ≤ b → b < a + n → s.bufByte b = t.bufByte b) :
    s.bufSlice a n = t.bufSlice a n := by
  refine List.ext_getElem (by simp) fun i hi _ => ?_
  rw [State.bufSlice_length] at hi
  rw [State.bufSlice_getElem, State.bufSlice_getElem, h (a + i) (by omega) (by omega)]

theorem SourceRegion.le_srcLen {s : State} {n : Nat} (h : SourceRegion s n) : n ≤ s.regs.srcLen.toNat := by
  obtain ⟨-, hsize, rfl⟩ := h
  split <;> omega

/-- What was stored reads the same whatever memory it was stored into. -/
theorem Memory.read_writeList_congr (m m' : Memory) {base a : Nat} {bs : List Byte} (h₁ : base ≤ a)
    (h₂ : a < base + bs.length) : (m.writeList base bs).read a = (m'.writeList base bs).read a := by
  obtain ⟨i, rfl⟩ := Nat.exists_eq_add_of_le h₁
  have hi : i < bs.length := by omega
  rw [Memory.read_writeList_inside _ _ _ _ hi, Memory.read_writeList_inside _ _ _ _ hi]

/-- Two states that agree on what the transform's commands read (43_zlt.md R180, R181). -/
structure SameZltInput (s t : State) : Prop where
  aw      : s.params.aw = t.params.aw
  srcBase : s.regs.srcBase = t.regs.srcBase
  srcLen  : s.regs.srcLen = t.regs.srcLen
  dstBase : s.regs.dstBase = t.regs.dstBase
  dstLen  : s.regs.dstLen = t.regs.dstLen
  size    : s.regs.size = t.regs.size
  bytes   : ∀ a, s.regs.srcBase.toNat ≤ a → a < s.regs.srcBase.toNat + s.regs.srcLen.toNat → s.bufByte a = t.bufByte a

/-- Two states with the same results of a transform: status, counts, and the bytes stored in the destination. -/
structure SameZltResult (base : Nat) (s t : State) : Prop where
  status   : s.regs.status = t.regs.status
  consumed : s.regs.consumed = t.regs.consumed
  produced : s.regs.produced = t.regs.produced
  bytes    : ∀ a, base ≤ a → a < base + s.regs.produced.toNat → s.buf.read a = t.buf.read a

/-- The checks read the configuration registers and the size of `BUF` only (43_zlt.md R181). -/
theorem SameZltInput.zltCount_eq {s t : State} (h : SameZltInput s t) : s.zltCount = t.zltCount := by
  unfold State.zltCount State.sourceCount State.destFits State.overlaps Params.bufSize
  rw [h.aw, h.srcBase, h.srcLen, h.dstBase, h.dstLen, h.size]

/-- The loop reads no byte past the source region (43_zlt.md R181). -/
theorem SameZltInput.bufSlice_eq {s t : State} (h : SameZltInput s t) {n : Nat} (hsrc : SourceRegion s n) :
    s.bufSlice s.regs.srcBase.toNat n = t.bufSlice t.regs.srcBase.toNat n := by
  rw [← h.srcBase]
  have hn := hsrc.le_srcLen
  exact State.bufSlice_congr fun a h₁ h₂ => h.bytes a h₁ (by omega)

/-- Both commands refuse, or both run the loop on the same source with the same room and store what it produces. -/
theorem SameZltInput.sameResult {s t : State} (h : SameZltInput s t) (unit : List Byte → Option ZltUnit) :
    SameZltResult s.regs.dstBase.toNat (zltCommand unit s) (zltCommand unit t) := by
  rw [zltCommand, zltCommand, ← h.zltCount_eq]
  cases hcount : s.zltCount with
  | none =>
    refine ⟨rfl, rfl, rfl, fun a h₁ h₂ => ?_⟩
    simp only [State.refuseArgs_produced, BitVec.toNat_ofNat, Nat.zero_mod] at h₂
    omega
  | some n =>
    simp only [← h.bufSlice_eq ((zltCount_eq_some_iff s n).1 hcount).1, ← h.dstBase, ← h.dstLen]
    refine ⟨rfl, rfl, rfl, fun a h₁ h₂ => Memory.read_writeList_congr _ _ h₁ (h₂.trans_le ?_)⟩
    exact Nat.add_le_add_left (by simpa using Nat.mod_le _ _) _

/-- Settles O34: the two commands are the same loop with two unit functions, which read the source bytes alone. -/
theorem zltDependsOnSourceOnly : Obligations.ZltDependsOnSourceOnly := by
  intro s t i hi haw hsrcBase hsrcLen hdstBase hdstLen hsize hbytes
  have hsame : SameZltInput s t := ⟨haw, hsrcBase, hsrcLen, hdstBase, hdstLen, hsize, hbytes⟩
  rcases hi with rfl | rfl
  · obtain ⟨hstatus, hconsumed, hproduced, hbuf⟩ := hsame.sameResult forwardUnit
    exact ⟨_, _, rfl, rfl, hstatus, hconsumed, hproduced, hbuf⟩
  · obtain ⟨hstatus, hconsumed, hproduced, hbuf⟩ := hsame.sameResult inverseUnit
    exact ⟨_, _, rfl, rfl, hstatus, hconsumed, hproduced, hbuf⟩

end Sys2Proof.Machine
end

section
/-! Proofs of the statements of 44_system.md: the register file and `BUF` as the host reads and writes them, and NOP. -/

namespace Sys2Proof.Machine

/-! ### The bytes of BUF -/

/-- A read inside `BUF` returns the byte there (44_system.md R203). -/
theorem perform_bufRead {s : State} {a : Nat} (h : a < s.params.bufSize) :
    perform (.bufRead a) s = .next { s with replies := s.replies ++ [.byte (s.bufByte a)] } :=
  if_pos h

/-- A write inside `BUF` stores one byte (44_system.md R203). -/
theorem perform_bufWrite {s : State} {a : Nat} (b : Byte) (h : a < s.params.bufSize) :
    perform (.bufWrite a b) s = .next { s with buf := s.buf.write a b } :=
  if_pos h

/-- A read outside `BUF` cannot be formed (20_memory.md R60). -/
theorem perform_bufRead_outside {s : State} {a : Nat} (h : s.params.bufSize ≤ a) :
    perform (.bufRead a) s = .fault .bufAddress :=
  if_neg (Nat.not_lt.2 h)

/-- A write outside `BUF` cannot be formed (20_memory.md R60). -/
theorem perform_bufWrite_outside {s : State} {a : Nat} (b : Byte) (h : s.params.bufSize ≤ a) :
    perform (.bufWrite a b) s = .fault .bufAddress :=
  if_neg (Nat.not_lt.2 h)

theorem State.bufByte_of_read_some {s : State} {a : Nat} {b : Byte} (h : s.buf.read a = some b) : s.bufByte a = b := by
  rw [State.bufByte_eq, h, Option.getD_some]

theorem State.bufByte_of_read_none {s : State} {a : Nat} (h : s.buf.read a = none) :
    s.bufByte a = Config.unwrittenByte s.bufEpoch a := by
  rw [State.bufByte_eq, h, Option.getD_none]

/-- One stored byte changes what its own address reads as, and no other, whether that one was written or not
(20_memory.md R74). -/
theorem State.bufByte_write (s : State) (a c : Nat) (b : Byte) :
    State.bufByte { s with buf := s.buf.write a b } c = if c = a then b else s.bufByte c := by
  rw [State.bufByte_eq, State.bufByte_eq, Memory.read_write]
  split_ifs <;> rfl

/-- Settles O9: the written memory, and a read of it at the written address and at every other. -/
theorem bufWriteThenRead : Obligations.BufWriteThenRead := by
  intro s a b ha
  refine ⟨s.buf.write a b, perform_bufWrite b ha, s.buf.stored_writeList a [b], Memory.wf_write a b, ?_⟩
  intro c hc
  rw [← s.bufByte_write]
  exact perform_bufRead hc

/-- Settles O10: a listed byte, an unlisted one, and an address outside `BUF`. -/
theorem bufReadReturnsLatestByte : Obligations.BufReadReturnsLatestByte := by
  intro s a
  refine ⟨fun ha b hb => ?listed, fun ha hb => ?unlisted, fun ha => ?outside⟩
  case listed => rw [perform_bufRead ha, State.bufByte_of_read_some hb]
  case unlisted => rw [perform_bufRead ha, State.bufByte_of_read_none hb]
  case outside => exact ⟨perform_bufRead_outside ha, fun b => perform_bufWrite_outside b ha⟩

/-! ### The registers -/

theorem toNat_and_lowMask (w : Word) {k : Nat} (hk : k ≤ 32) :
    (w &&& BitVec.ofNat 32 (2 ^ k - 1)).toNat = w.toNat % 2 ^ k := by
  have hlt : 2 ^ k - 1 < 2 ^ 32 := by
    have := Nat.pow_le_pow_right (n := 2) (by decide) hk
    have := Nat.two_pow_pos k
    omega
  rw [BitVec.toNat_and, BitVec.toNat_ofNat, Nat.mod_eq_of_lt hlt, Nat.and_two_pow_sub_one_eq_mod]

/-- The mask `2^k - 1` keeps the low `k` bits and clears the others: the one field of `STATUS` and of `RESULT`
(10_state.md R43, R44). -/
theorem and_lowMask_fields (w : Word) {k : Nat} (hk : k ≤ 32) :
    (w &&& BitVec.ofNat 32 (2 ^ k - 1)).extractLsb' 0 k = w.extractLsb' 0 k ∧
    (w &&& BitVec.ofNat 32 (2 ^ k - 1)).extractLsb' k (32 - k) = 0#(32 - k) := by
  constructor <;> rw [← BitVec.toNat_inj]
  · simp [BitVec.extractLsb'_toNat, toNat_and_lowMask w hk]
  · have hlt : w.toNat % 2 ^ k < 2 ^ k := Nat.mod_lt _ (Nat.two_pow_pos k)
    rw [BitVec.extractLsb'_toNat, toNat_and_lowMask w hk, Nat.shiftRight_eq_div_pow, Nat.div_eq_of_lt hlt,
      BitVec.toNat_ofNat]

/-- The fields of `USTAT`, lowest first (10_state.md R47). -/
theorem State.ustat_fields (s : State) :
    s.ustat.getLsbD 0 = s.enc.written ∧ s.ustat.getLsbD 1 = s.enc.flushed ∧ s.ustat.getLsbD 2 = s.dec.initialized ∧
    s.ustat.getLsbD 3 = s.dec.err ∧ s.ustat.extractLsb' 4 4 = s.dec.errcode ∧
    s.ustat.getLsbD 8 = decide (s.inPos < s.params.inStream.length) ∧ s.ustat.extractLsb' 9 23 = 0#23 := by
  unfold State.ustat
  refine ⟨?written, ?flushed, ?initialized, ?err, ?errcode, ?inMore, ?unused⟩
  case errcode =>
    ext i hi
    simp only [BitVec.getElem_extractLsb', BitVec.getLsbD_append]
    simp [hi]
  case unused =>
    ext i hi
    have hcode : ¬5 + i < 4 := by omega
    have hmore : 5 + i - 4 ≠ 0 := by omega
    simp only [BitVec.getElem_extractLsb', BitVec.getLsbD_append]
    simp [hcode, hmore]
  all_goals
    simp only [BitVec.getLsbD_append]
    simp [inMore]

/-- A reserved or unaligned offset reads as 0 (10_state.md R48). -/
theorem State.regValue_unlisted (s : State) {off : BitVec 8}
    (h : off ∉ [0x00#8, 0x04#8, 0x08#8, 0x0C#8, 0x10#8, 0x14#8, 0x18#8, 0x1C#8, 0x20#8, 0x24#8, 0x28#8, 0x2C#8]) :
    s.regValue off = 0#32 := by
  simp only [List.mem_cons, List.not_mem_nil, or_false, not_or] at h
  simp only [State.regValue, h, if_false]

/-- A write anywhere but to the five configuration registers stores nothing (10_state.md R45, R48). -/
theorem State.storeReg_unlisted (s : State) {off : BitVec 8} (v : Word)
    (h : off ∉ [0x10#8, 0x14#8, 0x18#8, 0x1C#8, 0x20#8]) : s.storeReg off v = s := by
  simp only [List.mem_cons, List.not_mem_nil, or_false, not_or] at h
  simp only [State.storeReg, h, if_false]

/-- A write to any register but `CMD` is no command (44_system.md R202). -/
theorem perform_regWrite {off : BitVec 8} (h : off ≠ 0x04#8) (v : Word) (s : State) :
    perform (.regWrite off v) s = .next (s.storeReg off v) :=
  if_neg h

/-- Settles O7: the value of each register of 10_state.md R40 at its offset. -/
theorem regReadReturnsRegister : Obligations.RegReadReturnsRegister := by
  intro s off
  refine ⟨s.regValue off, rfl, ?id, ?cmd, ?status, ?result, ?srcBase, ?srcLen, ?dstBase, ?dstLen, ?size, ?consumed,
    ?produced, ?ustat, s.regValue_unlisted⟩ <;> rintro rfl
  case status => exact and_lowMask_fields s.regs.status (k := 4) (by decide)
  case result => exact and_lowMask_fields s.regs.result (k := 8) (by decide)
  case ustat => exact s.ustat_fields
  all_goals rfl

/-- Settles O8: `CMD` runs the word's command or raises `IllegalCommand`, every other write stores its register or nothing. -/
theorem regWriteStoresOrDispatches : Obligations.RegWriteStoresOrDispatches := by
  intro s off v
  refine ⟨?command, ?illegal, ?srcBase, ?srcLen, ?dstBase, ?dstLen, ?size, fun h => ?ignored⟩
  case ignored =>
    rw [List.mem_cons, not_or] at h
    obtain ⟨hcmd, hconfig⟩ := h
    rw [perform_regWrite hcmd, s.storeReg_unlisted v hconfig]
  all_goals rintro rfl
  case command => exact fun i hi => perform_command hi s
  case illegal => exact fun hv => perform_illegal hv s
  all_goals exact perform_regWrite (by decide) v s

/-! ### NOP -/

/-- Settles O13: the all-zero word is NOP's own, and NOP ends with the status code `ok`, whose number is 0. -/
theorem nopClearsStatus : Obligations.NopClearsStatus :=
  ⟨decode_encode .nop, fun _ => rfl⟩

end Sys2Proof.Machine
end

section
/-! Proofs of the statements of 60_exceptions.md: what each fault leaves of the state, and which commands raise it. -/

namespace Sys2Proof.Machine

/-! ### A coder step that raises at once -/

/-- A run whose first byte raises codes nothing and leaves the encoder (41_range_encoder.md R150). -/
theorem encodeRun_of_raises {e : Encoder} {c : StatusCode} (he : ∀ b, encodeByte b e = .raised c) {bs : List Byte}
    (hbs : bs ≠ []) : encodeRun bs e = ⟨e, [], 0, .ok c⟩ := by
  obtain ⟨b, bs, rfl⟩ := List.exists_cons_of_ne_nil hbs
  rw [encodeRun, he b]

theorem execEncblk_of_raises {s : State} {n : Nat} {c : StatusCode} (hn : SourceRegion s n) (hpos : 1 ≤ n)
    (he : ∀ b, encodeByte b s.enc = .raised c) : execEncblk s = .next ((s.setCounts 0 0).finish c) := by
  have hbs : s.bufSlice s.regs.srcBase.toNat n ≠ [] := List.ne_nil_of_length_pos (by rwa [State.bufSlice_length])
  have hout : outBytes s.outStream [] = s.outStream := List.append_nil _
  have hcount : countWord 0 = 0 := countWord_of_lt (by decide)
  rw [execEncblk_of_run hn (encodeRun_of_raises he hbs), hout, List.length_nil, hcount]

theorem decodeSymbol_full {d : Decoder} (ht : 2 ^ 40 ≤ d.freq.total) (stream : List Byte) (pos : Nat) :
    decodeSymbol stream d pos = .raised .freq pos :=
  if_pos ht

theorem execDecb_of_raises {s : State} {c : StatusCode} {pos : Nat} (he : s.dec.err = false)
    (hd : decodeSymbol s.params.inStream s.dec s.inPos = .raised c pos) :
    execDecb s = .next (State.finish { s with dec := s.dec.latch c, inPos := pos } c) := by
  rw [execDecb, he, if_neg Bool.false_ne_true, hd]

/-- A run whose first symbol raises decodes nothing and latches the code (42_range_decoder.md R166). -/
theorem decodeRun_of_raises {stream : List Byte} {d : Decoder} {pos pos' : Nat} {c : StatusCode}
    (hd : decodeSymbol stream d pos = .raised c pos') {n : Nat} (hn : 1 ≤ n) :
    decodeRun stream n d pos = ⟨d.latch c, pos', [], .ok c⟩ := by
  obtain ⟨k, rfl⟩ := Nat.exists_eq_add_of_le' hn
  rw [decodeRun, hd]

/-! ### Sequence -/

/-- A flushed encoder refuses the first byte, and a run of none leaves it (60_exceptions.md R225). -/
theorem encodeRun_enc_of_flushed {e : Encoder} (hf : e.flushed = true) (bs : List Byte) : (encodeRun bs e).enc = e := by
  cases bs with
  | nil => rfl
  | cons b bs => rw [encodeRun_of_raises (encodeByte_flushed · hf) (List.cons_ne_nil b bs)]

/-- Once flushed, the encoder is changed by ERST alone (60_exceptions.md R225). -/
theorem exec_enc_of_flushed {i : Instr} {s t : State} (hf : s.enc.flushed = true) (hi : i ≠ .erst)
    (h : exec i s = .next t) : t.enc = s.enc := by
  cases i with
  | encb b =>
    cases h.symm.trans (execEncb_of_raises (encodeByte_flushed b hf))
    rfl
  | encf =>
    cases h.symm.trans (execEncf_idle (.inr hf))
    rfl
  | encblk =>
    rcases execEncblk_next h with rfl | ⟨n, e, out, p, c, -, -, hr, rfl⟩
    · rfl
    · have he := encodeRun_enc_of_flushed hf (s.bufSlice s.regs.srcBase.toNat n)
      rwa [hr] at he
  | erst => exact absurd rfl hi
  | nop | decb | decblk | drst | zfwd | zinv =>
    obtain ⟨henc, -⟩ := commandsStayInTheirUnit _ s t h
    exact henc (by simp) (by decide)

/-- Settles O16: every encode step of a flushed encoder raises `Sequence`, and no command but ERST changes the unit. -/
theorem flushedEncoderRefusesBytes : Obligations.FlushedEncoderRefusesBytes := by
  intro s hf
  refine ⟨fun b => execEncb_of_raises (encodeByte_flushed b hf), fun n hn hpos => ?_, fun i t hi h => ?_⟩
  · exact execEncblk_of_raises hn hpos (encodeByte_flushed · hf)
  · rw [exec_enc_of_flushed hf hi h, hf]

/-! ### FreqLimit -/

theorem execDecblk_full {s : State} (he : s.dec.err = false) (ht : 2 ^ 40 ≤ s.dec.freq.total) (hdst : DestRegion s)
    (hpos : 1 ≤ s.regs.dstLen.toNat) :
    execDecblk s = .next (State.finish (State.setCounts { s with dec := s.dec.latch .freq } 0 0) .freq) := by
  rw [execDecblk_of_run he hdst (decodeRun_of_raises (decodeSymbol_full ht _ _) hpos), Nat.sub_self]
  rfl

/-- Settles O17: both units test the bound before they code, so the first step of each command raises. -/
theorem frequencyBoundStopsCoding : Obligations.FrequencyBoundStopsCoding := by
  refine fun s => ⟨fun hf ht => ⟨fun b => ?encb, fun n hn hpos => ?encblk⟩,
    fun he ht => ⟨?decb, fun hdst hpos => ?decblk⟩⟩
  case encb => exact execEncb_of_raises (encodeByte_full b hf ht)
  case encblk => exact execEncblk_of_raises hn hpos (encodeByte_full · hf ht)
  case decb => exact execDecb_of_raises he (decodeSymbol_full ht _ _)
  case decblk => exact execDecblk_full he ht hdst hpos

/-! ### The decoder's latch -/

/-- Once latched, the decoder and the input cursor are changed by DRST alone (60_exceptions.md R226). -/
theorem exec_dec_of_latched {i : Instr} {s t : State} (he : s.dec.err = true) (hi : i ≠ .drst)
    (h : exec i s = .next t) : t.dec = s.dec ∧ t.inPos = s.inPos := by
  cases i with
  | decb =>
    cases h.symm.trans (execDecb_latched he)
    exact ⟨rfl, rfl⟩
  | decblk =>
    cases h.symm.trans (execDecblk_latched he)
    exact ⟨rfl, rfl⟩
  | drst => exact absurd rfl hi
  | nop | encb | encf | encblk | erst | zfwd | zinv =>
    obtain ⟨-, -, hdec, hpos, -⟩ := commandsStayInTheirUnit _ s t h
    exact ⟨hdec (by simp), hpos (by simp)⟩

/-- Settles O24: both decode commands test the latch first, and no other command but DRST has the decoder. -/
theorem latchedDecoderOnlyReports : Obligations.LatchedDecoderOnlyReports :=
  fun _ he => ⟨execDecb_latched he, execDecblk_latched he, fun _ _ => exec_dec_of_latched he⟩

/-! ### InvalidArg -/

/-- A source region outside `BUF` or a `SIZE` above `SRC_LEN` is not usable (43_zlt.md R181). -/
theorem not_sourceRegion {s : State}
    (h : 2 ^ s.params.aw < s.regs.srcBase.toNat + s.regs.srcLen.toNat ∨ s.regs.srcLen.toNat < s.regs.size.toNat) (n : Nat) :
    ¬ SourceRegion s n := by
  rintro ⟨hfits, hsize, -⟩
  omega

theorem not_destRegion {s : State} (h : 2 ^ s.params.aw < s.regs.dstBase.toNat + s.regs.dstLen.toNat) : ¬ DestRegion s :=
  Nat.not_le.2 h

/-- The transform's commands refuse when one of their three checks fails (43_zlt.md R181, 60_exceptions.md R217). -/
theorem zltCommand_refuses (unit : List Byte → Option ZltUnit) {s : State}
    (h : (∀ n, ¬ SourceRegion s n) ∨ ¬ DestRegion s ∨ Overlap s) : zltCommand unit s = s.refuseArgs := by
  rcases zltCommand_form unit s with hrefused | ⟨n, _, hsrc, hdst, hover, -⟩
  · exact hrefused
  · rcases h with h | h | h
    · exact absurd hsrc (h n)
    · exact absurd hdst h
    · exact absurd h hover

/-- Settles O35: each cause fails a check that stands before every access. -/
theorem unusableRegionsAreRefused : Obligations.UnusableRegionsAreRefused := by
  refine fun s => ⟨fun h => ?encblk, fun he h => ?decblk, fun h => ?zlt⟩
  case encblk => exact execEncblk_refuses ((sourceCount_none_iff s).2 (not_sourceRegion h))
  case decblk => exact execDecblk_refuses he (not_destRegion h)
  case zlt =>
    have hcheck : (∀ n, ¬ SourceRegion s n) ∨ ¬ DestRegion s ∨ Overlap s := by
      rcases h with h | h | h | h
      · exact .inl (not_sourceRegion (.inl h))
      · exact .inl (not_sourceRegion (.inr h))
      · exact .inr (.inl (not_destRegion h))
      · exact .inr (.inr h)
    exact ⟨congrArg Host.Outcome.next (zltCommand_refuses forwardUnit hcheck),
      congrArg Host.Outcome.next (zltCommand_refuses inverseUnit hcheck)⟩

/-! ### The table of status codes -/

/-- The column "raised by" of the table of 60_exceptions.md R215, for the commands: `illcmd` is raised by no command. -/
def StatusCode.RaisedBy : StatusCode → Instr → Prop
  | .ok, _ => True
  | .inval, i => i ∈ [.encblk, .decblk, .zfwd, .zinv]
  | .eos, i => i ∈ [.decb, .decblk]
  | .corrupt, i => i ∈ [.decb, .decblk]
  | .space, i => i ∈ [.zfwd, .zinv]
  | .io, i => i ∈ [.decb, .decblk]
  | .seq, i => (∃ b, i = .encb b) ∨ i = .encblk
  | .freq, i => (∃ b, i = .encb b) ∨ i ∈ [.encblk, .decb, .decblk]
  | .illcmd, _ => False

/-- A command ended with a code that the table lists for it. -/
def EndsWithTableCode (i : Instr) (t : State) : Prop :=
  ∃ c : StatusCode, c.RaisedBy i ∧ t.regs.status = c.bits.zeroExtend 32

theorem StatusCode.word_injective {c c' : StatusCode} (h : c.bits.zeroExtend 32 = c'.bits.zeroExtend 32) : c = c' := by
  refine StatusCode.bits_injective (BitVec.eq_of_toNat_eq ?_)
  have hnat := congrArg BitVec.toNat h
  have hlt := c.bits.isLt
  have hlt' := c'.bits.isLt
  simp only [BitVec.toNat_setWidth] at hnat
  omega

theorem StatusCode.RaisedBy.word_le_seven {c : StatusCode} {i : Instr} (h : c.RaisedBy i) :
    (c.bits.zeroExtend 32).toNat ≤ 7 := by
  cases c with
  | illcmd => exact h.elim
  | ok | inval | eos | corrupt | space | io | seq | freq => decide

/-- What a decode step ends with, both decode commands may end with (60_exceptions.md R215). -/
theorem raisedBy_of_decode {c : StatusCode} {i : Instr} (hc : c ∈ [.ok, .eos, .corrupt, .io, .freq])
    (hi : i ∈ [.decb, .decblk]) : c.RaisedBy i := by
  simp only [List.mem_cons, List.not_mem_nil, or_false] at hc
  rcases hc with rfl | rfl | rfl | rfl | rfl
  · trivial
  · exact hi
  · exact hi
  · exact hi
  · exact .inr (List.mem_cons_of_mem _ hi)

/-- The latch holds the code of a decode fault (60_exceptions.md R226). -/
theorem Decoder.Inv.errcode_eq {d : Decoder} (h : d.Inv) (he : d.err = true) :
    ∃ c : StatusCode, c ∈ [.ok, .eos, .corrupt, .io, .freq] ∧ d.errcode = c.bits := by
  have hcode := h.latched he
  simp only [List.mem_cons, List.not_mem_nil, or_false] at hcode
  rcases hcode with hcode | hcode | hcode | hcode
  · exact ⟨.eos, by decide, hcode⟩
  · exact ⟨.corrupt, by decide, hcode⟩
  · exact ⟨.io, by decide, hcode⟩
  · exact ⟨.freq, by decide, hcode⟩

/-- Reporting the latch is ending with the code of a decode fault (60_exceptions.md R226). -/
theorem endsWithTableCode_of_latched {s t : State} {i : Instr} (h : s.dec.Inv) (he : s.dec.err = true)
    (hi : i ∈ [.decb, .decblk]) (ht : t.regs.status = s.dec.errcode.zeroExtend 32) : EndsWithTableCode i t := by
  obtain ⟨c, hc, hcode⟩ := h.errcode_eq he
  exact ⟨c, raisedBy_of_decode hc hi, hcode ▸ ht⟩

theorem endsWithTableCode_zlt (unit : List Byte → Option ZltUnit) (s : State) {i : Instr} (hi : i ∈ [.zfwd, .zinv]) :
    EndsWithTableCode i (zltCommand unit s) := by
  rcases zltCommand_form unit s with h | ⟨_, r, _, _, _, _, _, h⟩ <;> rw [h]
  · exact ⟨.inval, List.mem_cons_of_mem _ (List.mem_cons_of_mem _ hi), rfl⟩
  · cases r.placed with
    | true => exact ⟨.ok, trivial, rfl⟩
    | false => exact ⟨.space, hi, rfl⟩

theorem exec_endsWithTableCode {i : Instr} {s t : State} (hs : s.Inv) (h : exec i s = .next t) :
    EndsWithTableCode i t := by
  cases i with
  | nop | erst | drst => cases h; exact ⟨.ok, trivial, rfl⟩
  | encb b =>
    rcases execEncb_next h with ⟨_, _, _, rfl⟩ | rfl | rfl
    · exact ⟨.ok, trivial, rfl⟩
    · exact ⟨.seq, .inl ⟨b, rfl⟩, rfl⟩
    · exact ⟨.freq, .inl ⟨b, rfl⟩, rfl⟩
  | encf =>
    obtain ⟨_, _, rfl⟩ := execEncf_next h
    exact ⟨.ok, trivial, rfl⟩
  | encblk =>
    rcases execEncblk_next h with rfl | ⟨_, _, _, _, _, _, rfl | rfl | rfl, _, rfl⟩
    · exact ⟨.inval, List.mem_cons_self, rfl⟩
    · exact ⟨.ok, trivial, rfl⟩
    · exact ⟨.seq, .inr rfl, rfl⟩
    · exact ⟨.freq, .inr List.mem_cons_self, rfl⟩
  | decb =>
    rcases execDecb_next h with ⟨he, rfl⟩ | ⟨_, _, _, _, _, rfl⟩ | ⟨_, c, _, hc, _, rfl⟩
    · exact endsWithTableCode_of_latched hs.dec he (by decide) rfl
    · exact ⟨.ok, trivial, rfl⟩
    · exact ⟨c, raisedBy_of_decode (List.mem_cons_of_mem _ hc) (by decide), rfl⟩
  | decblk =>
    rcases execDecblk_next h with ⟨he, rfl⟩ | ⟨_, rfl⟩ | ⟨_, _, _, _, _, c, _, hc, _, rfl⟩
    · exact endsWithTableCode_of_latched hs.dec he (by decide) rfl
    · exact ⟨.inval, List.mem_cons_of_mem _ List.mem_cons_self, rfl⟩
    · exact ⟨c, raisedBy_of_decode hc (by decide), rfl⟩
  | zfwd => cases h; exact endsWithTableCode_zlt forwardUnit s (by decide)
  | zinv => cases h; exact endsWithTableCode_zlt inverseUnit s (by decide)

/-- Settles O43: the status names one code, and the table lists that code for the command. -/
theorem statusCodesComeFromTable : Obligations.StatusCodesComeFromTable := by
  intro i s t hs h
  obtain ⟨c, hc, hstatus⟩ := exec_endsWithTableCode hs h
  have hraised (c' : StatusCode) (h' : t.regs.status = c'.bits.zeroExtend 32) : c'.RaisedBy i :=
    StatusCode.word_injective (hstatus.symm.trans h') ▸ hc
  exact ⟨hstatus ▸ hc.word_le_seven, hraised .inval, hraised .eos, hraised .corrupt, hraised .space, hraised .io,
    hraised .seq, hraised .freq⟩

end Sys2Proof.Machine
end

section
/-! Proofs of the statements of 70_reset_and_hazards.md: the reset event, and what a run of host operations is and when it is
clean. -/

namespace Sys2Proof.Machine

/-! ### The reset event -/

/-- Settles O11: the reset event answers the reset state's values, with only the model's own fields taken from `s`. -/
theorem resetEventClearsBlock : Obligations.ResetEventClearsBlock := fun s =>
  ⟨s.resetEvent, rfl, rfl, rfl, rfl, rfl, rfl, rfl, rfl, rfl, rfl, rfl,
    fun _ hi => ⟨FreqModel.initial_deltaFreq hi, FreqModel.initial_deltaFreq hi⟩,
    fun _ hi => ⟨FreqModel.initial_baseFreq hi, FreqModel.initial_baseFreq hi⟩,
    rfl, rfl, rfl, rfl, rfl, rfl, rfl, rfl⟩

/-! ### A run ends -/

/-- An issued operation keeps the invariant. -/
theorem issue_inv {op : HostOp} {s t : State} (h : s.Inv) (ht : issue op s = .next t) : t.Inv :=
  perform_inv (h.setOps []) ht

/-- From a state that meets the invariant, operations that can be formed are all performed: each one completes, keeps the
invariant, and keeps the parameters the next one is formed for (70_reset_and_hazards.md R258, R260). -/
theorem runOps_completes {ops : List HostOp} {s : State} (h : s.Inv) (hwf : ∀ op ∈ ops, op.wellFormed s.params = true)
    (c : Bool) : ∃ e, runOps ops s c = .next e ∧ e.1.Inv := by
  induction ops generalizing s c with
  | nil => exact ⟨(s, c), rfl, h⟩
  | cons op rest ih =>
    obtain ⟨hop, hrest⟩ := List.forall_mem_cons.1 hwf
    obtain ⟨t, ht⟩ : ∃ t, issue op s = .next t := perform_completes (h.setOps []) hop
    have hparams : t.params = s.params := (issue_replies ht).2
    obtain ⟨e, he, hinv⟩ := ih (issue_inv h ht) (hparams ▸ hrest) (c && keepsClean op t)
    exact ⟨e, by rw [runOps, ht]; exact he, hinv⟩

/-- Settles O49: a run is its operations, issued with nothing else pending. -/
theorem runAlwaysEnds : Obligations.RunAlwaysEnds := by
  intro s ops h hwf
  obtain ⟨e, he, hinv⟩ := runOps_completes (h.setOps []) hwf true
  exact ⟨_, runFrom_of_runOps he, hinv⟩

/-! ### A run is one step for each operation -/

/-- Performing operations one after the other, with nothing else pending, is a step of the block for each. -/
theorem core_run_of_runOps {ops : List HostOp} {s : State} {c : Bool} {e : State × Bool} (hs : s.hostOps = [])
    (h : runOps ops s c = .next e) :
    Sys2Proof.core.run ops.length { s with hostOps := ops } = .next e.1 ∧ e.1.hostOps = [] := by
  induction ops generalizing s c with
  | nil =>
    cases h
    have hnone : { s with hostOps := [] } = s := by rw [← hs]
    exact ⟨congrArg Host.Outcome.next hnone, hs⟩
  | cons op rest ih =>
    obtain ⟨t, ht, hrest⟩ := runOps_cons_next h
    rw [List.length_cons, core_run_succ rest.length (step_of_issue ht rest)]
    exact ih (issue_hostOps ht) hrest

/-- Operations append one reply for each read among them. -/
theorem runOps_replies {ops : List HostOp} {s : State} {c : Bool} {e : State × Bool} (h : runOps ops s c = .next e) :
    ∃ vs, e.1.replies = s.replies ++ vs ∧ vs.length = (ops.filter HostOp.isRead).length := by
  induction ops generalizing s c with
  | nil => cases h; exact ⟨[], (List.append_nil _).symm, rfl⟩
  | cons op rest ih =>
    obtain ⟨t, ht, hrest⟩ := runOps_cons_next h
    obtain ⟨⟨vs, hvs, hlen⟩, -⟩ := issue_replies ht
    obtain ⟨ws, hws, hlen'⟩ := ih hrest
    refine ⟨vs ++ ws, by rw [hws, hvs, List.append_assoc], ?_⟩
    rw [List.length_append, hlen, hlen', List.filter_cons]
    split <;> simp [Nat.add_comm]

/-- Settles O47: the steps of the operations, and the replies after those of the start state. -/
theorem runIsIteratedStep : Obligations.RunIsIteratedStep := by
  intro s ops r h
  obtain ⟨hrun, hvalues⟩ := runFrom_next h
  obtain ⟨hcore, hpending⟩ := core_run_of_runOps rfl hrun
  obtain ⟨vs, hvs, hlen⟩ := runOps_replies hrun
  have hr : r.values = vs := by rw [hvalues, hvs, List.drop_left]
  exact ⟨hcore, hpending, hr ▸ hvs, hr ▸ hlen⟩

/-! ### When a run is clean -/

/-- The commands are the writes to `CMD` (10_state.md R42). -/
theorem HostOp.isCommand_iff {op : HostOp} : op.isCommand = true ↔ ∃ w, op = .regWrite 0x04#8 w := by
  cases op <;> simp [HostOp.isCommand]

theorem keepsClean_iff {op : HostOp} {t : State} : keepsClean op t = true ↔ (op.isCommand = true → t.statusOk = true) := by
  cases h : op.isCommand <;> simp [keepsClean, h]

theorem State.statusOk_iff {s : State} : s.statusOk = true ↔ s.regs.status = 0#32 := beq_iff_eq

/-- A list is cut at its head, or inside its tail. -/
theorem forall_cut_cons_iff {α : Type} {x : α} {xs : List α} {P : List α → α → Prop} :
    (∀ pre y post, x :: xs = pre ++ y :: post → P pre y) ↔
      P [] x ∧ ∀ pre y post, xs = pre ++ y :: post → P (x :: pre) y where
  mp h := ⟨h [] x xs rfl, fun pre y post hxs => h (x :: pre) y post (congrArg (x :: ·) hxs)⟩
  mpr h pre y post hcut := by
    cases pre with
    | nil => cases hcut; exact h.1
    | cons z pre => cases hcut; exact h.2 pre y post rfl

/-- `op`, issued after the operations `pre` from `s`, ended with status 0 if it is a command. -/
def EndsOk (s : State) (c : Bool) (pre : List HostOp) (op : HostOp) : Prop :=
  op.isCommand = true → ∃ e, runOps (pre ++ [op]) s c = .next e ∧ e.1.statusOk = true

theorem endsOk_nil_iff {op : HostOp} {s t : State} {c : Bool} (h : issue op s = .next t) :
    EndsOk s c [] op ↔ keepsClean op t = true := by
  simp [EndsOk, keepsClean_iff, runOps, h]

theorem endsOk_cons_iff {op x : HostOp} {pre : List HostOp} {s t : State} {c : Bool} (h : issue op s = .next t) :
    EndsOk s c (op :: pre) x ↔ EndsOk t (c && keepsClean op t) pre x := by
  simp only [EndsOk, List.cons_append, runOps, h]

/-- The flag stays set exactly when it was and every command among the operations ended with status 0: it is never set
again (70_reset_and_hazards.md R260). -/
theorem runOps_clean_iff {ops : List HostOp} {s : State} {c : Bool} {e : State × Bool} (h : runOps ops s c = .next e) :
    e.2 = true ↔ c = true ∧ ∀ pre op post, ops = pre ++ op :: post → EndsOk s c pre op := by
  induction ops generalizing s c with
  | nil => cases h; simp
  | cons op rest ih =>
    obtain ⟨t, ht, hrest⟩ := runOps_cons_next h
    simp only [ih hrest, forall_cut_cons_iff, endsOk_nil_iff ht, endsOk_cons_iff ht, Bool.and_eq_true, and_assoc]

/-- The start of a run up to a command ended with status 0. -/
theorem endsOk_command_iff {s : State} {pre : List HostOp} {w : Word} :
    EndsOk { s with hostOps := [] } true pre (.regWrite 0x04#8 w) ↔
      ∃ q : RunResult, runFrom s (pre ++ [.regWrite 0x04#8 w]) = .next q ∧ q.final.regs.status = 0#32 where
  mp h := by
    obtain ⟨e, he, hok⟩ := h rfl
    exact ⟨_, runFrom_of_runOps he, State.statusOk_iff.1 hok⟩
  mpr := fun ⟨_, hq, hok⟩ _ => ⟨_, (runFrom_next hq).1, State.statusOk_iff.2 hok⟩

/-- Settles O48: the run's flag, with each command written as a write to `CMD`. -/
theorem runIsCleanWhenNoCommandFaults : Obligations.RunIsCleanWhenNoCommandFaults := by
  intro s ops r h
  rw [runOps_clean_iff (runFrom_next h).1, and_iff_right rfl]
  constructor
  · exact fun hall pre post w hops => endsOk_command_iff.1 (hall pre _ post hops)
  · intro hall pre op post hops hop
    obtain ⟨w, rfl⟩ := HostOp.isCommand_iff.1 hop
    exact endsOk_command_iff.2 (hall pre post w hops) hop

end Sys2Proof.Machine
end
